-- ==== Sys2Proof/Word.lean ====
section
/-! DEFINITION. The words of the HDE: bytes, 32-bit channel words (30_encoding.md R63) and byte strings (00_scope.md
R18). Arithmetic on them is BitVec's: unsigned, modulo the width (R16). -/

namespace Sys2Proof

/-- A byte of a payload, of the block buffer or of a digest. -/
abbrev Byte := BitVec 8

/-- A word of the command channel or of the response channel (R63). -/
abbrev Word := BitVec 32

/-- A byte string, indexed from 0 (R18). -/
abbrev Bytes := List Byte

/-- `zeros(n)`: n zero bytes (R18). -/
def zeros (n : Nat) : Bytes := List.replicate n 0

end Sys2Proof
end

