-- ==== Sys2Proof/Machine/Bits.lean ====
section
/-! DEFINITION. Bits, byte strings and words as the cores use them: rotations (00_scope.md R17), word loads and byte
encodings (R19), bytewise exclusive or, and the multiplication of bytes in a field of 256 elements (44_groestl.md
R126, 46_whirlpool.md R146). Addition modulo 2^w (R16) is BitVec's own. -/

namespace Sys2Proof.Machine

/-- `ROTL_w(x, n)` for 0 <= n < w (R17): with n = 0 the right part is shifted out and x stays. -/
def rotl {w : Nat} (x : BitVec w) (n : Nat) : BitVec w := x <<< n ||| x >>> (w - n)

/-- `ROTR_w(x, n) = ROTL_w(x, w - n)` (R17). -/
def rotr {w : Nat} (x : BitVec w) (n : Nat) : BitVec w := rotl x (w - n)

/-- Word i of a list of words. The cores use it inside the list only. -/
def nth {w : Nat} (v : List (BitVec w)) (i : Nat) : BitVec w := v.getD i 0

/-- The number whose base-256 digits are the bytes, the first the least significant. -/
def natLE : Bytes → Nat
  | [] => 0
  | b :: bs => b.toNat + 256 * natLE bs

/-- `enc_LE(v, n)` (R19), for v below 2^(8n). -/
def encLE (v : Nat) : Nat → Bytes
  | 0 => []
  | n + 1 => BitVec.ofNat 8 v :: encLE (v / 256) n

/-- `enc_BE(v, n)` (R19), for v below 2^(8n). -/
def encBE (v n : Nat) : Bytes := (encLE v n).reverse

/-- The w/8 bytes of word i of a byte string (R19). -/
def wordBytes (w : Nat) (s : Bytes) (i : Nat) : Bytes := (s.drop (i * (w / 8))).take (w / 8)

/-- `LE_w(s, i)` (R19). -/
def loadLE (w : Nat) (s : Bytes) (i : Nat) : BitVec w := BitVec.ofNat w (natLE (wordBytes w s i))

/-- `BE_w(s, i)` (R19). -/
def loadBE (w : Nat) (s : Bytes) (i : Nat) : BitVec w := BitVec.ofNat w (natLE (wordBytes w s i).reverse)

/-- The first n words of a byte string, little-endian. -/
def wordsLE (w : Nat) (s : Bytes) (n : Nat) : List (BitVec w) := (List.range n).map (loadLE w s)

/-- The first n words of a byte string, big-endian. -/
def wordsBE (w : Nat) (s : Bytes) (n : Nat) : List (BitVec w) := (List.range n).map (loadBE w s)

/-- The little-endian byte string of a list of words. -/
def bytesLE {w : Nat} (v : List (BitVec w)) : Bytes := v.flatMap fun x => encLE x.toNat (w / 8)

/-- The big-endian byte string of a list of words. -/
def bytesBE {w : Nat} (v : List (BitVec w)) : Bytes := v.flatMap fun x => encBE x.toNat (w / 8)

/-- Exclusive or, element by element. -/
def xorWords {w : Nat} (a b : List (BitVec w)) : List (BitVec w) := List.zipWith (· ^^^ ·) a b

/-- The last n bytes of a byte string. -/
def lastBytes (n : Nat) (s : Bytes) : Bytes := s.drop (s.length - n)

/-- `a << 1` on 9 bits, reduced by the field polynomial when bit 8 is set (R126). -/
def fieldDouble (poly : BitVec 9) (a : BitVec 9) : BitVec 9 :=
  if (a <<< 1).getLsbD 8 then a <<< 1 ^^^ poly else a <<< 1

/-- The product of two bytes in the field of the polynomial, b's bits from the least significant (R126): n more bits
of b to go, r the sum so far. -/
def fieldMulFrom (poly : BitVec 9) : Nat → BitVec 9 → Byte → BitVec 9 → BitVec 9
  | 0, _, _, r => r
  | n + 1, a, b, r => fieldMulFrom poly n (fieldDouble poly a) (b >>> 1) (if b.getLsbD 0 then r ^^^ a else r)

/-- The product of two bytes in the field of the polynomial (R126, R146). -/
def fieldMul (poly : BitVec 9) (a b : Byte) : Byte := (fieldMulFrom poly 8 (a.setWidth 9) b 0).setWidth 8

/-- A 16 by 16 table of bytes, row x[7:4] and column x[3:0] (R127, R147). -/
def boxAt (rows : List (List Byte)) (x : Byte) : Byte := (rows.getD (x.toNat / 16) []).getD (x.toNat % 16) 0

end Sys2Proof.Machine
end

