-- ==== Sys2Proof/Machine/Crc32.lean ====
section
/-! DEFINITION. The CRC-32 engines (49_crc32.md R177 to R181). -/

namespace Sys2Proof.Machine

/-- One bit of the reflected CRC: shift right, and add 0xEDB88320 when the bit shifted out is 1 (R178). -/
def crc32Bit (crc : BitVec 32) : BitVec 32 := if crc.getLsbD 0 then crc >>> 1 ^^^ 0xEDB88320 else crc >>> 1

/-- `Crc32Step(crc, x)` (R178). -/
def crc32Step (crc : BitVec 32) (x : Byte) : BitVec 32 :=
  (List.range 8).foldl (fun c _ => crc32Bit c) (crc ^^^ x.setWidth 32)

/-- One bit of the MSB-first CRC: shift left, and add 0x04C11DB7 when the bit shifted out is 1 (R180). -/
def cksumBit (crc : BitVec 32) : BitVec 32 := if crc.getLsbD 31 then crc <<< 1 ^^^ 0x04C11DB7 else crc <<< 1

/-- `CksumStep(crc, x)` (R180). -/
def cksumStep (crc : BitVec 32) (x : Byte) : BitVec 32 :=
  (List.range 8).foldl (fun c _ => cksumBit c) (crc ^^^ x.setWidth 32 <<< 24)

/-- The byte count n fed to the CKSUM register, least significant byte first, as many bytes as it needs (R181). A
count below 2^(8·fuel) is fed whole. -/
def cksumCount : Nat → Nat → BitVec 32 → BitVec 32
  | 0, _, c => c
  | fuel + 1, n, c => if n = 0 then c else cksumCount fuel (n / 256) (cksumStep c (BitVec.ofNat 8 (n % 256)))

end Sys2Proof.Machine
end

