-- ==== Sys2Proof/Syntax.lean ====
section
/-! DEFINITION. The commands of the HDE, one constructor per row of spec/opcode_table.json (30_encoding.md R74), with
their operands as 40_commands.md R86 to R91 give them. -/

namespace Sys2Proof

/-- A legal command. Illegal command words (R75) are no constructor: the decoder rejects them by name. -/
inductive Instr
  /-- INIT alg, dlen (R86). -/
  | init (alg : BitVec 8) (dlen : BitVec 16)
  /-- UPDATE with its 64-bit BITLEN and its payload bytes (R87). -/
  | update (bitlen : BitVec 64) (payload : Bytes)
  /-- FINAL (R88). -/
  | final
  /-- DROP (R89). -/
  | drop
  /-- QDLEN alg, dlen (R90). -/
  | qdlen (alg : BitVec 8) (dlen : BitVec 16)
  /-- QBLK alg, dlen (R91). -/
  | qblk (alg : BitVec 8) (dlen : BitVec 16)
  deriving DecidableEq, Repr

end Sys2Proof
end

