-- ==== Sys2Proof/WellFormed.lean ====
section
/-! DEFINITION. Which terms of `Instr` are commands. One check: an UPDATE carries exactly `ceil(BITLEN/8)` payload
bytes (20_memory.md R46). Every other operand is legal at every value its field can hold (30_encoding.md R72: the
registry answers the illegal ones with a status). -/

namespace Sys2Proof

/-- `ceil(bitlen/8)`: how many payload bytes a bit length implies (R45, R46). -/
def payloadBytes (bitlen : BitVec 64) : Nat := (bitlen.toNat + 7) / 8

/-- The record of the command is one the engine can receive (R46, R70). -/
def Instr.wf : Instr → Bool
  | .init _ _ => true
  | .update bitlen payload => payload.length == payloadBytes bitlen
  | .final => true
  | .drop => true
  | .qdlen _ _ => true
  | .qblk _ _ => true

end Sys2Proof
end

