-- ==== Sys2Proof/Decode.lean ====
section
/-! DEFINITION. Command words, records and their framing (30_encoding.md R63 to R75): the fields of a command word,
the packing of bytes in words, the record form, the decoder (total, rejecting by name), and after it the encoder,
written from the same tables. -/

namespace Sys2Proof

/-! ## The command word (R64) -/

/-- OPC, bits [31:24]. -/
def opcField (hdr : Word) : BitVec 8 := hdr.extractLsb' 24 8

/-- ALG, bits [23:16]. -/
def algField (hdr : Word) : BitVec 8 := hdr.extractLsb' 16 8

/-- DLEN, bits [15:0]. -/
def dlenField (hdr : Word) : BitVec 16 := hdr.extractLsb' 0 16

/-- Bits [23:0], reserved in UPDATE, FINAL and DROP. -/
def reservedField (hdr : Word) : BitVec 24 := hdr.extractLsb' 0 24

/-- A command word from its three fields. -/
def commandWord (opc : BitVec 8) (alg : BitVec 8) (dlen : BitVec 16) : Word :=
  BitVec.ofNat 32 (2 ^ 24 * opc.toNat + 2 ^ 16 * alg.toNat + dlen.toNat)

/-- BITLEN from the length words: `zext_64(LO) + 2^32 * zext_64(HI)` (R65). -/
def bitlenOf (lo hi : Word) : BitVec 64 := BitVec.ofNat 64 (lo.toNat + 2 ^ 32 * hi.toNat)

/-- LO, bits [31:0] of BITLEN (R66). -/
def loWord (bitlen : BitVec 64) : Word := bitlen.extractLsb' 0 32

/-- HI, bits [63:32] of BITLEN (R66). -/
def hiWord (bitlen : BitVec 64) : Word := bitlen.extractLsb' 32 32

/-! ## Bytes in words, little-endian (20_memory.md R49) -/

/-- The four bytes of a channel word, byte j in bits [8j+7:8j] (R49, R69). -/
def unpackWord (x : Word) : Bytes :=
  [x.extractLsb' 0 8, x.extractLsb' 8 8, x.extractLsb' 16 8, x.extractLsb' 24 8]

/-- The channel word of four bytes: `b0 + 2^8 b1 + 2^16 b2 + 2^24 b3` (R49, R79). -/
def packWord (b0 b1 b2 b3 : Byte) : Word :=
  BitVec.ofNat 32 (b0.toNat + 2 ^ 8 * b1.toNat + 2 ^ 16 * b2.toNat + 2 ^ 24 * b3.toNat)

/-- The words of a byte string, the last one padded with zero bytes in its high positions (R49). -/
def packWords : Bytes → List Word
  | [] => []
  | [a] => [packWord a 0 0 0]
  | [a, b] => [packWord a b 0 0]
  | [a, b, c] => [packWord a b c 0]
  | a :: b :: c :: d :: rest => packWord a b c d :: packWords rest

/-- The byte string of a word stream. -/
def unpackWords (xs : List Word) : Bytes := xs.flatMap unpackWord

/-- `ceil(ceil(BITLEN/8)/4)`: the number of payload words of an UPDATE (R66). -/
def payloadWords (bitlen : BitVec 64) : Nat := (payloadBytes bitlen + 3) / 4

/-! ## Records (R70) -/

/-- The record `command(hdr, bitlen, payload)` that the wire decoder delivers (R69, R70). -/
structure Command where
  hdr : Word
  bitlen : BitVec 64
  payload : Bytes
  deriving DecidableEq, Repr

/-- R70: bitlen and payload are 0 and empty unless OPC is UPDATE's, and then the payload has `ceil(bitlen/8)`
bytes. -/
def Command.wf (c : Command) : Bool :=
  if opcField c.hdr = 2 then c.payload.length == payloadBytes c.bitlen
  else c.bitlen == 0 && c.payload == []

/-- The words of a record on the wire (R66, R68). -/
def Command.words (c : Command) : List Word :=
  if opcField c.hdr = 2 then c.hdr :: loWord c.bitlen :: hiWord c.bitlen :: packWords c.payload
  else [c.hdr]

/-! ## The decoder -/

/-- Why a word sequence is no command. -/
inductive DecodeError
  /-- OPC is 0x00 or 0x07 to 0xFF (R75): the engine answers IllegalCommand. -/
  | reservedOpcode (opc : BitVec 8)
  /-- OPC is UPDATE, FINAL or DROP and bits [23:0] are not all 0 (R75): the engine answers IllegalCommand. -/
  | reservedBits (opc : BitVec 8)
  /-- The words end before the command does (R206): the engine waits for more. -/
  | incomplete
  deriving DecidableEq, Repr

/-- What a record is (40_commands.md R83, first matching line). -/
def decodeCommand (c : Command) : Except DecodeError Instr :=
  let opc := opcField c.hdr
  if opc = 1 then .ok (.init (algField c.hdr) (dlenField c.hdr))
  else if opc = 2 then
    if reservedField c.hdr ≠ 0 then .error (.reservedBits opc) else .ok (.update c.bitlen c.payload)
  else if opc = 3 then
    if reservedField c.hdr ≠ 0 then .error (.reservedBits opc) else .ok .final
  else if opc = 4 then
    if reservedField c.hdr ≠ 0 then .error (.reservedBits opc) else .ok .drop
  else if opc = 5 then .ok (.qdlen (algField c.hdr) (dlenField c.hdr))
  else if opc = 6 then .ok (.qblk (algField c.hdr) (dlenField c.hdr))
  else .error (.reservedOpcode opc)

/-- The first record of a word sequence, and the words after it (R66, R68): UPDATE is framed by its BITLEN whatever
its bits [23:0], and every other command is one word. -/
def frame : List Word → Except DecodeError (Command × List Word)
  | [] => .error .incomplete
  | hdr :: rest =>
    if opcField hdr = 2 then
      match rest with
      | lo :: hi :: ps =>
        let bitlen := bitlenOf lo hi
        if ps.length < payloadWords bitlen then .error .incomplete
        else .ok (⟨hdr, bitlen, (unpackWords (ps.take (payloadWords bitlen))).take (payloadBytes bitlen)⟩,
          ps.drop (payloadWords bitlen))
      | _ => .error .incomplete
    else .ok (⟨hdr, 0, []⟩, rest)

/-- The first command of a word sequence, and the words after it. -/
def decodeWords (xs : List Word) : Except DecodeError (Instr × List Word) :=
  match frame xs with
  | .error e => .error e
  | .ok (c, rest) =>
    match decodeCommand c with
    | .error e => .error e
    | .ok i => .ok (i, rest)

/-! ## The encoder -/

/-- The record of a command (R74). -/
def Instr.toCommand : Instr → Command
  | .init alg dlen => ⟨commandWord 0x01 alg dlen, 0, []⟩
  | .update bitlen payload => ⟨commandWord 0x02 0 0, bitlen, payload⟩
  | .final => ⟨commandWord 0x03 0 0, 0, []⟩
  | .drop => ⟨commandWord 0x04 0 0, 0, []⟩
  | .qdlen alg dlen => ⟨commandWord 0x05 alg dlen, 0, []⟩
  | .qblk alg dlen => ⟨commandWord 0x06 alg dlen, 0, []⟩

/-- The words of a command on the wire. -/
def encode (i : Instr) : List Word := i.toCommand.words

/-! ## The opcode table's numbering -/

/-- Word k of an instruction whose bits are w: bit 0 of w is bit 0 of the first word, and a later word's bits count on
from it (log 23). -/
def tableWord (w k : Nat) : Word := BitVec.ofNat 32 (w / 2 ^ (32 * k))

/-- The words of the instruction whose lowest nbits bits are w's and whose bits above them are 0: as many words as
nbits fills, and as many more as the command's own framing needs. -/
def tableWords (nbits w : Nat) : List Word :=
  let w := w % 2 ^ nbits
  let need :=
    if opcField (tableWord w 0) = 2 then 3 + payloadWords (bitlenOf (tableWord w 1) (tableWord w 2)) else 1
  (List.range (max need ((nbits + 31) / 32))).map (tableWord w)

/-- The instruction the decoder reads from an instruction numbered as spec/opcode_table.json numbers it. Words that
are no single command give none. -/
def decodeTableWord (nbits w : Nat) : Option Instr :=
  match decodeWords (tableWords nbits w) with
  | .ok (i, []) => some i
  | _ => none

end Sys2Proof
end

