-- ==== Sys2Proof/Machine/Operands.lean ====
section
/-! DEFINITION. The operand forms of UPDATE (20_memory.md R45, R48; 40_commands.md R87): whole bytes and the terminal
partial byte. The operands of INIT, QDLEN and QBLK are the fields of the command word, unsigned (30_encoding.md R65),
which the decoder has already read. -/

namespace Sys2Proof.Machine

/-- `PayloadByte(i)` (R45). No rule reads past the payload. -/
def payloadByte (payload : Bytes) (i : Nat) : Byte := payload.getD i 0

/-- `t = BITLEN mod 8`: the valid bits of the partial byte, 0 when there is none (R87). -/
def tailBits (bitlen : BitVec 64) : Nat := bitlen.toNat % 8

/-- `nfull = BITLEN div 8`: the whole bytes (R87). -/
def wholeBytes (bitlen : BitVec 64) : Nat := bitlen.toNat / 8

/-- `(0xFF << (8 - t)) & 0xFF`: the t most significant bits (R48). -/
def tailMask (t : Nat) : Byte := (0xFF : Byte) <<< (8 - t)

/-- The partial byte as it is stored: its t valid bits, the rest 0 (R48, R87). -/
def partialByte (bitlen : BitVec 64) (payload : Bytes) : Byte :=
  payloadByte payload (wholeBytes bitlen) &&& tailMask (tailBits bitlen)

end Sys2Proof.Machine
end

