-- ==== Sys2Proof/Machine/Flags.lean ====
section
/-! DEFINITION. What a command reports: the status codes (60_exceptions.md R183) and the response word (30_encoding.md
R77 to R79). HDE has no flag register (COVERAGE B3): the status of a response takes its place. -/

namespace Sys2Proof.Machine

/-- The status codes (R183). AllocationFailure is never raised (R185) and keeps its name and code. -/
inductive Status
  | ok | unsupportedAlgorithm | badHashLength | nonByteAlignedMidStream | alreadyFinalized | allocationFailure
  | noContext | illegalCommand
  deriving DecidableEq, Repr

/-- The code of a status (R183). -/
def statusCode : Status → BitVec 8
  | .ok => 0
  | .unsupportedAlgorithm => 1
  | .badHashLength => 2
  | .nonByteAlignedMidStream => 3
  | .alreadyFinalized => 4
  | .allocationFailure => 5
  | .noContext => 6
  | .illegalCommand => 7

/-- The response word `zext_32(status) + 2^16 * value`: STATUS in [7:0], 0 in [15:8], VALUE in [31:16] (R77). -/
def responseWord (status : Status) (value : BitVec 16) : Word :=
  BitVec.ofNat 32 ((statusCode status).toNat + 2 ^ 16 * value.toNat)

/-- STATUS of a response word. -/
def statusField (x : Word) : BitVec 8 := x.extractLsb' 0 8

/-- VALUE of a response word. -/
def valueField (x : Word) : BitVec 16 := x.extractLsb' 16 16

/-- The words that `Respond(status, value, bytes)` emits: the response word, then the data words (R77, R79). -/
def respondWords (status : Status) (value : BitVec 16) (data : Bytes) : List Word :=
  responseWord status value :: packWords data

end Sys2Proof.Machine
end

