-- ==== Sys2Proof/Config.lean ====
section
/-! DEFINITION. The parameters of 00_scope.md R13 and the algorithm families they range over (30_encoding.md R71). No
command writes a parameter (10_state.md R38). Every value of `Config` with at least one engine is a legal
configuration: a set of partial-bit families other than the two that R97 admits, and a supported algorithm other than
the nine of R71, cannot be written down (log 1, log 19). -/

namespace Sys2Proof

/-- The algorithm families (R71, R92). -/
inductive Family
  | blake | groestl | rmd320 | whirlpool | jh | lsh256 | lsh512 | crc32 | cksum
  deriving DecidableEq, Repr

/-- The legal values of `PARTIAL_BIT_FAMILIES` (R97): the empty set, or Groestl alone. -/
inductive PartialBitFamilies
  | none
  | groestlOnly
  deriving DecidableEq, Repr

/-- The parameters a model takes (R13). -/
structure Config where
  /-- `N_ENGINES`, an integer of at least 1, left open by the spec. -/
  nEngines : Nat
  /-- `PARTIAL_BIT_FAMILIES`. -/
  partialBitFamilies : PartialBitFamilies
  /-- `ALG_SUPPORTED`, as the families whose code the engine answers. -/
  algSupported : List Family
  deriving DecidableEq, Repr

/-- All nine families, in the order of their codes (R71). -/
def Family.all : List Family :=
  [.blake, .groestl, .rmd320, .whirlpool, .jh, .lsh256, .lsh512, .crc32, .cksum]

/-- R13's defaults. DESIGN CHOICE (log 1): R13 leaves `N_ENGINES` open, and the default here is 2. -/
def Config.default : Config where
  nEngines := 2
  partialBitFamilies := .groestlOnly
  algSupported := Family.all

end Sys2Proof
end

