-- ==== Sys2Proof/Machine/State.lean ====
section
/-! DEFINITION. The state of the HDE (10_state.md), the reasons a step can stop, and the state after reset (R41).
Plain data: no field is a function. Field names are the spec's. The fields that are the model's own are `resp`, `cfg`,
`input` and `port` (logs 1 to 4). -/

namespace Sys2Proof.Machine

/-- `ctx.state` (R26). -/
inductive CtxState
  | idle | active | tail | finalized
  deriving DecidableEq, Repr

/-- The encoding of `ctx.state` in its 2 bits (R26). -/
def CtxState.code : CtxState → BitVec 2
  | .idle => 0
  | .active => 1
  | .tail => 2
  | .finalized => 3

/-- The storage of the chaining state, SMAX = 128 bytes (R14, R35). Its layout is the model's (log 6). -/
abbrev Chain := Vector Byte 128

/-- The context of one engine (R26 to R35). -/
structure Ctx where
  state : CtxState
  alg : BitVec 8
  dlen : BitVec 16
  msgBits : BitVec 256
  blockCount : BitVec 256
  buf : Vector Byte 256
  bufLen : BitVec 9
  partialBits : BitVec 3
  nullt : Bool
  chain : Chain
  deriving DecidableEq, Repr

/-- `rx.phase` (R37). -/
inductive Phase
  | hdr | lenLo | lenHi | payload
  deriving DecidableEq, Repr

/-- The command-channel decoder of one engine (R37). -/
structure Rx where
  phase : Phase
  hdr : Word
  lo : Word
  bitlen : BitVec 64
  data : Bytes
  deriving DecidableEq, Repr

/-- One engine: its context, its decoder, and the words it has emitted on its response port, oldest first (R42, R77,
log 4). -/
structure Engine where
  ctx : Ctx
  rx : Rx
  resp : List Word
  deriving DecidableEq, Repr

/-- What the host can do to the engines (20_memory.md R62, 70_reset_and_hazards.md R199). -/
inductive HostEvent
  /-- A word on the command port of engine e. -/
  | word (e : Nat) (x : Word)
  /-- The reset signal applied to engine e. -/
  | reset (e : Nat)
  /-- The reset signal applied to all engines together. -/
  | resetAll
  deriving DecidableEq, Repr

/-- The machine. -/
structure State where
  /-- The parameters of R13, which no step writes (R38, log 1). -/
  cfg : Config
  /-- The engines, engine e at index e (R23, R196). -/
  engines : List Engine
  /-- The engine whose command is being executed (log 3). -/
  port : Nat
  /-- What the host has sent and no step has taken yet, oldest first (log 2). -/
  input : List HostEvent
  deriving DecidableEq, Repr

/-- The model fault (60_exceptions.md R186). -/
inductive Fault
  /-- Raised by an UPDATE that would otherwise succeed and would pass the family's length limit (R87, R98). Safe: the
  run ends there with no response, as R186 says. -/
  | lengthLimit
  deriving DecidableEq, Repr

/-- Why a step has no transition. -/
inductive Refusal
  /-- Raised by an arm of `exec` that has no meaning yet. Safe. -/
  | notModelled (mnemonic : String)
  /-- Raised by an UPDATE record whose payload is not `ceil(BITLEN/8)` bytes, which is not a command (R46, I4). The
  wire decoder never delivers one. Safe. -/
  | payloadLength
  /-- Raised by an event or a command for an engine number outside 0 .. N_ENGINES-1, which has no port (R196). Safe. -/
  | noSuchEngine (e : Nat)
  /-- Raised by UPDATE and FINAL in a live context whose algorithm code and digest length are not the registry's,
  where Family and Params are undefined (R92, R94). No run from reset reaches it. Safe. -/
  | noVariant (alg : BitVec 8) (dlen : BitVec 16)
  deriving DecidableEq, Repr

/-- Every context field at its reset value (R41). -/
def Ctx.reset : Ctx where
  state := .idle
  alg := 0
  dlen := 0
  msgBits := 0
  blockCount := 0
  buf := Vector.replicate 256 0
  bufLen := 0
  partialBits := 0
  nullt := false
  chain := Vector.replicate 128 0

/-- The decoder at its reset values (R41). -/
def Rx.reset : Rx where
  phase := .hdr
  hdr := 0
  lo := 0
  bitlen := 0
  data := []

/-- An engine after power-up: reset, with nothing emitted (R41, log 4). -/
def Engine.reset : Engine where
  ctx := Ctx.reset
  rx := Rx.reset
  resp := []

/-- The machine after power-up under the parameters cfg: every engine reset (R41, R199), no host event pending. -/
def State.resetWith (cfg : Config) : State where
  cfg := cfg
  engines := List.replicate cfg.nEngines Engine.reset
  port := 0
  input := []

/-- The machine right after reset, at the default parameters (R13, R41, log 1). -/
def State.reset : State := State.resetWith Config.default

end Sys2Proof.Machine
end

