-- ==== Sys2Proof/Machine/Ops.lean ====
section
/-! DEFINITION. The shared operations on engines: zeroisation (42_pipeline.md R109), the response (30_encoding.md R77),
the error response, reset (70_reset_and_hazards.md R199), access to the chaining storage (10_state.md R35), and running
a command on the engine whose port it came in on (R23, R24).

HDE takes no trap: there is no saved pc, vector or handler, and no return (60_exceptions.md R190, R191). Its one way to
report an exceptional condition is the error response, `Engine.replyError`, which every failing command shares. -/

namespace Sys2Proof.Machine

/-- The chaining storage that opens with the given bytes, the rest 0 (log 6). -/
def Chain.ofBytes (s : Bytes) : Chain := ⟨⟨(s ++ List.replicate 128 0).take 128⟩, by simp⟩

/-- The first n bytes of the chaining storage. -/
def Chain.bytes (c : Chain) (n : Nat) : Bytes := c.toList.take n

/-- `Zeroise()`: every context field but `ctx.state` (R109). -/
def zeroise (c : Ctx) : Ctx := { Ctx.reset with state := c.state }

/-- `Respond(status, value, bytes)` (R77). -/
def Engine.respond (e : Engine) (status : Status) (value : BitVec 16) (data : Bytes) : Engine :=
  { e with resp := e.resp ++ respondWords status value data }

/-- The error response: VALUE 0, no data words, and no context field written (40_commands.md R84, R184). -/
def Engine.replyError (e : Engine) (status : Status) : Engine := e.respond status 0 []

/-- The reset signal on one engine: IDLE, zeroised, decoder cleared, no response (R199). -/
def Engine.applyReset (e : Engine) : Engine :=
  { e with ctx := { zeroise e.ctx with state := .idle }, rx := Rx.reset }

/-- The machine with engine e replaced. -/
def State.setEngine (s : State) (e : Nat) (eng : Engine) : State := { s with engines := s.engines.set e eng }

/-- A command on the engine of the port: it reads and writes that engine alone (R24). -/
def onEngine (s : State) (f : Engine → Host.Outcome Engine Fault Refusal) : Host.Outcome State Fault Refusal :=
  match s.engines[s.port]? with
  | none => .refused (.noSuchEngine s.port)
  | some eng =>
    match f eng with
    | .next eng' => .next (s.setEngine s.port eng')
    | .fault r => .fault r
    | .refused r => .refused r

end Sys2Proof.Machine
end

