-- ==== Sys2Proof/Machine/Blake.lean ====
section
/-! DEFINITION. The BLAKE core (43_blake.md R113 to R121, R123), one transform over the word width, and the BLAKE
padding blocks (R122). -/

namespace Sys2Proof.Machine

/-- The parameters of a BLAKE core of word width w (R113). -/
structure BlakeCore (w : Nat) where
  rounds : Nat
  /-- The four rotations ρ1 to ρ4, to the right. -/
  rot : Nat × Nat × Nat × Nat
  /-- The constants c[0..15] (R114). -/
  c : List (BitVec w)
  /-- The salt s[0..3], 0 in this engine (R113, D18). -/
  salt : List (BitVec w)

/-- R114, BLAKE-32. -/
def blakeC32 : List (BitVec 32) :=
  [0x243F6A88, 0x85A308D3, 0x13198A2E, 0x03707344,
   0xA4093822, 0x299F31D0, 0x082EFA98, 0xEC4E6C89,
   0x452821E6, 0x38D01377, 0xBE5466CF, 0x34E90C6C,
   0xC0AC29B7, 0xC97C50DD, 0x3F84D5B5, 0xB5470917]

/-- R114, BLAKE-64. -/
def blakeC64 : List (BitVec 64) :=
  [0x243F6A8885A308D3, 0x13198A2E03707344, 0xA4093822299F31D0, 0x082EFA98EC4E6C89,
   0x452821E638D01377, 0xBE5466CF34E90C6C, 0xC0AC29B7C97C50DD, 0x3F84D5B5B5470917,
   0x9216D5D98979FB1B, 0xD1310BA698DFB5AC, 0x2FFD72DBD01ADFB7, 0xB8E1AFED6A267E96,
   0xBA7C9045F12C7F99, 0x24A19947B3916CF7, 0x0801F2E2858EFC16, 0x636920D871574E69]

/-- BLAKE-32, for BLAKE-224 and BLAKE-256 (R113). -/
def blake32 : BlakeCore 32 := ⟨14, (16, 12, 8, 7), blakeC32, [0, 0, 0, 0]⟩

/-- BLAKE-64, for BLAKE-384 and BLAKE-512 (R113). -/
def blake64 : BlakeCore 64 := ⟨16, (32, 25, 16, 11), blakeC64, [0, 0, 0, 0]⟩

/-- The message permutations σ_0 to σ_9 (R115). -/
def blakeSigmaRows : List (List Nat) :=
  [[0, 1, 2, 3, 4, 5, 6, 7, 8, 9, 10, 11, 12, 13, 14, 15],
   [14, 10, 4, 8, 9, 15, 13, 6, 1, 12, 0, 2, 11, 7, 5, 3],
   [11, 8, 12, 0, 5, 2, 15, 13, 10, 14, 3, 6, 7, 1, 9, 4],
   [7, 9, 3, 1, 13, 12, 11, 14, 2, 6, 5, 10, 4, 0, 15, 8],
   [9, 0, 5, 7, 2, 4, 10, 15, 14, 1, 11, 12, 6, 8, 3, 13],
   [2, 12, 6, 10, 0, 11, 8, 3, 4, 13, 7, 5, 15, 14, 1, 9],
   [12, 5, 1, 15, 14, 13, 4, 10, 0, 7, 6, 3, 9, 2, 8, 11],
   [13, 11, 7, 14, 12, 1, 3, 9, 5, 0, 15, 4, 8, 6, 2, 10],
   [6, 15, 14, 9, 11, 3, 0, 8, 12, 2, 13, 7, 1, 4, 10, 5],
   [10, 2, 8, 4, 7, 6, 1, 5, 15, 11, 9, 14, 3, 12, 13, 0]]

/-- `σ_(r mod 10)[i]` (R115). -/
def blakeSigma (r i : Nat) : Nat := (blakeSigmaRows.getD (r % 10) []).getD i 0

/-- `IV(BLAKE, n)` for n at most 256 (R116). -/
def blakeIV32 (n : Nat) : List (BitVec 32) :=
  if n ≤ 224 then
    [0xC1059ED8, 0x367CD507, 0x3070DD17, 0xF70E5939,
     0xFFC00B31, 0x68581511, 0x64F98FA7, 0xBEFA4FA4]
  else
    [0x6A09E667, 0xBB67AE85, 0x3C6EF372, 0xA54FF53A,
     0x510E527F, 0x9B05688C, 0x1F83D9AB, 0x5BE0CD19]

/-- `IV(BLAKE, n)` for n above 256 (R116). -/
def blakeIV64 (n : Nat) : List (BitVec 64) :=
  if n ≤ 384 then
    [0xCBBB9D5DC1059ED8, 0x629A292A367CD507, 0x9159015A3070DD17, 0x152FECD8F70E5939,
     0x67332667FFC00B31, 0x8EB44A8768581511, 0xDB0C2E0D64F98FA7, 0x47B5481DBEFA4FA4]
  else
    [0x6A09E667F3BCC908, 0xBB67AE8584CAA73B, 0x3C6EF372FE94F82B, 0xA54FF53A5F1D36F1,
     0x510E527FADE682D1, 0x9B05688C2B3E6C1F, 0x1F83D9ABFB41BD6B, 0x5BE0CD19137E2179]

/-- `G_(r,i)(a, b, c, d)` on the working vector v (R118), line by line. -/
def blakeG {w : Nat} (k : BlakeCore w) (m : List (BitVec w)) (r : Nat) (v : List (BitVec w))
    (i a b c d : Nat) : List (BitVec w) :=
  let p := blakeSigma r (2 * i)
  let q := blakeSigma r (2 * i + 1)
  let v := v.set a (nth v a + nth v b + (nth m p ^^^ nth k.c q))
  let v := v.set d (rotr (nth v d ^^^ nth v a) k.rot.1)
  let v := v.set c (nth v c + nth v d)
  let v := v.set b (rotr (nth v b ^^^ nth v c) k.rot.2.1)
  let v := v.set a (nth v a + nth v b + (nth m q ^^^ nth k.c p))
  let v := v.set d (rotr (nth v d ^^^ nth v a) k.rot.2.2.1)
  let v := v.set c (nth v c + nth v d)
  v.set b (rotr (nth v b ^^^ nth v c) k.rot.2.2.2)

/-- Round r: four column steps, then four diagonal steps (R119). -/
def blakeRound {w : Nat} (k : BlakeCore w) (m : List (BitVec w)) (v : List (BitVec w)) (r : Nat) :
    List (BitVec w) :=
  let v := blakeG k m r v 0 0 4 8 12
  let v := blakeG k m r v 1 1 5 9 13
  let v := blakeG k m r v 2 2 6 10 14
  let v := blakeG k m r v 3 3 7 11 15
  let v := blakeG k m r v 4 0 5 10 15
  let v := blakeG k m r v 5 1 6 11 12
  let v := blakeG k m r v 6 2 7 8 13
  blakeG k m r v 7 3 4 9 14

/-- The working vector before round 0 (R120). -/
def blakeStart {w : Nat} (k : BlakeCore w) (h : List (BitVec w)) (t : Nat) (nullt : Bool) : List (BitVec w) :=
  let t0 := BitVec.ofNat w (t % 2 ^ w)
  let t1 := BitVec.ofNat w (t / 2 ^ w)
  (List.range 8).map (nth h) ++
    (List.range 4).map (fun i => nth k.salt i ^^^ nth k.c i) ++
    (if nullt then [nth k.c 4, nth k.c 5, nth k.c 6, nth k.c 7]
     else [t0 ^^^ nth k.c 4, t0 ^^^ nth k.c 5, t1 ^^^ nth k.c 6, t1 ^^^ nth k.c 7])

/-- `BlakeCompress(h, block, t, nullt)` (R117, R120). -/
def blakeCompress {w : Nat} (k : BlakeCore w) (h : List (BitVec w)) (block : Bytes) (t : Nat) (nullt : Bool) :
    List (BitVec w) :=
  let m := wordsBE w block 16
  let v := (List.range k.rounds).foldl (blakeRound k m) (blakeStart k h t nullt)
  (List.range 8).map fun i => nth h i ^^^ nth k.salt (i % 4) ^^^ nth v i ^^^ nth v (i + 8)

/-- The bit pb ORed into byte B-L-1 of the last block (R113). -/
def blakePb (n : Nat) : Byte := if n = 256 ∨ n = 512 then 0x01 else 0x00

/-- The final blocks of a message of N bits with the buffered bytes m, each with its counter and its nullt argument
(R122): B the block size, L the bytes of the length field, n the digest length. -/
def blakeFinalBlocks (B L n N : Nat) (m : Bytes) : List (Bytes × Nat × Bool) :=
  let k := m.length
  let orPb (x : Bytes) : Bytes := x.set (B - L - 1) (x.getD (B - L - 1) 0 ||| blakePb n)
  if k ≤ B - L - 1 then
    let block := orPb (m ++ [0x80] ++ zeros (B - L - k - 1)) ++ encBE N L
    if k = 0 then [(block, 0, true)] else [(block, N, false)]
  else
    [(m ++ [0x80] ++ zeros (B - k - 1), N, false), (orPb (zeros (B - L)) ++ encBE N L, 0, true)]

end Sys2Proof.Machine
end

