-- ==== Sys2Proof/Machine/Groestl.lean ====
section
/-! DEFINITION. The Groestl core (44_groestl.md R125 to R132, R134) and the Groestl padding blocks (R133). A matrix of
8 rows and c columns is its byte string, column by column: `A[i][j] = x[8j + i]` (R125). -/

namespace Sys2Proof.Machine

/-- `a • b`, modulo 0x11B (R126). -/
def groestlMul (a b : Byte) : Byte := fieldMul 0x11B a b

/-- The S-box table (R127). -/
def groestlSRows : List (List Byte) :=
  [[0x63, 0x7c, 0x77, 0x7b, 0xf2, 0x6b, 0x6f, 0xc5, 0x30, 0x01, 0x67, 0x2b, 0xfe, 0xd7, 0xab, 0x76],
   [0xca, 0x82, 0xc9, 0x7d, 0xfa, 0x59, 0x47, 0xf0, 0xad, 0xd4, 0xa2, 0xaf, 0x9c, 0xa4, 0x72, 0xc0],
   [0xb7, 0xfd, 0x93, 0x26, 0x36, 0x3f, 0xf7, 0xcc, 0x34, 0xa5, 0xe5, 0xf1, 0x71, 0xd8, 0x31, 0x15],
   [0x04, 0xc7, 0x23, 0xc3, 0x18, 0x96, 0x05, 0x9a, 0x07, 0x12, 0x80, 0xe2, 0xeb, 0x27, 0xb2, 0x75],
   [0x09, 0x83, 0x2c, 0x1a, 0x1b, 0x6e, 0x5a, 0xa0, 0x52, 0x3b, 0xd6, 0xb3, 0x29, 0xe3, 0x2f, 0x84],
   [0x53, 0xd1, 0x00, 0xed, 0x20, 0xfc, 0xb1, 0x5b, 0x6a, 0xcb, 0xbe, 0x39, 0x4a, 0x4c, 0x58, 0xcf],
   [0xd0, 0xef, 0xaa, 0xfb, 0x43, 0x4d, 0x33, 0x85, 0x45, 0xf9, 0x02, 0x7f, 0x50, 0x3c, 0x9f, 0xa8],
   [0x51, 0xa3, 0x40, 0x8f, 0x92, 0x9d, 0x38, 0xf5, 0xbc, 0xb6, 0xda, 0x21, 0x10, 0xff, 0xf3, 0xd2],
   [0xcd, 0x0c, 0x13, 0xec, 0x5f, 0x97, 0x44, 0x17, 0xc4, 0xa7, 0x7e, 0x3d, 0x64, 0x5d, 0x19, 0x73],
   [0x60, 0x81, 0x4f, 0xdc, 0x22, 0x2a, 0x90, 0x88, 0x46, 0xee, 0xb8, 0x14, 0xde, 0x5e, 0x0b, 0xdb],
   [0xe0, 0x32, 0x3a, 0x0a, 0x49, 0x06, 0x24, 0x5c, 0xc2, 0xd3, 0xac, 0x62, 0x91, 0x95, 0xe4, 0x79],
   [0xe7, 0xc8, 0x37, 0x6d, 0x8d, 0xd5, 0x4e, 0xa9, 0x6c, 0x56, 0xf4, 0xea, 0x65, 0x7a, 0xae, 0x08],
   [0xba, 0x78, 0x25, 0x2e, 0x1c, 0xa6, 0xb4, 0xc6, 0xe8, 0xdd, 0x74, 0x1f, 0x4b, 0xbd, 0x8b, 0x8a],
   [0x70, 0x3e, 0xb5, 0x66, 0x48, 0x03, 0xf6, 0x0e, 0x61, 0x35, 0x57, 0xb9, 0x86, 0xc1, 0x1d, 0x9e],
   [0xe1, 0xf8, 0x98, 0x11, 0x69, 0xd9, 0x8e, 0x94, 0x9b, 0x1e, 0x87, 0xe9, 0xce, 0x55, 0x28, 0xdf],
   [0x8c, 0xa1, 0x89, 0x0d, 0xbf, 0xe6, 0x42, 0x68, 0x41, 0x99, 0x2d, 0x0f, 0xb0, 0x54, 0xbb, 0x16]]

/-- `S(x)` (R127). -/
def groestlS (x : Byte) : Byte := boxAt groestlSRows x

/-- The columns c of the variant of digest length n (R125). -/
def groestlColumns (n : Nat) : Nat := if n ≤ 256 then 8 else 16

/-- The rounds of a variant of c columns (R128). -/
def groestlRounds (c : Nat) : Nat := if c = 8 then 10 else 14

/-- The shift vector of P (q false) or of Q (q true) on c columns (R128). -/
def groestlShifts (q : Bool) (c : Nat) : List Nat :=
  match q, decide (c = 8) with
  | false, true => [0, 1, 2, 3, 4, 5, 6, 7]
  | true, true => [1, 3, 5, 7, 0, 2, 4, 6]
  | false, false => [0, 1, 2, 3, 4, 5, 6, 11]
  | true, false => [1, 3, 5, 11, 0, 2, 4, 6]

/-- AddRoundConstant of round r (R129, step 1). -/
def groestlAddConstant (q : Bool) (r : Nat) (x : Bytes) : Bytes :=
  x.mapIdx fun p b =>
    let rc := BitVec.ofNat 8 (p / 8) <<< 4 ^^^ BitVec.ofNat 8 r
    if q then (if p % 8 = 7 then b ^^^ 0xFF ^^^ rc else b ^^^ 0xFF)
    else (if p % 8 = 0 then b ^^^ rc else b)

/-- ShiftBytes: `A'[i][j] = A[i][(j + σ[i]) mod c]` (R129, step 3). -/
def groestlShift (q : Bool) (c : Nat) (x : Bytes) : Bytes :=
  (List.range (8 * c)).map fun p =>
    nth x (8 * ((p / 8 + (groestlShifts q c).getD (p % 8) 0) % c) + p % 8)

/-- The first row b of the MixBytes matrix (R129, step 4). -/
def groestlMixRow : Bytes := [0x02, 0x02, 0x03, 0x04, 0x05, 0x03, 0x05, 0x07]

/-- MixBytes: `A'[i][j] = ⊕_k b[(k - i) mod 8] • A[k][j]` (R129, step 4). -/
def groestlMix (c : Nat) (x : Bytes) : Bytes :=
  (List.range (8 * c)).map fun p =>
    (List.range 8).foldl
      (fun acc k => acc ^^^ groestlMul (nth groestlMixRow ((k + 8 - p % 8) % 8)) (nth x (8 * (p / 8) + k))) 0

/-- Round r of P or of Q (R129). -/
def groestlRound (q : Bool) (c : Nat) (x : Bytes) (r : Nat) : Bytes :=
  groestlMix c (groestlShift q c ((groestlAddConstant q r x).map groestlS))

/-- `P(x)` (q false) or `Q(x)` (q true) on 8c bytes (R129). -/
def groestlPerm (q : Bool) (c : Nat) (x : Bytes) : Bytes :=
  (List.range (groestlRounds c)).foldl (groestlRound q c) x

/-- `GroestlF(H, M) = P(H ⊕ M) ⊕ Q(M) ⊕ H` (R130). -/
def groestlF (c : Nat) (h m : Bytes) : Bytes :=
  xorWords (xorWords (groestlPerm false c (xorWords h m)) (groestlPerm true c m)) h

/-- `IV(GROESTL, n)` (R131). -/
def groestlIV (n : Nat) : Bytes := zeros (8 * groestlColumns n - 8) ++ encBE n 8

/-- `Ω(H) = P(H) ⊕ H` (R132). -/
def groestlOmega (c : Nat) (h : Bytes) : Bytes := xorWords (groestlPerm false c h) h

/-- The padded tail of the message before the zeros: the buffered bytes m, then the terminator byte, or the partial
byte of t valid bits with the terminator bit after them (R133). -/
def groestlTerminated (m : Bytes) (t : Nat) (partialByte : Byte) : Bytes :=
  if t = 0 then m ++ [0x80]
  else m ++ [(partialByte &&& ((0xFF : Byte) <<< (8 - t))) ||| ((0x80 : Byte) >>> t)]

/-- The final blocks (R133): B the block size, x the terminated tail of k + 1 bytes, count the blocks transformed so
far. The length field holds the number of blocks, the one that carries it included. -/
def groestlFinalBlocks (B count : Nat) (x : Bytes) : List Bytes :=
  if x.length > B - 8 then
    [x ++ zeros (B - x.length), zeros (B - 8) ++ encBE (count + 2) 8]
  else
    [x ++ zeros (B - 8 - x.length) ++ encBE (count + 1) 8]

end Sys2Proof.Machine
end

