-- ==== Sys2Proof/Machine/Jh.lean ====
section
/-! DEFINITION. The JH core (47_jh.md R156 to R164, R166) and the JH padding blocks (R165). -/

namespace Sys2Proof.Machine

/-- The S-box S0 (R157). -/
def jhS0 : List (BitVec 4) := [0x9, 0x0, 0x4, 0xB, 0xD, 0xC, 0x3, 0xF, 0x1, 0xA, 0x2, 0x6, 0x7, 0x5, 0x8, 0xE]

/-- The S-box S1 (R157). -/
def jhS1 : List (BitVec 4) := [0x3, 0xC, 0x6, 0xD, 0x5, 0x7, 0x1, 0x9, 0xF, 0x2, 0x0, 0x4, 0xB, 0xA, 0xE, 0x8]

/-- A 4-bit element from its bits, the most significant first (R162). -/
def nibble (b0 b1 b2 b3 : Bool) : BitVec 4 :=
  BitVec.ofNat 4 (8 * b0.toNat + 4 * b1.toNat + 2 * b2.toNat + b3.toNat)

/-- `L(a, b) = (c, d)` (R158). -/
def jhL (a b : BitVec 4) : BitVec 4 × BitVec 4 :=
  let d0 := b.getMsbD 0 ^^ a.getMsbD 1
  let d1 := b.getMsbD 1 ^^ a.getMsbD 2
  let d2 := b.getMsbD 2 ^^ a.getMsbD 3 ^^ a.getMsbD 0
  let d3 := b.getMsbD 3 ^^ a.getMsbD 0
  let c0 := a.getMsbD 0 ^^ d1
  let c1 := a.getMsbD 1 ^^ d2
  let c2 := a.getMsbD 2 ^^ d3 ^^ d0
  let c3 := a.getMsbD 3 ^^ d0
  (nibble c0 c1 c2 c3, nibble d0 d1 d2 d3)

/-- π_d: elements 4i+2 and 4i+3 are swapped (R159). -/
def jhPi : List (BitVec 4) → List (BitVec 4)
  | a :: b :: c :: d :: rest => a :: b :: d :: c :: jhPi rest
  | v => v

/-- The elements of even index. -/
def evens : List (BitVec 4) → List (BitVec 4)
  | a :: _ :: rest => a :: evens rest
  | v => v

/-- The elements of odd index. -/
def odds : List (BitVec 4) → List (BitVec 4)
  | _ :: b :: rest => b :: odds rest
  | _ => []

/-- P'_d: the even-indexed elements, then the odd-indexed ones (R159). -/
def jhPPrime (v : List (BitVec 4)) : List (BitVec 4) := evens v ++ odds v

/-- Elements 2i and 2i+1 are swapped. -/
def swapPairs : List (BitVec 4) → List (BitVec 4)
  | a :: b :: rest => b :: a :: swapPairs rest
  | v => v

/-- φ_d: the first half stays, and the pairs of the second half are swapped (R159). -/
def jhPhi (d : Nat) (v : List (BitVec 4)) : List (BitVec 4) :=
  v.take (2 ^ (d - 1)) ++ swapPairs (v.drop (2 ^ (d - 1)))

/-- P_d = φ_d ∘ P'_d ∘ π_d (R159). -/
def jhP (d : Nat) (v : List (BitVec 4)) : List (BitVec 4) := jhPhi d (jhPPrime (jhPi v))

/-- The S-box layer of R_d: S1 where the constant's bit is set, else S0 (R160). -/
def jhSubst : List Bool → List (BitVec 4) → List (BitVec 4)
  | s :: ss, a :: v => nth (if s then jhS1 else jhS0) a.toNat :: jhSubst ss v
  | _, _ => []

/-- L on each pair of elements (R160). -/
def jhMix : List (BitVec 4) → List (BitVec 4)
  | a :: b :: rest => (jhL a b).1 :: (jhL a b).2 :: jhMix rest
  | v => v

/-- `R_d(A, C)`, the constant given by its bits, the most significant first (R160). -/
def jhRound (d : Nat) (v : List (BitVec 4)) (bits : List Bool) : List (BitVec 4) := jhP d (jhMix (jhSubst bits v))

/-- The bits of a word, the most significant first. -/
def bitsMsb {w : Nat} (x : BitVec w) : List Bool := (List.range w).map x.getMsbD

/-- C_0 to C_13 (R161). -/
def jhConstantsA : List (BitVec 256) :=
  [0x6a09e667f3bcc908b2fb1366ea957d3e3adec17512775099da2f590b0667322a,
   0xbb896bf05955abcd5281828d66e7d99ac4203494f89bf12817deb43288712231,
   0x1836e76b12d79c55118a1139d2417df52a2021225ff6350063d88e5f1f91631c,
   0x263085a7000fa9c3317c6ca8ab65f7a7713cf4201060ce886af855a90d6a4eed,
   0x1cebafd51a156aeb62a11fb3be2e14f60b7e48de85814270fd62e97614d7b441,
   0xe5564cb574f7e09c75e2e244929e9549279ab224a28e445d57185e7d7a09fdc1,
   0x5820f0f0d764cff3a5552a5e41a82b9eff6ee0aa615773bb07e8603424c3cf8a,
   0xb126fb741733c5bfcef6f43a62e8e5706a26656028aa897ec1ea4616ce8fd510,
   0xdbf0de32bca77254bb4f562581a3bc991cf94f225652c27f14eae958ae6aa616,
   0xe6113be617f45f3de53cff03919a94c32c927b093ac8f23b47f7189aadb9bc67,
   0x80d0d26052ca45d593ab5fb3102506390083afb5ffe107dacfcba7dbe601a12b,
   0x43af1c76126714dfa950c368787c81ae3beecf956c85c962086ae16e40ebb0b4,
   0x9aee8994d2d74a5cdb7b1ef294eed5c1520724dd8ed58c92d3f0e174b0c32045,
   0x0b2aa58ceb3bdb9e1eef66b376e0c565d5d8fe7bacb8da866f859ac521f3d571]

/-- C_14 to C_27 (R161). -/
def jhConstantsB : List (BitVec 256) :=
  [0x7a1523ef3d970a3a9b0b4d610e02749d37b8d57c1885fe4206a7f338e8356866,
   0x2c2db8f7876685f2cd9a2e0ddb64c9d5bf13905371fc39e0fa86e1477234a297,
   0x9df085eb2544ebf62b50686a71e6e828dfed9dbe0b106c9452ceddff3d138990,
   0xe6e5c42cb2d460c9d6e4791a1681bb2e222e54558eb78d5244e217d1bfcf5058,
   0x8f1f57e44e126210f00763ff57da208a5093b8ff7947534a4c260a17642f72b2,
   0xae4ef4792ea148608cf116cb2bff66e8fc74811266cd641112cd17801ed38b59,
   0x91a744efbf68b192d0549b608bdb3191fc12a0e83543cec5f882250b244f78e4,
   0x4b5d27d3368f9c17d4b2a2b216c7e74e7714d2cc03e1e44588cd9936de74357c,
   0x0ea17cafb8286131bda9e3757b3610aa3f77a6d0575053fc926eea7e237df289,
   0x848af9f57eb1a616e2c342c8cea528b8a95a5d16d9d87be9bb3784d0c351c32b,
   0xc0435cc3654fb85dd9335ba91ac3dbde1f85d567d7ad16f9de6e009bca3f95b5,
   0x927547fe5e5e45e2fe99f1651ea1cbf097dc3a3d40ddd21cee260543c288ec6b,
   0xc117a3770d3a34469d50dfa7db020300d306a365374fa828c8b780ee1b9d7a34,
   0x8ff2178ae2dbe5e872fac789a34bc228debf54a882743caad14f3a550fdbe68f]

/-- C_28 to C_41 (R161). -/
def jhConstantsC : List (BitVec 256) :=
  [0xabd06c52ed58ff091205d0f627574c8cbc1fe7cf79210f5a2286f6e23a27efa0,
   0x631f4acb8d3ca4253e301849f157571d3211b6c1045347befb7c77df3c6ca7bd,
   0xae88f2342c23344590be2014fab4f179fd4bf7c90db14fa4018fcce689d2127b,
   0x93b89385546d71379fe41c39bc602e8b7c8b2f78ee914d1f0af0d437a189a8a4,
   0x1d1e036abeef3f44848cd76ef6baa889fcec56cd7967eb909a464bfc23c72435,
   0xa8e4ede4c5fe5e88d4fb192e0a0821e935ba145bbfc59c2508282755a5df53a5,
   0x8e4e37a3b970f079ae9d22a499a714c875760273f74a9398995d32c05027d810,
   0x61cfa42792f93b9fde36eb163e978709fafa7616ec3c7dad0135806c3d91a21b,
   0xf037c5d91623288b7d0302c1b941b72676a943b372659dcd7d6ef408a11b40c0,
   0x2a306354ca3ea90b0e97eaebcea0a6d7c6522399e885c613de824922c892c490,
   0x3ca6cdd788a5bdc5ef2dceeb16bca31e0a0d2c7e9921b6f71d33e25dd2f3cf53,
   0xf72578721db56bf8f49538b0ae6ea470c2fb1339dd26333f135f7def45376ec0,
   0xe449a03eab359e34095f8b4b55cd7ac7c0ec6510f2c4cc79fa6b1fee6b18c59e,
   0x73bd6978c59f2b219449b36770fb313fbe2da28f6b04275f071a1b193dde2072]

/-- The round constants C_0 to C_41 (R161). -/
def jhConstants : List (BitVec 256) := jhConstantsA ++ jhConstantsB ++ jhConstantsC

/-- The 4-bit elements of a 256-bit constant, the most significant first (R161). -/
def jhElements (c : BitVec 256) : List (BitVec 4) := (List.range 64).map fun i => c.extractLsb' (252 - 4 * i) 4

/-- The bits of a byte string, bit 7 of byte 0 first (R156). -/
def bytesToBits (s : Bytes) : List Bool := s.flatMap bitsMsb

/-- The byte string of a bit string, eight bits a byte, the first the most significant (R156). -/
def bitsToBytes : List Bool → Bytes
  | b0 :: b1 :: b2 :: b3 :: b4 :: b5 :: b6 :: b7 :: rest =>
    BitVec.ofNat 8 (16 * (nibble b0 b1 b2 b3).toNat + (nibble b4 b5 b6 b7).toNat) :: bitsToBytes rest
  | _ => []

/-- The elements of four bit strings, one bit of each. -/
def zipNibbles : List Bool → List Bool → List Bool → List Bool → List (BitVec 4)
  | b0 :: x0, b1 :: x1, b2 :: x2, b3 :: x3 => nibble b0 b1 b2 b3 :: zipNibbles x0 x1 x2 x3
  | _, _, _, _ => []

/-- Two lists, alternating. -/
def interleave : List (BitVec 4) → List (BitVec 4) → List (BitVec 4)
  | a :: x, b :: y => a :: b :: interleave x y
  | _, _ => []

/-- Bits n to n + 127 of the state. -/
def bits128 (h : List Bool) (n : Nat) : List Bool := (h.drop n).take 128

/-- The grouping of the 1024 state bits in 256 elements (R162). -/
def jhGroup (h : List Bool) : List (BitVec 4) :=
  interleave (zipNibbles (bits128 h 0) (bits128 h 256) (bits128 h 512) (bits128 h 768))
    (zipNibbles (bits128 h 128) (bits128 h 384) (bits128 h 640) (bits128 h 896))

/-- Bit b of each element, 0 the most significant. -/
def bitPlane (b : Nat) (v : List (BitVec 4)) : List Bool := v.map (·.getMsbD b)

/-- The inverse of the grouping (R162). -/
def jhDegroup (q : List (BitVec 4)) : List Bool :=
  bitPlane 0 (evens q) ++ bitPlane 0 (odds q) ++ bitPlane 1 (evens q) ++ bitPlane 1 (odds q) ++
    bitPlane 2 (evens q) ++ bitPlane 2 (odds q) ++ bitPlane 3 (evens q) ++ bitPlane 3 (odds q)

/-- `E8(H)`, 42 rounds (R162). -/
def jhE8 (h : Bytes) : Bytes :=
  bitsToBytes (jhDegroup
    ((jhConstants.map bitsMsb).foldl (jhRound 8) (jhGroup (bytesToBits h))))

/-- `JhF8(H, M)` (R163). -/
def jhF8 (h m : Bytes) : Bytes := xorWords (jhE8 (xorWords h (m ++ zeros 64))) (zeros 64 ++ m)

/-- The state before the one that INIT starts from (R164). -/
def jhBeforeIV (n : Nat) : Bytes := encBE n 2 ++ zeros 126

/-- The rows of R164's table, as big-endian 128-bit numbers. -/
def jhIVRow (n : Nat) : List (BitVec 128) :=
  match n with
  | 224 =>
    [0x2dfedd62f99a98acae7cacd619d634e7, 0xa4831005bc301216b86038c6c9661494,
     0x66d9899f2580706fce9ea31b1d9b1adc, 0x11e8325f7b366e10f994857f02fa06c1,
     0x1b4f1b5cd8c840b397f6a17f6e738099, 0xdcdf93a5adeaa3d3a431e8dec9539a68,
     0x22b4a98aec86a1e4d574ac959ce56cf0, 0x15960deab5ab2bbf9611dcf0dd64ea6e]
  | 256 =>
    [0xeb98a3412c20d3eb92cdbe7b9cb245c1, 0x1c93519160d4c7fa260082d67e508a03,
     0xa4239e267726b945e0fb1a48d41a9477, 0xcdb5ab26026b177a56f024420fff2fa8,
     0x71a396897f2e4d751d144908f77de262, 0x277695f776248f9487d5b6574780296c,
     0x5c5e272dac8e0d6c518450c657057a0f, 0x7be4d367702412ea89e3ab13d31cd769]
  | 384 =>
    [0x481e3bc6d813398a6d3b5e894ade879b, 0x63faea68d480ad2e332ccb21480f8267,
     0x98aec84d9082b928d455ea3041114249, 0x36f555b2924847ecc7250a93baf43ce1,
     0x569b7f8a27db454c9efcbd496397af0e, 0x589fc27d26aa80cd80c08b8c9deb2eda,
     0x8a7981e8f8d5373af43967adddd17a71, 0xa9b4d3bda475d394976c3fba9842737f]
  | _ =>
    [0x6fd14b963e00aa17636a2e057a15d543, 0x8a225e8d0c97ef0be9341259f2b3c361,
     0x891da0c1536f801e2aa9056bea2b6d80, 0x588eccdb2075baa6a90f3a76baf83bf7,
     0x0169e60541e34a6946b58a8e2e6fe65a, 0x1047a7d0c1843c243b6e71b12d5ac199,
     0xcf57f6ec9db1f856a706887c5716b156, 0xe3c2fcdfe68517fb545a4678cc8cdd4b]

/-- `IV(JH, n)`, from the table (R164, log 7). -/
def jhIV (n : Nat) : Bytes := bytesBE (jhIVRow n)

/-- The final blocks of a message of N bits with the buffered bytes m (R165). -/
def jhFinalBlocks (N : Nat) (m : Bytes) : List Bytes :=
  if m.length = 0 then [[0x80] ++ zeros 47 ++ encBE N 16]
  else [m ++ [0x80] ++ zeros (63 - m.length), zeros 48 ++ encBE N 16]

end Sys2Proof.Machine
end

