-- ==== Sys2Proof/Machine/Rmd320.lean ====
section
/-! DEFINITION. The RIPEMD-320 core (45_rmd320.md R136 to R141). -/

namespace Sys2Proof.Machine

/-- `f(j, x, y, z)` (R136). -/
def rmdF (j : Nat) (x y z : BitVec 32) : BitVec 32 :=
  match j / 16 with
  | 0 => x ^^^ y ^^^ z
  | 1 => (x &&& y) ||| (~~~x &&& z)
  | 2 => (x ||| ~~~y) ^^^ z
  | 3 => (x &&& z) ||| (y &&& ~~~z)
  | _ => x ^^^ (y ||| ~~~z)

/-- `K[g]`, left line (R137). -/
def rmdK : List (BitVec 32) := [0x00000000, 0x5A827999, 0x6ED9EBA1, 0x8F1BBCDC, 0xA953FD4E]

/-- `K'[g]`, right line (R137). -/
def rmdK' : List (BitVec 32) := [0x50A28BE6, 0x5C4DD124, 0x6D703EF3, 0x7A6D76E9, 0x00000000]

/-- r(j) by round, left line (R138). -/
def rmdSelRows : List (List Nat) :=
  [[0, 1, 2, 3, 4, 5, 6, 7, 8, 9, 10, 11, 12, 13, 14, 15],
   [7, 4, 13, 1, 10, 6, 15, 3, 12, 0, 9, 5, 2, 14, 11, 8],
   [3, 10, 14, 4, 9, 15, 8, 1, 2, 7, 0, 6, 13, 11, 5, 12],
   [1, 9, 11, 10, 0, 8, 12, 4, 13, 3, 7, 15, 14, 5, 6, 2],
   [4, 0, 5, 9, 7, 12, 2, 10, 14, 1, 3, 8, 11, 6, 15, 13]]

/-- r'(j) by round, right line (R138). -/
def rmdSelRows' : List (List Nat) :=
  [[5, 14, 7, 0, 9, 2, 11, 4, 13, 6, 15, 8, 1, 10, 3, 12],
   [6, 11, 3, 7, 0, 13, 5, 10, 14, 15, 8, 12, 4, 9, 1, 2],
   [15, 5, 1, 3, 7, 14, 6, 9, 11, 8, 12, 2, 10, 0, 4, 13],
   [8, 6, 4, 1, 3, 11, 15, 0, 5, 12, 2, 13, 9, 7, 10, 14],
   [12, 15, 10, 4, 1, 5, 8, 7, 6, 2, 13, 14, 0, 3, 9, 11]]

/-- s(j) by round, left line (R139). -/
def rmdRotRows : List (List Nat) :=
  [[11, 14, 15, 12, 5, 8, 7, 9, 11, 13, 14, 15, 6, 7, 9, 8],
   [7, 6, 8, 13, 11, 9, 7, 15, 7, 12, 15, 9, 11, 7, 13, 12],
   [11, 13, 6, 7, 14, 9, 13, 15, 14, 8, 13, 6, 5, 12, 7, 5],
   [11, 12, 14, 15, 14, 15, 9, 8, 9, 14, 5, 6, 8, 6, 5, 12],
   [9, 15, 5, 11, 6, 8, 13, 12, 5, 12, 13, 14, 11, 8, 5, 6]]

/-- s'(j) by round, right line (R139). -/
def rmdRotRows' : List (List Nat) :=
  [[8, 9, 9, 11, 13, 15, 15, 5, 7, 7, 8, 11, 14, 14, 12, 6],
   [9, 13, 15, 7, 12, 8, 9, 11, 7, 7, 12, 7, 6, 15, 13, 11],
   [9, 7, 15, 11, 8, 6, 6, 14, 12, 13, 5, 14, 13, 13, 7, 5],
   [15, 5, 8, 11, 14, 14, 6, 14, 6, 9, 12, 9, 12, 5, 15, 8],
   [8, 5, 12, 9, 12, 5, 14, 6, 8, 13, 6, 5, 15, 13, 11, 11]]

/-- The entry of step j in a table of 16 entries a round. -/
def rmdAt (rows : List (List Nat)) (j : Nat) : Nat := (rows.getD (j / 16) []).getD (j % 16) 0

/-- The five working words of one line (R141). -/
structure RmdLine where
  a : BitVec 32
  b : BitVec 32
  c : BitVec 32
  d : BitVec 32
  e : BitVec 32
  deriving DecidableEq, Repr

/-- One step of one line: the message word x, the constant k, the rotation s and the function index jf (R141). -/
def rmdLineStep (l : RmdLine) (jf : Nat) (x k : BitVec 32) (s : Nat) : RmdLine :=
  ⟨l.e, rotl (l.a + rmdF jf l.b l.c l.d + x + k) s + l.e, l.b, rotl l.c 10, l.d⟩

/-- The exchange of one register between the lines at the end of step j (R141). -/
def rmdSwap (j : Nat) (l r : RmdLine) : RmdLine × RmdLine :=
  if j = 15 then ({ l with b := r.b }, { r with b := l.b })
  else if j = 31 then ({ l with d := r.d }, { r with d := l.d })
  else if j = 47 then ({ l with a := r.a }, { r with a := l.a })
  else if j = 63 then ({ l with c := r.c }, { r with c := l.c })
  else if j = 79 then ({ l with e := r.e }, { r with e := l.e })
  else (l, r)

/-- Step j of both lines (R141). -/
def rmdStep (x : List (BitVec 32)) (s : RmdLine × RmdLine) (j : Nat) : RmdLine × RmdLine :=
  rmdSwap j
    (rmdLineStep s.1 j (nth x (rmdAt rmdSelRows j)) (nth rmdK (j / 16)) (rmdAt rmdRotRows j))
    (rmdLineStep s.2 (79 - j) (nth x (rmdAt rmdSelRows' j)) (nth rmdK' (j / 16)) (rmdAt rmdRotRows' j))

/-- `RmdCompress(h, block)` (R141). -/
def rmdCompress (h : List (BitVec 32)) (block : Bytes) : List (BitVec 32) :=
  let x := wordsLE 32 block 16
  let start : RmdLine × RmdLine :=
    (⟨nth h 0, nth h 1, nth h 2, nth h 3, nth h 4⟩, ⟨nth h 5, nth h 6, nth h 7, nth h 8, nth h 9⟩)
  let (l, r) := (List.range 80).foldl (rmdStep x) start
  [nth h 0 + l.a, nth h 1 + l.b, nth h 2 + l.c, nth h 3 + l.d, nth h 4 + l.e,
   nth h 5 + r.a, nth h 6 + r.b, nth h 7 + r.c, nth h 8 + r.d, nth h 9 + r.e]

/-- `IV(RMD320, 320)` (R140). -/
def rmdIV : List (BitVec 32) :=
  [0x67452301, 0xEFCDAB89, 0x98BADCFE, 0x10325476, 0xC3D2E1F0,
   0x76543210, 0xFEDCBA98, 0x89ABCDEF, 0x01234567, 0x3C2D1E0F]

end Sys2Proof.Machine
end

