-- ==== Sys2Proof/Machine/Whirlpool.lean ====
section
/-! DEFINITION. The Whirlpool core (46_whirlpool.md R145 to R152, R154). An 8 by 8 matrix is its byte string, row by
row: `A[i][j] = x[8i + j]` (R145). -/

namespace Sys2Proof.Machine

/-- `a •' b`, modulo 0x11D (R146). -/
def whirlpoolMul (a b : Byte) : Byte := fieldMul 0x11D a b

/-- The S-box table (R147). -/
def whirlpoolSRows : List (List Byte) :=
  [[0x18, 0x23, 0xc6, 0xe8, 0x87, 0xb8, 0x01, 0x4f, 0x36, 0xa6, 0xd2, 0xf5, 0x79, 0x6f, 0x91, 0x52],
   [0x60, 0xbc, 0x9b, 0x8e, 0xa3, 0x0c, 0x7b, 0x35, 0x1d, 0xe0, 0xd7, 0xc2, 0x2e, 0x4b, 0xfe, 0x57],
   [0x15, 0x77, 0x37, 0xe5, 0x9f, 0xf0, 0x4a, 0xda, 0x58, 0xc9, 0x29, 0x0a, 0xb1, 0xa0, 0x6b, 0x85],
   [0xbd, 0x5d, 0x10, 0xf4, 0xcb, 0x3e, 0x05, 0x67, 0xe4, 0x27, 0x41, 0x8b, 0xa7, 0x7d, 0x95, 0xd8],
   [0xfb, 0xee, 0x7c, 0x66, 0xdd, 0x17, 0x47, 0x9e, 0xca, 0x2d, 0xbf, 0x07, 0xad, 0x5a, 0x83, 0x33],
   [0x63, 0x02, 0xaa, 0x71, 0xc8, 0x19, 0x49, 0xd9, 0xf2, 0xe3, 0x5b, 0x88, 0x9a, 0x26, 0x32, 0xb0],
   [0xe9, 0x0f, 0xd5, 0x80, 0xbe, 0xcd, 0x34, 0x48, 0xff, 0x7a, 0x90, 0x5f, 0x20, 0x68, 0x1a, 0xae],
   [0xb4, 0x54, 0x93, 0x22, 0x64, 0xf1, 0x73, 0x12, 0x40, 0x08, 0xc3, 0xec, 0xdb, 0xa1, 0x8d, 0x3d],
   [0x97, 0x00, 0xcf, 0x2b, 0x76, 0x82, 0xd6, 0x1b, 0xb5, 0xaf, 0x6a, 0x50, 0x45, 0xf3, 0x30, 0xef],
   [0x3f, 0x55, 0xa2, 0xea, 0x65, 0xba, 0x2f, 0xc0, 0xde, 0x1c, 0xfd, 0x4d, 0x92, 0x75, 0x06, 0x8a],
   [0xb2, 0xe6, 0x0e, 0x1f, 0x62, 0xd4, 0xa8, 0x96, 0xf9, 0xc5, 0x25, 0x59, 0x84, 0x72, 0x39, 0x4c],
   [0x5e, 0x78, 0x38, 0x8c, 0xd1, 0xa5, 0xe2, 0x61, 0xb3, 0x21, 0x9c, 0x1e, 0x43, 0xc7, 0xfc, 0x04],
   [0x51, 0x99, 0x6d, 0x0d, 0xfa, 0xdf, 0x7e, 0x24, 0x3b, 0xab, 0xce, 0x11, 0x8f, 0x4e, 0xb7, 0xeb],
   [0x3c, 0x81, 0x94, 0xf7, 0xb9, 0x13, 0x2c, 0xd3, 0xe7, 0x6e, 0xc4, 0x03, 0x56, 0x44, 0x7f, 0xa9],
   [0x2a, 0xbb, 0xc1, 0x53, 0xdc, 0x0b, 0x9d, 0x6c, 0x31, 0x74, 0xf6, 0x46, 0xac, 0x89, 0x14, 0xe1],
   [0x16, 0x3a, 0x69, 0x09, 0x70, 0xb6, 0xd0, 0xed, 0xcc, 0x42, 0x98, 0xa4, 0x28, 0x5c, 0xf8, 0x86]]

/-- `S(u)` (R147). -/
def whirlpoolS (u : Byte) : Byte := boxAt whirlpoolSRows u

/-- The mini-box E (R147). -/
def whirlpoolE : List (BitVec 4) := [0x1, 0xB, 0x9, 0xC, 0xD, 0x6, 0xF, 0x3, 0xE, 0x8, 0x7, 0x4, 0xA, 0x2, 0x5, 0x0]

/-- The mini-box E⁻¹ (R147). -/
def whirlpoolEInv : List (BitVec 4) := [0xF, 0x0, 0xD, 0x7, 0xB, 0xE, 0x5, 0xA, 0x9, 0x2, 0xC, 0x1, 0x3, 0x4, 0x8, 0x6]

/-- The mini-box R (R147). -/
def whirlpoolR : List (BitVec 4) := [0x7, 0xC, 0xB, 0xD, 0xE, 0x4, 0x9, 0xF, 0x6, 0x3, 0x8, 0xA, 0x2, 0x5, 0x1, 0x0]

/-- The construction of S from the mini-boxes (R147). The rounds read the table. -/
def whirlpoolSFromBoxes (u : Byte) : Byte :=
  let a := nth whirlpoolE (u.toNat / 16)
  let b := nth whirlpoolEInv (u.toNat % 16)
  let r := nth whirlpoolR (a ^^^ b).toNat
  BitVec.ofNat 8 (16 * (nth whirlpoolE (a ^^^ r).toNat).toNat + (nth whirlpoolEInv (b ^^^ r).toNat).toNat)

/-- π: column j is rotated down by j positions (R148, step 2). -/
def whirlpoolShift (x : Bytes) : Bytes :=
  (List.range 64).map fun p => nth x (8 * ((p / 8 + 8 - p % 8) % 8) + p % 8)

/-- The first row C of the MixRows matrix (R148, step 3). -/
def whirlpoolMixRow : Bytes := [0x01, 0x01, 0x04, 0x01, 0x08, 0x05, 0x02, 0x09]

/-- θ: `A'[i][j] = ⊕_k A[i][k] •' C[(j - k) mod 8]` (R148, step 3). -/
def whirlpoolMix (x : Bytes) : Bytes :=
  (List.range 64).map fun p =>
    (List.range 8).foldl
      (fun acc k => acc ^^^ whirlpoolMul (nth x (8 * (p / 8) + k)) (nth whirlpoolMixRow ((p % 8 + 8 - k) % 8))) 0

/-- `ρ[K](A)` (R148). -/
def whirlpoolRound (key x : Bytes) : Bytes := xorWords (whirlpoolMix (whirlpoolShift (x.map whirlpoolS))) key

/-- The round constant c_r, for r = 1 to 10: row 0 is `S(8(r - 1) + j)`, every other row 0 (R149). -/
def whirlpoolConstant (r : Nat) : Bytes :=
  (List.range 8).map (fun j => whirlpoolS (BitVec.ofNat 8 (8 * (r - 1) + j))) ++ zeros 56

/-- Round r of the cipher on the pair (K, S): the key schedule, then the data round (R150). -/
def whirlpoolCipherRound (ks : Bytes × Bytes) (r : Nat) : Bytes × Bytes :=
  let key := whirlpoolRound (whirlpoolConstant r) ks.1
  (key, whirlpoolRound key ks.2)

/-- `W_K0(M)` (R150). -/
def whirlpoolCipher (key m : Bytes) : Bytes :=
  ([1, 2, 3, 4, 5, 6, 7, 8, 9, 10].foldl whirlpoolCipherRound (key, xorWords m key)).2

/-- `WhirlpoolCompress(H, M) = W_H(M) ⊕ H ⊕ M` (R151). -/
def whirlpoolCompress (h m : Bytes) : Bytes := xorWords (xorWords (whirlpoolCipher h m) h) m

/-- `IV(WHIRLPOOL, 512)` (R152). -/
def whirlpoolIV : Bytes := zeros 64

end Sys2Proof.Machine
end

