-- ==== Sys2Proof/Machine/Registry.lean ====
section
/-! DEFINITION. The algorithm registry (41_registry.md): family codes, legal digest lengths, lookup, parameters,
initial values, partial-bit families and length limits. A constant function of the parameters of Config, not state
(10_state.md R38). -/

namespace Sys2Proof.Machine

/-- `Family(alg)`; none for a code R92 leaves undefined. -/
def familyOf (alg : BitVec 8) : Option Family :=
  match alg.toNat with
  | 1 => some .blake
  | 2 => some .groestl
  | 3 => some .rmd320
  | 4 => some .whirlpool
  | 5 => some .jh
  | 6 => some .lsh256
  | 7 => some .lsh512
  | 8 => some .crc32
  | 9 => some .cksum
  | _ => none

/-- The algorithm code of a family (R71). -/
def familyCode : Family → BitVec 8
  | .blake => 1
  | .groestl => 2
  | .rmd320 => 3
  | .whirlpool => 4
  | .jh => 5
  | .lsh256 => 6
  | .lsh512 => 7
  | .crc32 => 8
  | .cksum => 9

/-- `n ∈ Legal(f)`: the legal digest lengths in bits (R93). -/
def legalDlen (f : Family) (n : Nat) : Bool :=
  match f with
  | .blake => n == 224 || n == 256 || n == 384 || n == 512
  | .groestl => n % 8 == 0 && decide (8 ≤ n) && decide (n ≤ 512)
  | .rmd320 => n == 320
  | .whirlpool => n == 512
  | .jh => n == 224 || n == 256 || n == 384 || n == 512
  | .lsh256 => n == 224 || n == 256
  | .lsh512 => n == 224 || n == 256 || n == 384 || n == 512
  | .crc32 => n == 32
  | .cksum => n == 32

/-- `Max(f)`: the digest length that DLEN = 0 names in a query (R73, R93). -/
def maxDlen : Family → Nat
  | .blake => 512
  | .groestl => 512
  | .rmd320 => 320
  | .whirlpool => 512
  | .jh => 512
  | .lsh256 => 256
  | .lsh512 => 512
  | .crc32 => 32
  | .cksum => 32

/-- The word-order column of R95. -/
inductive WordOrder
  | bigEndian | littleEndian | columnMajorBytes | rowMajorBytes | bitStringMsb | byteSerialReflected | byteSerialMsb
  deriving DecidableEq, Repr

/-- The parameter record (R95). -/
structure Params where
  family : Family
  /-- n, the digest length in bits. -/
  dlen : Nat
  /-- B, the block size in bytes. -/
  blockBytes : Nat
  /-- w, the word width in bits. -/
  wordBits : Nat
  /-- The words of the chaining state. -/
  stateWords : Nat
  wordOrder : WordOrder
  /-- L, the bytes of the length field, 0 where the family has none. -/
  lengthBytes : Nat
  /-- Rounds, or steps, of the core. -/
  rounds : Nat
  deriving DecidableEq, Repr

/-- `Params(f, n)` for n ∈ Legal(f) (R95). RMD-320's rounds are 5 of 16 steps on 2 lines; a CRC step shifts 8 times. -/
def paramsOf (f : Family) (n : Nat) : Params :=
  match f with
  | .blake =>
    if n ≤ 256 then ⟨f, n, 64, 32, 8, .bigEndian, 8, 14⟩ else ⟨f, n, 128, 64, 8, .bigEndian, 16, 16⟩
  | .groestl =>
    if n ≤ 256 then ⟨f, n, 64, 64, 8, .columnMajorBytes, 8, 10⟩ else ⟨f, n, 128, 64, 16, .columnMajorBytes, 8, 14⟩
  | .rmd320 => ⟨f, n, 64, 32, 10, .littleEndian, 8, 5⟩
  | .whirlpool => ⟨f, n, 64, 64, 8, .rowMajorBytes, 32, 10⟩
  | .jh => ⟨f, n, 64, 64, 16, .bitStringMsb, 16, 42⟩
  | .lsh256 => ⟨f, n, 128, 32, 16, .littleEndian, 0, 26⟩
  | .lsh512 => ⟨f, n, 256, 64, 16, .littleEndian, 0, 28⟩
  | .crc32 => ⟨f, n, 1, 32, 1, .byteSerialReflected, 0, 8⟩
  | .cksum => ⟨f, n, 1, 32, 1, .byteSerialMsb, 0, 8⟩

/-- `alg ∈ ALG_SUPPORTED`, with its family (R71, R94). -/
def supportedFamily (cfg : Config) (alg : BitVec 8) : Option Family :=
  match familyOf alg with
  | some f => if f ∈ cfg.algSupported then some f else none
  | none => none

/-- `RegistryLookup(alg, dlen)` (R94): the parameters, or the status of the failure. -/
def registryLookup (cfg : Config) (alg : BitVec 8) (dlen : BitVec 16) : Except Status Params :=
  match supportedFamily cfg alg with
  | none => .error .unsupportedAlgorithm
  | some f =>
    let n := if dlen = 0 then maxDlen f else dlen.toNat
    if legalDlen f n then .ok (paramsOf f n) else .error .badHashLength

/-- The parameters of a live context with this code and digest length: `Params(Family(alg), dlen)` where R92 and R95
define them. -/
def variantOf (alg : BitVec 8) (dlen : BitVec 16) : Option Params :=
  match familyOf alg with
  | some f => if legalDlen f dlen.toNat then some (paramsOf f dlen.toNat) else none
  | none => none

/-- `Family ∈ PARTIAL_BIT_FAMILIES` (R97). -/
def acceptsPartial (cfg : Config) (f : Family) : Bool :=
  match cfg.partialBitFamilies with
  | .none => false
  | .groestlOnly => f == .groestl

/-- `WithinLimit(alg, dlen, N)` (R98). -/
def withinLimit (p : Params) (n : Nat) : Bool :=
  match p.family with
  | .blake => decide (n < if p.dlen ≤ 256 then 2 ^ 64 else 2 ^ 128)
  | .groestl => decide ((n + 65 + (8 * p.blockBytes - 1)) / (8 * p.blockBytes) ≤ 2 ^ 64 - 1)
  | .rmd320 => decide (n < 2 ^ 64)
  | .whirlpool => decide (n < 2 ^ 256)
  | .jh => decide (n < 2 ^ 128)
  | .lsh256 => decide (n < 2 ^ 128)
  | .lsh512 => decide (n < 2 ^ 128)
  | .crc32 => decide (n < 2 ^ 64)
  | .cksum => decide (n < 2 ^ 64)

/-- `IV(alg, dlen)` as the bytes that open the chaining storage (R96, log 6). -/
def initialValue (p : Params) : Bytes :=
  match p.family with
  | .blake => if p.dlen ≤ 256 then bytesBE (blakeIV32 p.dlen) else bytesBE (blakeIV64 p.dlen)
  | .groestl => groestlIV p.dlen
  | .rmd320 => bytesLE rmdIV
  | .whirlpool => whirlpoolIV
  | .jh => jhIV p.dlen
  | .lsh256 => bytesLE (lshIV32 p.dlen)
  | .lsh512 => bytesLE (lshIV64 p.dlen)
  | .crc32 => encBE 0xFFFFFFFF 4
  | .cksum => encBE 0x00000000 4

end Sys2Proof.Machine
end

