-- ==== Sys2Proof/Machine/Pipeline.lean ====
section
/-! DEFINITION. The parts every family shares (42_pipeline.md): the accumulator (R100), the transform dispatch (R104),
Merkle-Damgård padding (R107), the finalization (R105, R106) and the serializer (R108). -/

namespace Sys2Proof.Machine

/-- The core of the family p on the chaining storage: one block, with BLAKE's counter and nullt (R104). -/
def compress (p : Params) (chain : Chain) (block : Bytes) (t : Nat) (nullt : Bool) : Chain :=
  match p.family with
  | .blake =>
    if p.dlen ≤ 256 then
      Chain.ofBytes (bytesBE (blakeCompress blake32 (wordsBE 32 (chain.bytes 32) 8) block t nullt))
    else Chain.ofBytes (bytesBE (blakeCompress blake64 (wordsBE 64 (chain.bytes 64) 8) block t nullt))
  | .groestl =>
    Chain.ofBytes (groestlF (groestlColumns p.dlen) (chain.bytes (8 * groestlColumns p.dlen)) block)
  | .rmd320 => Chain.ofBytes (bytesLE (rmdCompress (wordsLE 32 (chain.bytes 40) 10) block))
  | .whirlpool => Chain.ofBytes (whirlpoolCompress (chain.bytes 64) block)
  | .jh => Chain.ofBytes (jhF8 (chain.bytes 128) block)
  | .lsh256 => Chain.ofBytes (bytesLE (lshCF lsh32 (wordsLE 32 (chain.bytes 64) 16) block))
  | .lsh512 => Chain.ofBytes (bytesLE (lshCF lsh64 (wordsLE 64 (chain.bytes 128) 16) block))
  | .crc32 => Chain.ofBytes (encBE (crc32Step (loadBE 32 (chain.bytes 4) 0) (block.getD 0 0)).toNat 4)
  | .cksum => Chain.ofBytes (encBE (cksumStep (loadBE 32 (chain.bytes 4) 0) (block.getD 0 0)).toNat 4)

/-! ## The accumulator -/

/-- The full buffer is transformed: the block counted, the core applied with counter `8·B·blockCount` and nullt 0, the
buffer empty again (R100, R104, 43_blake.md R121). -/
def transformBuffer (p : Params) (c : Ctx) : Ctx :=
  let count := c.blockCount + 1
  { c with
    blockCount := count
    chain := compress p c.chain (c.buf.toList.take p.blockBytes) (8 * p.blockBytes * count.toNat) false
    bufLen := 0 }

/-- `AbsorbByte(x)` (R100). -/
def absorbByte (p : Params) (c : Ctx) (x : Byte) : Ctx :=
  let c := { c with buf := c.buf.setIfInBounds c.bufLen.toNat x, bufLen := c.bufLen + 1 }
  if c.bufLen.toNat = p.blockBytes then transformBuffer p c else c

/-- AbsorbByte on each byte, in order (R87, R100). -/
def absorb (p : Params) (c : Ctx) (bytes : Bytes) : Ctx := bytes.foldl (absorbByte p) c

/-! ## Padding -/

/-- The buffered message bytes `m = ctx.buf[0 .. bufLen - 1]`. -/
def buffered (c : Ctx) : Bytes := c.buf.toList.take c.bufLen.toNat

/-- `MDPad(k, N, L, E)` on the k bytes m (R107). -/
def mdPad (B L N : Nat) (enc : Nat → Nat → Bytes) (m : Bytes) : List Bytes :=
  let k := m.length
  if k + 1 + L ≤ B then
    [m ++ [0x80] ++ zeros (B - L - k - 1) ++ enc (N % 2 ^ (8 * L)) L]
  else
    [m ++ [0x80] ++ zeros (B - k - 1), zeros (B - L) ++ enc (N % 2 ^ (8 * L)) L]

/-- A block to transform at FINAL, with BLAKE's counter and nullt (43_blake.md R122). -/
structure FinalBlock where
  block : Bytes
  t : Nat
  nullt : Bool
  deriving DecidableEq, Repr

/-- A final block of a family that takes no counter. -/
def plainBlock (block : Bytes) : FinalBlock := ⟨block, 0, false⟩

/-- The final blocks of the context, in order (R105, R106, and the family rules R122, R133, R142, R153, R165, R174;
none for the CRCs, R179, R181). They are built outside `ctx.buf` (log 15). -/
def finalBlocks (p : Params) (c : Ctx) : List FinalBlock :=
  let m := buffered c
  let N := c.msgBits.toNat
  match p.family with
  | .blake => (blakeFinalBlocks p.blockBytes p.lengthBytes p.dlen N m).map fun b => ⟨b.1, b.2.1, b.2.2⟩
  | .groestl =>
    (groestlFinalBlocks p.blockBytes c.blockCount.toNat
      (groestlTerminated m c.partialBits.toNat (c.buf.toList.getD c.bufLen.toNat 0))).map plainBlock
  | .rmd320 => (mdPad p.blockBytes p.lengthBytes N encLE m).map plainBlock
  | .whirlpool => (mdPad p.blockBytes p.lengthBytes N encBE m).map plainBlock
  | .jh => (jhFinalBlocks N m).map plainBlock
  | .lsh256 => [plainBlock (lshFinalBlock p.blockBytes m)]
  | .lsh512 => [plainBlock (lshFinalBlock p.blockBytes m)]
  | .crc32 => []
  | .cksum => []

/-- One final block: the block counted, `ctx.nullt` holding the nullt argument, the core applied (R105, R122). -/
def applyFinalBlock (p : Params) (c : Ctx) (b : FinalBlock) : Ctx :=
  let c := { c with blockCount := c.blockCount + 1, nullt := b.nullt }
  { c with chain := compress p c.chain b.block b.t c.nullt }

/-- The context after its final blocks, `ctx.nullt` 0 again (R105, R122). -/
def finalizeCtx (p : Params) (c : Ctx) : Ctx :=
  { (finalBlocks p c).foldl (applyFinalBlock p) c with nullt := false }

/-! ## The serializer -/

/-- The digest read from the context after its final blocks: n/8 bytes of the final state, in the family's order
(R108, and R123, R134, R143, R154, R166, R175, R179, R181). -/
def outputBytes (p : Params) (c : Ctx) : Bytes :=
  let n := p.dlen / 8
  match p.family with
  | .blake =>
    if p.dlen ≤ 256 then (bytesBE (wordsBE 32 (c.chain.bytes 32) 8)).take n
    else (bytesBE (wordsBE 64 (c.chain.bytes 64) 8)).take n
  | .groestl =>
    lastBytes n (groestlOmega (groestlColumns p.dlen) (c.chain.bytes (8 * groestlColumns p.dlen)))
  | .rmd320 => bytesLE (wordsLE 32 (c.chain.bytes 40) 10)
  | .whirlpool => c.chain.bytes 64
  | .jh => lastBytes n (c.chain.bytes 128)
  | .lsh256 => (bytesLE (lshFold (wordsLE 32 (c.chain.bytes 64) 16))).take n
  | .lsh512 => (bytesLE (lshFold (wordsLE 64 (c.chain.bytes 128) 16))).take n
  | .crc32 => encBE (loadBE 32 (c.chain.bytes 4) 0 ^^^ 0xFFFFFFFF).toNat 4
  | .cksum =>
    encBE (cksumCount 32 (c.msgBits.toNat / 8) (loadBE 32 (c.chain.bytes 4) 0) ^^^ 0xFFFFFFFF).toNat 4

/-- `Finalize()`: the digest of the context (R105). -/
def digest (p : Params) (c : Ctx) : Bytes := outputBytes p (finalizeCtx p c)

end Sys2Proof.Machine
end

