-- ==== Sys2Proof/Machine/Commands.lean ====
section
/-! DEFINITION. The meanings of the six commands (40_commands.md R86 to R91). Each reads and writes the engine of the
port (`onEngine`) and emits its whole response in the same step (20_memory.md R52). -/

namespace Sys2Proof.Machine

/-! ## INIT -/

/-- The fresh context of a variant: zeroised, with its code, its digest length and its IV (R86). -/
def freshCtx (p : Params) (alg : BitVec 8) (dlen : BitVec 16) (c : Ctx) : Ctx :=
  { zeroise c with alg := alg, dlen := dlen, chain := Chain.ofBytes (initialValue p), state := .active }

/-- INIT on one engine (R86). -/
def initEngine (cfg : Config) (alg : BitVec 8) (dlen : BitVec 16) (e : Engine) : Engine :=
  match registryLookup cfg alg dlen with
  | .error st => e.replyError st
  | .ok p =>
    if dlen = 0 then e.replyError .badHashLength
    else { e with ctx := freshCtx p alg dlen e.ctx }.respond .ok 0 []

/-- INIT (R86). -/
def execInit (alg : BitVec 8) (dlen : BitVec 16) (s : State) : Host.Outcome State Fault Refusal :=
  onEngine s fun e => .next (initEngine s.cfg alg dlen e)

/-! ## UPDATE -/

/-- The context after an accepted UPDATE (R87): the whole bytes absorbed, the bits counted, and a partial byte stored
with the context in TAIL. -/
def updateCtx (p : Params) (bitlen : BitVec 64) (payload : Bytes) (c : Ctx) : Ctx :=
  let n := c.msgBits + bitlen.setWidth 256
  let c := { absorb p c (payload.take (wholeBytes bitlen)) with msgBits := n }
  if tailBits bitlen = 0 then c
  else
    { c with
      buf := c.buf.setIfInBounds c.bufLen.toNat (partialByte bitlen payload)
      partialBits := BitVec.ofNat 3 (tailBits bitlen)
      state := .tail }

/-- UPDATE in ACTIVE (R87): the operand checks, the length limit, the effect. -/
def updateActive (cfg : Config) (bitlen : BitVec 64) (payload : Bytes) (e : Engine) :
    Host.Outcome Engine Fault Refusal :=
  match variantOf e.ctx.alg e.ctx.dlen with
  | none => .refused (.noVariant e.ctx.alg e.ctx.dlen)
  | some p =>
    if tailBits bitlen ≠ 0 ∧ acceptsPartial cfg p.family = false then
      .next (e.replyError .nonByteAlignedMidStream)
    else if withinLimit p (e.ctx.msgBits.toNat + bitlen.toNat) = false then .fault .lengthLimit
    else .next ({ e with ctx := updateCtx p bitlen payload e.ctx }.respond .ok 0 [])

/-- UPDATE on one engine (R87): the lifecycle checks come first (R187). -/
def updateEngine (cfg : Config) (bitlen : BitVec 64) (payload : Bytes) (e : Engine) :
    Host.Outcome Engine Fault Refusal :=
  match e.ctx.state with
  | .idle => .next (e.replyError .noContext)
  | .finalized => .next (e.replyError .alreadyFinalized)
  | .tail => .next (e.replyError .nonByteAlignedMidStream)
  | .active => updateActive cfg bitlen payload e

/-- UPDATE (R87). A record whose payload is not `ceil(BITLEN/8)` bytes is not a command (20_memory.md R46). -/
def execUpdate (bitlen : BitVec 64) (payload : Bytes) (s : State) : Host.Outcome State Fault Refusal :=
  if payload.length ≠ payloadBytes bitlen then .refused .payloadLength
  else onEngine s (updateEngine s.cfg bitlen payload)

/-! ## FINAL -/

/-- FINAL in ACTIVE or TAIL (R88): the digest, then zeroisation, then the response. -/
def finalLive (e : Engine) : Host.Outcome Engine Fault Refusal :=
  match variantOf e.ctx.alg e.ctx.dlen with
  | none => .refused (.noVariant e.ctx.alg e.ctx.dlen)
  | some p =>
    .next ({ e with ctx := { zeroise e.ctx with state := .finalized } }.respond .ok
      (BitVec.ofNat 16 (e.ctx.dlen.toNat / 8)) (digest p e.ctx))

/-- FINAL on one engine (R88). -/
def finalEngine (e : Engine) : Host.Outcome Engine Fault Refusal :=
  match e.ctx.state with
  | .idle => .next (e.replyError .noContext)
  | .finalized => .next (e.replyError .alreadyFinalized)
  | .active => finalLive e
  | .tail => finalLive e

/-- FINAL (R88). -/
def execFinal (s : State) : Host.Outcome State Fault Refusal := onEngine s finalEngine

/-! ## DROP -/

/-- DROP on one engine (R89). -/
def dropEngine (e : Engine) : Engine := { e with ctx := { zeroise e.ctx with state := .idle } }.respond .ok 0 []

/-- DROP (R89). -/
def execDrop (s : State) : Host.Outcome State Fault Refusal := onEngine s fun e => .next (dropEngine e)

/-! ## QDLEN and QBLK -/

/-- A registry query: the error status, or OK with a value of the parameter record (R90, R91). -/
def queryEngine (cfg : Config) (alg : BitVec 8) (dlen : BitVec 16) (value : Params → Nat) (e : Engine) : Engine :=
  match registryLookup cfg alg dlen with
  | .error st => e.replyError st
  | .ok p => e.respond .ok (BitVec.ofNat 16 (value p)) []

/-- QDLEN (R90). -/
def execQdlen (alg : BitVec 8) (dlen : BitVec 16) (s : State) : Host.Outcome State Fault Refusal :=
  onEngine s fun e => .next (queryEngine s.cfg alg dlen (fun p => p.dlen / 8) e)

/-- QBLK (R91). -/
def execQblk (alg : BitVec 8) (dlen : BitVec 16) (s : State) : Host.Outcome State Fault Refusal :=
  onEngine s fun e => .next (queryEngine s.cfg alg dlen (fun p => p.blockBytes) e)

end Sys2Proof.Machine
end

