-- ==== Sys2Proof/Machine/Dispatch.lean ====
section
/-! DEFINITION. Dispatch: one arm per constructor of Instr, each one direct call of its meaning (40_commands.md R83). -/

namespace Sys2Proof.Machine

def exec (i : Instr) (s : State) : Host.Outcome State Fault Refusal :=
  match i with
  | .init alg dlen => Sys2Proof.Machine.execInit alg dlen s
  | .update bitlen payload => Sys2Proof.Machine.execUpdate bitlen payload s
  | .final => Sys2Proof.Machine.execFinal s
  | .drop => Sys2Proof.Machine.execDrop s
  | .qdlen alg dlen => Sys2Proof.Machine.execQdlen alg dlen s
  | .qblk alg dlen => Sys2Proof.Machine.execQblk alg dlen s

end Sys2Proof.Machine
end

