-- ==== Sys2Proof/Machine/Wire.lean ====
section
/-! DEFINITION. The wire: the decoder of a command channel (30_encoding.md R69), the execution of the record it
delivers (40_commands.md R83), and the host's events (20_memory.md R62, 70_reset_and_hazards.md R199). -/

namespace Sys2Proof.Machine

/-- One word into the decoder: its new state, and the record that is complete with this word, if any (R69). -/
def rxStep (r : Rx) (x : Word) : Rx × Option Command :=
  match r.phase with
  | .hdr =>
    if opcField x = 2 then ({ r with hdr := x, phase := .lenLo }, none) else (r, some ⟨x, 0, []⟩)
  | .lenLo => ({ r with lo := x, phase := .lenHi }, none)
  | .lenHi =>
    let bitlen := bitlenOf r.lo x
    if bitlen = 0 then ({ r with bitlen := bitlen, data := [], phase := .hdr }, some ⟨r.hdr, 0, []⟩)
    else ({ r with bitlen := bitlen, data := [], phase := .payload }, none)
  | .payload =>
    let data := r.data ++ unpackWord x
    if data.length ≥ payloadBytes r.bitlen then
      ({ r with data := data, phase := .hdr }, some ⟨r.hdr, r.bitlen, data.take (payloadBytes r.bitlen)⟩)
    else ({ r with data := data }, none)

/-- The records that a sequence of words completes, in order, and the decoder after them (R69). -/
def rxRun (r : Rx) : List Word → Rx × List Command
  | [] => (r, [])
  | x :: xs =>
    let (r', c) := rxStep r x
    let (r'', cs) := rxRun r' xs
    (r'', c.toList ++ cs)

/-- An illegal record: the IllegalCommand response, no state change (R75, R83). -/
def execIllegal (s : State) : Host.Outcome State Fault Refusal :=
  onEngine s fun e => .next (e.replyError .illegalCommand)

/-- The record delivered by the decoder is executed (R69, R83). -/
def execCommand (c : Command) (s : State) : Host.Outcome State Fault Refusal :=
  match decodeCommand c with
  | .ok i => exec i s
  | .error _ => execIllegal s

/-- The state in which a record that engine e's decoder has just completed is executed: the decoder moved on, the port
that of e. -/
def State.deliver (s : State) (e : Nat) (eng : Engine) (r : Rx) : State :=
  { s.setEngine e { eng with rx := r } with port := e }

/-- A word arrives at engine e (R69): the decoder takes it, and when it completes a record the engine executes it in
the same step (20_memory.md R52). -/
def acceptWord (e : Nat) (x : Word) (s : State) : Host.Outcome State Fault Refusal :=
  match s.engines[e]? with
  | none => .refused (.noSuchEngine e)
  | some eng =>
    match rxStep eng.rx x with
    | (r, none) => .next (s.setEngine e { eng with rx := r })
    | (r, some c) => execCommand c (s.deliver e eng r)

/-- The reset signal on engine e (R199). -/
def resetEngine (e : Nat) (s : State) : Host.Outcome State Fault Refusal :=
  match s.engines[e]? with
  | none => .refused (.noSuchEngine e)
  | some eng => .next (s.setEngine e eng.applyReset)

/-- The reset signal on all engines together (R199). -/
def resetAllEngines (s : State) : State := { s with engines := s.engines.map Engine.applyReset }

/-- A host event is taken (R62). -/
def takeEvent (ev : HostEvent) (s : State) : Host.Outcome State Fault Refusal :=
  match ev with
  | .word e x => acceptWord e x s
  | .reset e => resetEngine e s
  | .resetAll => .next (resetAllEngines s)

/-- The decoder of an engine at the end of all the given words but the last, from a command boundary: it waits for the
last word, which completes the record. -/
def rxBeforeLast (r : Rx) (xs : List Word) : Rx := (rxRun { r with phase := .hdr } xs.dropLast).1

end Sys2Proof.Machine
end

