-- ==== Sys2Proof/Machine/Step.lean ====
section
/-! DEFINITION. One step of the machine: the oldest host event is taken. With no event pending the engines hold their
state (60_exceptions.md R198, 70_reset_and_hazards.md R206, R209; log 14). -/

namespace Sys2Proof.Machine

/-- One step. -/
def step (s : State) : Host.Outcome State Fault Refusal :=
  match s.input with
  | [] => .next s
  | ev :: rest => takeEvent ev { s with input := rest }

/-- The state in which the very next step runs the instruction whose bits are w: the port's decoder has taken all its
words but the last, and the last is the oldest host event (log 2). -/
def State.withFetchWord (s : State) (nbits w : Nat) : State :=
  let xs := tableWords nbits w
  match s.engines[s.port]? with
  | none => s
  | some eng =>
    { s.setEngine s.port { eng with rx := rxBeforeLast eng.rx xs } with
      input := .word s.port (xs.getLastD 0) :: s.input }

end Sys2Proof.Machine
end

