-- ==== Sys2Proof/Safety.lean ====
section
/-! DEFINITION. What the statements are made of: the invariants an engine keeps between commands (10_state.md R36,
R37), runs of commands on one engine, the host events that concern one engine (20_memory.md R56), and the blockwise
reading of the accumulator (42_pipeline.md R101). -/

namespace Sys2Proof.Machine

/-! ## The invariants of 10_state.md R36 and R37 -/

/-- A live context of the variant p: R36 items 2, 3 and 5, the length limit of 41_registry.md R98, and the families
that may hold a partial byte (41_registry.md R97). -/
structure LiveCtx (cfg : Config) (c : Ctx) (p : Params) : Prop where
  variant : variantOf c.alg c.dlen = some p
  supported : p.family ∈ cfg.algSupported
  bufLen_lt : c.bufLen.toNat < p.blockBytes
  msgBits_eq : c.msgBits.toNat = 8 * p.blockBytes * c.blockCount.toNat + 8 * c.bufLen.toNat + c.partialBits.toNat
  within : withinLimit p c.msgBits.toNat = true
  tailAccepted : c.partialBits ≠ 0 → acceptsPartial cfg p.family = true

/-- R36 for one context: items 1 (with 3 for a cleared context), 2 to 5 through `LiveCtx`, 4 and 6. -/
structure CtxInv (cfg : Config) (c : Ctx) : Prop where
  cleared : c.state = .idle ∨ c.state = .finalized → c = { Ctx.reset with state := c.state }
  live : c.state = .active ∨ c.state = .tail → ∃ p, LiveCtx cfg c p
  partialBits_iff : c.partialBits ≠ 0 ↔ c.state = .tail
  nullt_eq : c.nullt = false

/-- R37 for one decoder: outside HDR an UPDATE is pending, in PAYLOAD it still lacks bytes, and the bytes collected
are whole words within the bound of R37. -/
structure RxInv (r : Rx) : Prop where
  pending : r.phase ≠ .hdr → opcField r.hdr = 2
  waiting : r.phase = .payload → r.data.length < payloadBytes r.bitlen
  wholeWords : r.data.length % 4 = 0
  bound : r.data.length ≤ 4 * payloadWords r.bitlen

/-- The invariant of the machine between steps. -/
structure StateInv (s : State) : Prop where
  engines_length : s.engines.length = s.cfg.nEngines
  port_lt : s.port < s.cfg.nEngines
  ctx : ∀ e ∈ s.engines, CtxInv s.cfg e.ctx
  rx : ∀ e ∈ s.engines, RxInv e.rx

/-! ## Runs -/

/-- n steps of the machine, stopping at the first fault or refusal: Host/Core.lean's run of it. -/
def runSteps (n : Nat) (s : State) : Host.Outcome State Fault Refusal := Host.Core.run core n s

/-- Commands executed one after another on the engine of the port (20_memory.md R55). -/
def runInstrs : List Instr → State → Host.Outcome State Fault Refusal
  | [], s => .next s
  | i :: is, s =>
    match exec i s with
    | .next s' => runInstrs is s'
    | .fault r => .fault r
    | .refused r => .refused r

/-- What engine e has emitted after the commands, when all of them complete. -/
def responsesAfter (is : List Instr) (s : State) (e : Nat) : Option (List Word) :=
  match runInstrs is s with
  | .next s' => (s'.engines[e]?).map Engine.resp
  | .fault _ => none
  | .refused _ => none

/-- The UPDATE of a string of whole bytes (30_encoding.md R81, UPDATEX). -/
def updateBytes (bytes : Bytes) : Instr := .update (BitVec.ofNat 64 (8 * bytes.length)) bytes

/-- The events that engine e takes part in: its words and its resets (20_memory.md R62, 70_reset_and_hazards.md
R199). -/
def concerns (e : Nat) : HostEvent → Bool
  | .word e' _ => e' == e
  | .reset e' => e' == e
  | .resetAll => true

/-! ## The accumulator, block by block (42_pipeline.md R101) -/

/-- The full blocks of B bytes that a byte string opens with. -/
def fullBlocks (B : Nat) (s : Bytes) : List Bytes := (List.range (s.length / B)).map fun j => (s.drop (j * B)).take B

/-- One block of a message after count blocks: the core with counter `8·B·(count + 1)` and nullt 0, and the count
(R100, R104, 43_blake.md R121). -/
def messageBlock (p : Params) (x : Chain × Nat) (block : Bytes) : Chain × Nat :=
  (compress p x.1 block (8 * p.blockBytes * (x.2 + 1)) false, x.2 + 1)

end Sys2Proof.Machine
end

