-- ==== Sys2Proof/Certificates/Slice0/Obligations.lean ====
section
/-! DEFINITION. The statements about the model, for the provers. Each docstring names the rules of spec/ it rests on.
A command runs on the engine of the port: `s.engines[s.port]? = some eng` says that this engine is `eng`, and
`s.setEngine s.port eng'` is the machine in which nothing but that engine has changed, so an equation that ends in it
is the command's frame as well. -/

section Slice0Obligations

open Sys2Proof Sys2Proof.Machine

/-! ## Encoding -/

/-- Decoding the words of a well-formed command gives it back, with every operand, and leaves the words after it (R66,
R68, R74). -/
def Obligations.EncodeThenDecode : Prop :=
  ∀ (i : Instr) (rest : List Word), i.wf = true → decodeWords (encode i ++ rest) = .ok (i, rest)

/-- A one-word command is decoded from exactly one word, its fields side by side: OPC, ALG, DLEN (R64, R68, R74). -/
def Obligations.OneWordCommandsDecode : Prop :=
  ∀ (xs rest : List Word) (alg : BitVec 8) (dlen : BitVec 16),
    (decodeWords xs = .ok (.init alg dlen, rest) ↔ xs = (0x01#8 ++ alg ++ dlen : BitVec 32) :: rest) ∧
    (decodeWords xs = .ok (.qdlen alg dlen, rest) ↔ xs = (0x05#8 ++ alg ++ dlen : BitVec 32) :: rest) ∧
    (decodeWords xs = .ok (.qblk alg dlen, rest) ↔ xs = (0x06#8 ++ alg ++ dlen : BitVec 32) :: rest) ∧
    (decodeWords xs = .ok (.final, rest) ↔ xs = 0x03000000#32 :: rest) ∧
    (decodeWords xs = .ok (.drop, rest) ↔ xs = 0x04000000#32 :: rest)

/-- UPDATE is decoded from exactly the command word 0x02000000, the two length words and the payload words, payload
byte 4k + j being bits [8j+7 : 8j] of payload word k; the padding bytes of the last word may be anything (R66,
R67). -/
def Obligations.UpdateDecodes : Prop :=
  ∀ (xs rest : List Word) (bitlen : BitVec 64) (payload : Bytes),
    decodeWords xs = .ok (.update bitlen payload, rest) ↔
      payload.length = (bitlen.toNat + 7) / 8 ∧
      ∃ ps : List Word, ps.length = (payload.length + 3) / 4 ∧
        xs = 0x02000000#32 :: bitlen.extractLsb' 0 32 :: bitlen.extractLsb' 32 32 :: (ps ++ rest) ∧
        ∀ (i : Nat) (b : Byte), payload[i]? = some b → b = (ps.getD (i / 4) 0).extractLsb' (8 * (i % 4)) 8

/-- The worked encodings and response words of R82, those of QDLEN and QBLK as any engine that supports the family
appends them to what it has emitted. -/
def Obligations.WorkedEncodings : Prop :=
  (encode (.init 1 256) = [0x01010100] ∧ encode (.init 2 224) = [0x010200E0] ∧
    encode (.init 3 320) = [0x01030140] ∧ encode (.init 4 512) = [0x01040200] ∧
    encode (.init 5 512) = [0x01050200] ∧ encode (.init 6 256) = [0x01060100] ∧
    encode (.init 7 512) = [0x01070200] ∧ encode (.init 8 32) = [0x01080020] ∧
    encode (.init 9 32) = [0x01090020] ∧
    encode (.update 24 [0x61, 0x62, 0x63]) = [0x02000000, 0x00000018, 0x00000000, 0x00636261] ∧
    encode (.update 0 []) = [0x02000000, 0x00000000, 0x00000000] ∧
    encode (.update 5 [0xA8]) = [0x02000000, 0x00000005, 0x00000000, 0x000000A8] ∧
    encode .final = [0x03000000] ∧ encode .drop = [0x04000000] ∧ encode (.qdlen 2 0) = [0x05020000] ∧
    encode (.qblk 7 0) = [0x06070000] ∧ encode (.qblk 2 384) = [0x06020180]) ∧
  (decodeWords [0x01010100] = .ok (.init 1 256, []) ∧ decodeWords [0x010200E0] = .ok (.init 2 224, []) ∧
    decodeWords [0x02000000, 0x00000018, 0x00000000, 0x00636261] = .ok (.update 24 [0x61, 0x62, 0x63], []) ∧
    decodeWords [0x02000000, 0x00000000, 0x00000000] = .ok (.update 0 [], []) ∧
    decodeWords [0x02000000, 0x00000005, 0x00000000, 0x000000A8] = .ok (.update 5 [0xA8], []) ∧
    decodeWords [0x03000000] = .ok (.final, []) ∧ decodeWords [0x04000000] = .ok (.drop, []) ∧
    decodeWords [0x05020000] = .ok (.qdlen 2 0, []) ∧ decodeWords [0x06020180] = .ok (.qblk 2 384, []) ∧
    decodeWords [0x03000001] = .error (.reservedBits 3)) ∧
  (responseWord .ok 0 = 0x00000000 ∧
    (∀ d : Bytes, d.length = 32 → ∃ ws, ws.length = 8 ∧ respondWords .ok 32 d = 0x00200000 :: ws) ∧
    (∀ (s : State) (eng : Engine), s.engines[s.port]? = some eng → .groestl ∈ s.cfg.algSupported →
      exec (.qdlen 2 0) s = .next (s.setEngine s.port { eng with resp := eng.resp ++ [0x00400000] })) ∧
    (∀ (s : State) (eng : Engine), s.engines[s.port]? = some eng → .lsh512 ∈ s.cfg.algSupported →
      exec (.qblk 7 0) s = .next (s.setEngine s.port { eng with resp := eng.resp ++ [0x01000000] })) ∧
    responseWord .unsupportedAlgorithm 0 = 0x00000001 ∧ responseWord .alreadyFinalized 0 = 0x00000004 ∧
    responseWord .illegalCommand 0 = 0x00000007)

/-- The illegal records are exactly those of R75, and each is answered IllegalCommand, with nothing else changed. -/
def Obligations.IllegalCommands : Prop :=
  ∀ c : Command,
    ((∃ err, decodeCommand c = .error err) ↔
      (opcField c.hdr = 0 ∨ 7 ≤ (opcField c.hdr).toNat ∨
        ((opcField c.hdr = 2 ∨ opcField c.hdr = 3 ∨ opcField c.hdr = 4) ∧ c.hdr.extractLsb' 0 24 ≠ 0))) ∧
    ∀ (err : DecodeError) (s : State) (eng : Engine), decodeCommand c = .error err →
      s.engines[s.port]? = some eng →
      execCommand c s = .next (s.setEngine s.port { eng with resp := eng.resp ++ [0x00000007] })

/-! ## The wire -/

/-- A step takes the oldest host word: when it completes a record whose header is a command's, the step is `exec` of
that command, the decoder moved on and the port the word's; when it completes an illegal record, the decoder moves on,
the port is the word's, and that engine answers IllegalCommand, 0x00000007, with nothing else changed; when it completes
none, only the decoder moves; with no event pending, the step changes nothing (R69, R75, R83, R206). -/
def Obligations.StepRunsTheDecodedInstruction : Prop :=
  ∀ (s : State) (e : Nat) (x : Word) (rest : List HostEvent) (eng : Engine) (r : Rx),
    s.engines[e]? = some eng → s.input = .word e x :: rest →
      (∀ (c : Command) (i : Instr), rxStep eng.rx x = (r, some c) → decodeCommand c = .ok i →
        step s = exec i { s with
          input := rest
          engines := s.engines.set e { eng with rx := r }
          port := e }) ∧
      (∀ (c : Command) (err : DecodeError), rxStep eng.rx x = (r, some c) → decodeCommand c = .error err →
        step s = .next { s with
          input := rest
          engines := s.engines.set e { eng with rx := r, resp := eng.resp ++ [0x00000007] }
          port := e }) ∧
      (rxStep eng.rx x = (r, none) →
        step s = .next { s with input := rest, engines := s.engines.set e { eng with rx := r } }) ∧
      step { s with input := [] } = .next { s with input := [] }

/-- A well-formed command sent word by word to engine e, from a command boundary, is executed once, with its last
word, and leaves the decoder at a command boundary (R66, R69, R70). -/
def Obligations.WireRunsEncodedCommand : Prop :=
  ∀ (s : State) (e : Nat) (eng : Engine) (i : Instr) (rest : List HostEvent),
    i.wf = true → s.engines[e]? = some eng → eng.rx.phase = .hdr →
    s.input = (encode i).map (HostEvent.word e) ++ rest →
    ∃ r : Rx, r.phase = .hdr ∧
      runSteps (encode i).length s =
        exec i { s with
          input := rest
          engines := s.engines.set e { eng with rx := r }
          port := e }

/-- Wire form and record form agree: the words of well-formed records deliver those records and nothing else, and
every record the decoder delivers from a command boundary is well formed (R69, R70). -/
def Obligations.WireAndRecordFormsAgree : Prop :=
  ∀ r : Rx, r.phase = .hdr →
    (∀ cs : List Command, (∀ c ∈ cs, c.wf = true) →
      ∃ r', r'.phase = .hdr ∧ rxRun r (cs.flatMap Command.words) = (r', cs)) ∧
    (∀ xs : List Word, ∀ c ∈ (rxRun r xs).2, c.wf = true)

/-- An illegal UPDATE is framed by its BITLEN and consumes its payload, whatever the payload words hold: one response,
no context field changed, the next command found where the host put it (R69, R75). -/
def Obligations.IllegalUpdateConsumesItsPayload : Prop :=
  ∀ (s : State) (e : Nat) (eng : Engine) (hdr lo hi : Word) (ps : List Word) (rest : List HostEvent),
    s.engines[e]? = some eng → eng.rx.phase = .hdr →
    hdr.extractLsb' 24 8 = 2 → hdr.extractLsb' 0 24 ≠ 0 →
    ps.length = ((lo.toNat + 2 ^ 32 * hi.toNat + 7) / 8 + 3) / 4 →
    s.input = (hdr :: lo :: hi :: ps).map (HostEvent.word e) ++ rest →
    ∃ r : Rx, r.phase = .hdr ∧
      runSteps (3 + ps.length) s =
        .next { s with
          input := rest
          port := e
          engines := s.engines.set e { eng with rx := r, resp := eng.resp ++ [0x00000007] } }

/-- An UPDATE whose words stop early leaves the engine waiting: it has answered nothing, and steps go on changing
nothing (R206). -/
def Obligations.IncompleteUpdateWaits : Prop :=
  ∀ (s : State) (e : Nat) (eng : Engine) (c : Command) (xs : List Word),
    s.engines[e]? = some eng → eng.rx.phase = .hdr → c.wf = true → opcField c.hdr = 2 →
    xs ≠ [] → xs <+: c.words → xs ≠ c.words → s.input = xs.map (HostEvent.word e) →
    ∃ r : Rx, r.phase ≠ .hdr ∧
      ∀ n, runSteps (xs.length + n) s =
        .next { s with input := [], engines := s.engines.set e { eng with rx := r } }

/-! ## Reset -/

/-- After power-up every engine holds the values of R41, whatever the parameters. -/
def Obligations.ResetValues : Prop :=
  ∀ cfg : Config, (State.resetWith cfg).engines.length = cfg.nEngines ∧
    ∀ eng ∈ (State.resetWith cfg).engines,
      eng.ctx.state.code = 0 ∧ eng.ctx.state = .idle ∧ eng.ctx.alg = 0 ∧ eng.ctx.dlen = 0 ∧ eng.ctx.msgBits = 0 ∧
      eng.ctx.blockCount = 0 ∧ (∀ i : Fin 256, eng.ctx.buf[i] = 0) ∧ eng.ctx.bufLen = 0 ∧
      eng.ctx.partialBits = 0 ∧ eng.ctx.nullt = false ∧ (∀ i : Fin 128, eng.ctx.chain[i] = 0) ∧
      eng.rx.phase = .hdr ∧ eng.rx.hdr = 0 ∧ eng.rx.lo = 0 ∧ eng.rx.bitlen = 0 ∧ eng.rx.data = []

/-- The reset signal brings one engine, or every engine, to the values of R41, from the middle of an UPDATE too; it
emits no response and touches no other engine, and the next word is read as a command word (R199). -/
def Obligations.ResetSignal : Prop :=
  ∀ (s : State) (rest : List HostEvent),
    (∀ (e : Nat) (eng : Engine), s.engines[e]? = some eng → s.input = .reset e :: rest →
      step s = .next { s with
        input := rest
        engines := s.engines.set e { eng with ctx := Engine.reset.ctx, rx := Engine.reset.rx } }) ∧
    (s.input = .resetAll :: rest →
      step s = .next { s with
        input := rest
        engines := s.engines.map fun eng => { eng with ctx := Engine.reset.ctx, rx := Engine.reset.rx } }) ∧
    Engine.reset.ctx.state = .idle ∧ Engine.reset.rx.phase = .hdr ∧
    (∀ cfg : Config, (State.resetWith cfg).engines = List.replicate cfg.nEngines Engine.reset)

/-- Reset and DROP leave the same context, IDLE with every field 0. DROP answers and reset does not; reset clears the
decoder, and a record reaches the engine only with the decoder at a command boundary (R200). -/
def Obligations.ResetAndDrop : Prop :=
  ∀ (s : State) (eng : Engine), s.engines[s.port]? = some eng →
    (∃ e1 e2 : Engine, exec .drop s = .next (s.setEngine s.port e1) ∧
      resetEngine s.port s = .next (s.setEngine s.port e2) ∧
      e1.ctx = e2.ctx ∧ e1.ctx.state = .idle ∧ e1.ctx = Ctx.reset ∧
      e1.resp = eng.resp ++ [0x00000000] ∧ e2.resp = eng.resp ∧
      e1.rx = eng.rx ∧ e2.rx = Rx.reset) ∧
    ∀ (r r' : Rx) (x : Word) (c : Command), rxStep r x = (r', some c) → r'.phase = .hdr

/-! ## INIT -/

/-- INIT with a supported code and a legal digest length completes in every lifecycle state with a fresh context of
the variant: its IV in the chaining state, every other field 0, ACTIVE (R86). Where the IV's bytes stand in the
storage is the model's choice (log 6). -/
def Obligations.InitStartsFreshContext : Prop :=
  ∀ (s : State) (eng : Engine) (alg : BitVec 8) (dlen : BitVec 16) (f : Family),
    s.engines[s.port]? = some eng → f ∈ s.cfg.algSupported → alg = familyCode f →
    legalDlen f dlen.toNat = true →
    ∃ c : Ctx,
      exec (.init alg dlen) s =
        .next (s.setEngine s.port { eng with ctx := c, resp := eng.resp ++ [0x00000000] }) ∧
      c.state = .active ∧ c.alg = alg ∧ c.dlen = dlen ∧
      c.chain = Chain.ofBytes (initialValue (paramsOf f dlen.toNat)) ∧
      c.msgBits = 0 ∧ c.blockCount = 0 ∧ c.bufLen = 0 ∧ c.partialBits = 0 ∧ c.nullt = false ∧
      ∀ i : Fin 256, c.buf[i] = 0

/-- INIT answers UnsupportedAlgorithm for a code outside ALG_SUPPORTED, whatever the length, and BadHashLength for a
supported code with length 0 or an illegal length; the previous context stays as it was (R84, R86, R187). -/
def Obligations.InitErrors : Prop :=
  ∀ (s : State) (eng : Engine) (alg : BitVec 8) (dlen : BitVec 16), s.engines[s.port]? = some eng →
    ((∀ f ∈ s.cfg.algSupported, alg ≠ familyCode f) →
      exec (.init alg dlen) s = .next (s.setEngine s.port { eng with resp := eng.resp ++ [0x00000001] })) ∧
    (∀ f ∈ s.cfg.algSupported, alg = familyCode f → dlen = 0 ∨ legalDlen f dlen.toNat = false →
      exec (.init alg dlen) s = .next (s.setEngine s.port { eng with resp := eng.resp ++ [0x00000002] }))

/-! ## UPDATE -/

/-- UPDATE is rejected by the lifecycle first, whatever its length: NoContext in IDLE, AlreadyFinalized in FINALIZED,
NonByteAlignedMidStream in TAIL; in ACTIVE a bit count that is no multiple of 8 is rejected outside
PARTIAL_BIT_FAMILIES. Nothing but the response changes (R84, R87, R187). -/
def Obligations.UpdateErrors : Prop :=
  ∀ (s : State) (eng : Engine) (bitlen : BitVec 64) (payload : Bytes),
    s.engines[s.port]? = some eng → payload.length = (bitlen.toNat + 7) / 8 →
    (eng.ctx.state = .idle →
      exec (.update bitlen payload) s =
        .next (s.setEngine s.port { eng with resp := eng.resp ++ [0x00000006] })) ∧
    (eng.ctx.state = .finalized →
      exec (.update bitlen payload) s =
        .next (s.setEngine s.port { eng with resp := eng.resp ++ [0x00000004] })) ∧
    (eng.ctx.state = .tail →
      exec (.update bitlen payload) s =
        .next (s.setEngine s.port { eng with resp := eng.resp ++ [0x00000003] })) ∧
    (∀ p, eng.ctx.state = .active → variantOf eng.ctx.alg eng.ctx.dlen = some p →
      bitlen.toNat % 8 ≠ 0 → (p.family ≠ .groestl ∨ s.cfg.partialBitFamilies = .none) →
      exec (.update bitlen payload) s =
        .next (s.setEngine s.port { eng with resp := eng.resp ++ [0x00000003] }))

/-- An UPDATE in ACTIVE whose bit count the family accepts raises the model fault exactly when the message would pass its
family's limit, and otherwise completes (R87, R186). The limits are those of R98: fewer than 2^64 bits for BLAKE up to
256 bits, RMD-320 and the CRCs, 2^128 for longer BLAKE, JH and LSH, 2^256 for Whirlpool, and for Groestl the lengths N
with `ceil((N + 65) / (8·B))` at most 2^64 - 1, where 8·B is 512 or 1024. -/
def Obligations.UpdateLengthLimit : Prop :=
  ∀ (s : State) (eng : Engine) (p : Params) (bitlen : BitVec 64) (payload : Bytes) (limit : Nat),
    s.engines[s.port]? = some eng → payload.length = (bitlen.toNat + 7) / 8 →
    eng.ctx.state = .active → variantOf eng.ctx.alg eng.ctx.dlen = some p →
    (bitlen.toNat % 8 ≠ 0 → acceptsPartial s.cfg p.family = true) →
    limit = (match p.family with
      | .blake => if p.dlen ≤ 256 then 2 ^ 64 else 2 ^ 128
      | .groestl => (if p.dlen ≤ 256 then 512 else 1024) * (2 ^ 64 - 1) - 64
      | .rmd320 => 2 ^ 64
      | .whirlpool => 2 ^ 256
      | .jh => 2 ^ 128
      | .lsh256 => 2 ^ 128
      | .lsh512 => 2 ^ 128
      | .crc32 => 2 ^ 64
      | .cksum => 2 ^ 64) →
    (exec (.update bitlen payload) s = .fault .lengthLimit ↔ limit ≤ eng.ctx.msgBits.toNat + bitlen.toNat) ∧
    ((∃ s', exec (.update bitlen payload) s = .next s') ↔ eng.ctx.msgBits.toNat + bitlen.toNat < limit) ∧
    (∀ n : Nat, withinLimit p n = true ↔ n < limit)

/-- An accepted UPDATE, block by block. Let m be the buffered bytes followed by the whole payload bytes. Every full
block of m goes through the core, in order, each counted; the rest of m is buffered; BITLEN is added to the bit count.
A partial byte is stored after the buffered bytes with its low bits 0, and the context is then in TAIL. Every other
field, and every other engine, stays (R87, R100, R101, R102, R104). -/
def Obligations.UpdateAbsorbsBlockwise : Prop :=
  ∀ (s : State) (eng : Engine) (p : Params) (bitlen : BitVec 64) (payload : Bytes),
    s.engines[s.port]? = some eng → payload.length = (bitlen.toNat + 7) / 8 →
    eng.ctx.state = .active → eng.ctx.partialBits = 0 → LiveCtx s.cfg eng.ctx p →
    (bitlen.toNat % 8 ≠ 0 → acceptsPartial s.cfg p.family = true) →
    withinLimit p (eng.ctx.msgBits.toNat + bitlen.toNat) = true →
    ∃ (c : Ctx) (m : Bytes),
      exec (.update bitlen payload) s =
        .next (s.setEngine s.port { eng with ctx := c, resp := eng.resp ++ [0x00000000] }) ∧
      m = eng.ctx.buf.toList.take eng.ctx.bufLen.toNat ++ payload.take (bitlen.toNat / 8) ∧
      (c.chain, c.blockCount.toNat) =
        (fullBlocks p.blockBytes m).foldl (messageBlock p) (eng.ctx.chain, eng.ctx.blockCount.toNat) ∧
      c.bufLen.toNat = m.length % p.blockBytes ∧
      c.buf.toList.take c.bufLen.toNat = m.drop (p.blockBytes * (m.length / p.blockBytes)) ∧
      c.msgBits.toNat = eng.ctx.msgBits.toNat + bitlen.toNat ∧
      c.alg = eng.ctx.alg ∧ c.dlen = eng.ctx.dlen ∧ c.nullt = eng.ctx.nullt ∧
      (bitlen.toNat % 8 = 0 → c.state = .active ∧ c.partialBits = 0) ∧
      (bitlen.toNat % 8 ≠ 0 → c.state = .tail ∧ c.partialBits.toNat = bitlen.toNat % 8 ∧
        c.buf.toList[c.bufLen.toNat]? =
          some ((payload.getD (bitlen.toNat / 8) 0) &&& ((0xFF : Byte) <<< (8 - bitlen.toNat % 8))))

/-- UPDATE with BITLEN 0 in ACTIVE answers OK and changes nothing else (R87). -/
def Obligations.EmptyUpdateChangesNothing : Prop :=
  ∀ (s : State) (eng : Engine) (p : Params),
    s.engines[s.port]? = some eng → eng.ctx.state = .active → LiveCtx s.cfg eng.ctx p →
    exec (.update 0 []) s = .next (s.setEngine s.port { eng with resp := eng.resp ++ [0x00000000] })

/-- The bits of a partial byte below its valid bits change nothing: two payloads that agree on the BITLEN message bits
are the same command to the engine (R48, R67). -/
def Obligations.UpdateIgnoresLowBits : Prop :=
  ∀ (s : State) (bitlen : BitVec 64) (payload payload' : Bytes),
    payload.length = payload'.length →
    (∀ i, i < bitlen.toNat / 8 → payload[i]? = payload'[i]?) →
    (∀ b b' : Byte, payload[bitlen.toNat / 8]? = some b → payload'[bitlen.toNat / 8]? = some b' →
      ∀ j, 8 - bitlen.toNat % 8 ≤ j → j < 8 → b.getLsbD j = b'.getLsbD j) →
    exec (.update bitlen payload) s = exec (.update bitlen payload') s

/-! ## FINAL -/

/-- FINAL in ACTIVE or TAIL completes: it answers OK with the digest length in bytes and the digest of the context,
packed little-endian, and leaves FINALIZED with every other field 0 (R88, R109). What the digest is, family by family,
is said by the statements of the final blocks, by TransformByFamily and by OutputByFamily. -/
def Obligations.FinalEmitsDigest : Prop :=
  ∀ (s : State) (eng : Engine) (p : Params),
    s.engines[s.port]? = some eng → eng.ctx.state = .active ∨ eng.ctx.state = .tail →
    variantOf eng.ctx.alg eng.ctx.dlen = some p →
    ∃ c : Ctx,
      exec .final s =
        .next (s.setEngine s.port { eng with
          ctx := c
          resp := eng.resp ++ BitVec.ofNat 32 (2 ^ 16 * (eng.ctx.dlen.toNat / 8)) :: packWords (digest p eng.ctx) }) ∧
      c.state = .finalized ∧ c.alg = 0 ∧ c.dlen = 0 ∧ c.msgBits = 0 ∧ c.blockCount = 0 ∧ c.bufLen = 0 ∧
      c.partialBits = 0 ∧ c.nullt = false ∧ (∀ i : Fin 256, c.buf[i] = 0) ∧ ∀ i : Fin 128, c.chain[i] = 0

/-- FINAL without a context answers NoContext, and FINAL on a consumed context AlreadyFinalized, with no digest and
nothing else changed (R84, R88, R204). -/
def Obligations.FinalErrors : Prop :=
  ∀ (s : State) (eng : Engine), s.engines[s.port]? = some eng →
    (eng.ctx.state = .idle →
      exec .final s = .next (s.setEngine s.port { eng with resp := eng.resp ++ [0x00000006] })) ∧
    (eng.ctx.state = .finalized →
      exec .final s = .next (s.setEngine s.port { eng with resp := eng.resp ++ [0x00000004] }))

/-- A successful FINAL emits exactly `ctx.dlen / 8` digest bytes, in `ceil(ctx.dlen / 32)` data words, and that length
is the VALUE QDLEN answers for the same ALG and DLEN (R79, R112). -/
def Obligations.DigestLength : Prop :=
  ∀ (s : State) (eng : Engine) (p : Params),
    s.engines[s.port]? = some eng → eng.ctx.state = .active ∨ eng.ctx.state = .tail →
    variantOf eng.ctx.alg eng.ctx.dlen = some p → p.family ∈ s.cfg.algSupported →
    ∃ (d : Bytes) (c : Ctx) (v : BitVec 16), d.length = eng.ctx.dlen.toNat / 8 ∧ v.toNat = d.length ∧
      (packWords d).length = (eng.ctx.dlen.toNat + 31) / 32 ∧
      exec .final s =
        .next (s.setEngine s.port { eng with ctx := c, resp := eng.resp ++ responseWord .ok v :: packWords d }) ∧
      exec (.qdlen eng.ctx.alg eng.ctx.dlen) s =
        .next (s.setEngine s.port { eng with resp := eng.resp ++ [responseWord .ok v] })

/-- How many blocks FINAL transforms, from the bytes buffered: the thresholds of R99. Each final block is one block
long (R105). -/
def Obligations.FinalBlockCount : Prop :=
  ∀ (cfg : Config) (c : Ctx) (p : Params), LiveCtx cfg c p →
    (∀ b ∈ finalBlocks p c, b.block.length = p.blockBytes) ∧
    (finalBlocks p c).length =
      (match p.family with
        | .blake => if p.dlen ≤ 256 then (if c.bufLen.toNat ≤ 55 then 1 else 2)
          else (if c.bufLen.toNat ≤ 111 then 1 else 2)
        | .rmd320 => if c.bufLen.toNat ≤ 55 then 1 else 2
        | .whirlpool => if c.bufLen.toNat ≤ 31 then 1 else 2
        | .groestl => if p.dlen ≤ 256 then (if c.bufLen.toNat ≤ 55 then 1 else 2)
          else (if c.bufLen.toNat ≤ 119 then 1 else 2)
        | .jh => if c.bufLen.toNat = 0 then 1 else 2
        | .lsh256 => 1
        | .lsh512 => 1
        | .crc32 => 0
        | .cksum => 0) ∧
    (finalizeCtx p c).blockCount = c.blockCount + BitVec.ofNat 256 (finalBlocks p c).length ∧
    (finalizeCtx p c).nullt = false

/-- Merkle-Damgård padding: the final blocks of RMD-320 and of Whirlpool are the buffered bytes, 0x80, the fewest
zeros that reach a whole number of blocks, and the bit count in L bytes, little-endian and big-endian (R107, R142,
R153). -/
def Obligations.MerkleDamgardPadding : Prop :=
  ∀ (cfg : Config) (c : Ctx) (p : Params), LiveCtx cfg c p → p.family = .rmd320 ∨ p.family = .whirlpool →
    ∃ z : Nat, z < p.blockBytes ∧
      (c.bufLen.toNat + 1 + z + p.lengthBytes) % p.blockBytes = 0 ∧
      ((finalBlocks p c).map FinalBlock.block).flatten =
        c.buf.toList.take c.bufLen.toNat ++ [0x80] ++ List.replicate z 0 ++
          (if p.family = .rmd320 then encLE c.msgBits.toNat 8 else encBE c.msgBits.toNat 32)

/-- Groestl's final blocks. The buffered bytes m, then the byte x, then zeros, then the length field. With t bits of a
partial byte (t = 0 when there is none), x holds those t bits, the terminator bit after them and zeros, whatever the
bits below were: it is 0x80 when t = 0. One block when m leaves room, k ≤ B - 9, and two otherwise. The length field,
in the last block only, is `ceil((N + 65) / (8·B))` for the message length N, big-endian in 8 bytes, and that is the
number of blocks of the padded message (R133). -/
def Obligations.GroestlLengthField : Prop :=
  ∀ (cfg : Config) (c : Ctx) (p : Params) (B k : Nat) (m : Bytes) (total : Nat),
    LiveCtx cfg c p → p.family = .groestl → B = (if p.dlen ≤ 256 then 64 else 128) →
    k = c.bufLen.toNat → m = c.buf.toList.take k →
    total = (c.msgBits.toNat + 65 + (8 * B - 1)) / (8 * B) →
    ∃ x : Byte,
      (∀ j, j < 8 → x.getLsbD j =
        if 7 - j < c.partialBits.toNat then (c.buf.toList.getD k 0).getLsbD j
        else decide (7 - j = c.partialBits.toNat)) ∧
      (finalBlocks p c).map FinalBlock.block =
        (if k ≤ B - 9 then [m ++ [x] ++ List.replicate (B - 9 - k) 0 ++ encBE total 8]
         else [m ++ [x] ++ List.replicate (B - 1 - k) 0, List.replicate (B - 8) 0 ++ encBE total 8]) ∧
      (finalizeCtx p c).blockCount.toNat = total

/-- BLAKE's final blocks, with their counters and nullt arguments. The buffered bytes m, then 0x80, then zeros, with pb
(0x01 for 256 and 512 bits, 0x00 for 224 and 384) ORed into byte B - L - 1 of the last block, then the bit count N,
big-endian in L bytes. One block up to k = B - L - 1 buffered bytes, where 0x80 and pb share a byte, and two above. A
block with message bits has counter N and nullt 0, a block without any has counter 0 and nullt 1 (R122). -/
def Obligations.BlakeFinalization : Prop :=
  ∀ (cfg : Config) (c : Ctx) (p : Params) (B L k N : Nat) (m : Bytes) (pb : Byte),
    LiveCtx cfg c p → p.family = .blake → (B, L) = (if p.dlen ≤ 256 then (64, 8) else (128, 16)) →
    k = c.bufLen.toNat → m = c.buf.toList.take k → N = c.msgBits.toNat →
    pb = (if p.dlen = 256 ∨ p.dlen = 512 then 0x01 else 0x00) →
    (k < B - L - 1 → finalBlocks p c =
      [{ block := m ++ [0x80] ++ List.replicate (B - L - k - 2) 0 ++ [pb] ++ encBE N L
         t := if k = 0 then 0 else N
         nullt := decide (k = 0) }]) ∧
    (k = B - L - 1 → finalBlocks p c =
      [{ block := m ++ [0x80 ||| pb] ++ encBE N L, t := N, nullt := false }]) ∧
    (B - L - 1 < k → finalBlocks p c =
      [{ block := m ++ [0x80] ++ List.replicate (B - k - 1) 0, t := N, nullt := false },
       { block := List.replicate (B - L - 1) 0 ++ [pb] ++ encBE N L, t := 0, nullt := true }]) ∧
    (finalizeCtx p c).nullt = false

/-- With nullt = 1 the BLAKE core's result is that with counter 0 (R120). -/
def Obligations.BlakeNulltIsCounterZero : Prop :=
  ∀ (h32 : List (BitVec 32)) (h64 : List (BitVec 64)) (block : Bytes) (t : Nat),
    blakeCompress blake32 h32 block t true = blakeCompress blake32 h32 block 0 false ∧
    blakeCompress blake64 h64 block t true = blakeCompress blake64 h64 block 0 false

/-- JH pads a 1 bit, then `383 + ((-N) mod 512)` zero bits, then the 128-bit length (R165); LSH pads the one block
that holds the buffered bytes with 0x80 and zeros, and no length (R174). -/
def Obligations.JhAndLshPadding : Prop :=
  ∀ (cfg : Config) (c : Ctx) (p : Params), LiveCtx cfg c p →
    (p.family = .jh → ∃ z : Nat, 7 + 8 * z = 383 + (512 - c.msgBits.toNat % 512) % 512 ∧
      ((finalBlocks p c).map FinalBlock.block).flatten =
        c.buf.toList.take c.bufLen.toNat ++ [0x80] ++ List.replicate z 0 ++ encBE c.msgBits.toNat 16) ∧
    (p.family = .lsh256 ∨ p.family = .lsh512 →
      (finalBlocks p c).map FinalBlock.block =
        [c.buf.toList.take c.bufLen.toNat ++ [0x80] ++ List.replicate (p.blockBytes - 1 - c.bufLen.toNat) 0])

/-- Each block goes through the core of its family: R104, with BLAKE's counter and nullt. The chaining state stands in its
storage as the family's output orders its bytes, which is the model's choice (log 6). -/
def Obligations.TransformByFamily : Prop :=
  ∀ (alg : BitVec 8) (dlen : BitVec 16) (p : Params) (block : Bytes) (t : Nat) (nullt : Bool),
    variantOf alg dlen = some p →
    (p.family = .blake → p.dlen ≤ 256 → ∀ h : List (BitVec 32), h.length = 8 →
      compress p (Chain.ofBytes (bytesBE h)) block t nullt =
        Chain.ofBytes (bytesBE (blakeCompress blake32 h block t nullt))) ∧
    (p.family = .blake → 256 < p.dlen → ∀ h : List (BitVec 64), h.length = 8 →
      compress p (Chain.ofBytes (bytesBE h)) block t nullt =
        Chain.ofBytes (bytesBE (blakeCompress blake64 h block t nullt))) ∧
    (p.family = .groestl → ∀ H : Bytes, H.length = (if p.dlen ≤ 256 then 64 else 128) →
      compress p (Chain.ofBytes H) block t nullt =
        Chain.ofBytes (groestlF (if p.dlen ≤ 256 then 8 else 16) H block)) ∧
    (p.family = .rmd320 → ∀ h : List (BitVec 32), h.length = 10 →
      compress p (Chain.ofBytes (bytesLE h)) block t nullt = Chain.ofBytes (bytesLE (rmdCompress h block))) ∧
    (p.family = .whirlpool → ∀ H : Bytes, H.length = 64 →
      compress p (Chain.ofBytes H) block t nullt = Chain.ofBytes (whirlpoolCompress H block)) ∧
    (p.family = .jh → ∀ H : Bytes, H.length = 128 →
      compress p (Chain.ofBytes H) block t nullt = Chain.ofBytes (jhF8 H block)) ∧
    (p.family = .lsh256 → ∀ cv : List (BitVec 32), cv.length = 16 →
      compress p (Chain.ofBytes (bytesLE cv)) block t nullt = Chain.ofBytes (bytesLE (lshCF lsh32 cv block))) ∧
    (p.family = .lsh512 → ∀ cv : List (BitVec 64), cv.length = 16 →
      compress p (Chain.ofBytes (bytesLE cv)) block t nullt = Chain.ofBytes (bytesLE (lshCF lsh64 cv block))) ∧
    (p.family = .crc32 → ∀ (crc : BitVec 32) (x : Byte), block = [x] →
      compress p (Chain.ofBytes (encBE crc.toNat 4)) block t nullt =
        Chain.ofBytes (encBE (crc32Step crc x).toNat 4)) ∧
    (p.family = .cksum → ∀ (crc : BitVec 32) (x : Byte), block = [x] →
      compress p (Chain.ofBytes (encBE crc.toNat 4)) block t nullt =
        Chain.ofBytes (encBE (cksumStep crc x).toNat 4))

/-- The digest is the output of the chaining state after the final blocks, and the output selects, for a digest of n
bits: the first n/8 bytes of BLAKE's eight words, big-endian; the last n/8 bytes of `P(H) ⊕ H` for Groestl; RMD-320's ten
words, little-endian; Whirlpool's 64 bytes; the last n/8 of JH's 128 bytes; the first n/8 bytes of LSH's eight words
`CV[l] ⊕ CV[l + 8]`, little-endian; the complement of the CRC32 register, big-endian, and that of the CKSUM register
after the byte count, least significant byte first, as many bytes as it needs (R105, R108, R123, R134, R143, R154, R166,
R175, R179, R181). The place of the chaining state in its storage is the model's choice (log 6). -/
def Obligations.OutputByFamily : Prop :=
  ∀ (alg : BitVec 8) (dlen : BitVec 16) (p : Params) (c : Ctx) (n : Nat),
    variantOf alg dlen = some p → n = dlen.toNat →
    (digest p c = outputBytes p (finalizeCtx p c) ∧ (finalizeCtx p c).msgBits = c.msgBits ∧
      (finalizeCtx p c).chain =
        (finalBlocks p c).foldl (fun h b => compress p h b.block b.t b.nullt) c.chain) ∧
    (p.family = .blake → n ≤ 256 → ∀ h : List (BitVec 32), h.length = 8 →
      outputBytes p { c with chain := Chain.ofBytes (bytesBE h) } =
        (h.flatMap fun x => encBE x.toNat 4).take (n / 8)) ∧
    (p.family = .blake → 256 < n → ∀ h : List (BitVec 64), h.length = 8 →
      outputBytes p { c with chain := Chain.ofBytes (bytesBE h) } =
        (h.flatMap fun x => encBE x.toNat 8).take (n / 8)) ∧
    (p.family = .groestl → n ≤ 256 → ∀ H : Bytes, H.length = 64 →
      outputBytes p { c with chain := Chain.ofBytes H } =
        (xorWords (groestlPerm false 8 H) H).drop (64 - n / 8)) ∧
    (p.family = .groestl → 256 < n → ∀ H : Bytes, H.length = 128 →
      outputBytes p { c with chain := Chain.ofBytes H } =
        (xorWords (groestlPerm false 16 H) H).drop (128 - n / 8)) ∧
    (p.family = .rmd320 → ∀ h : List (BitVec 32), h.length = 10 →
      outputBytes p { c with chain := Chain.ofBytes (bytesLE h) } = h.flatMap fun x => encLE x.toNat 4) ∧
    (p.family = .whirlpool → ∀ H : Bytes, H.length = 64 →
      outputBytes p { c with chain := Chain.ofBytes H } = H) ∧
    (p.family = .jh → ∀ H : Bytes, H.length = 128 →
      outputBytes p { c with chain := Chain.ofBytes H } = H.drop (128 - n / 8)) ∧
    (p.family = .lsh256 → ∀ cv : List (BitVec 32), cv.length = 16 →
      outputBytes p { c with chain := Chain.ofBytes (bytesLE cv) } =
        ((List.range 8).flatMap fun l => encLE (cv.getD l 0 ^^^ cv.getD (l + 8) 0).toNat 4).take (n / 8)) ∧
    (p.family = .lsh512 → ∀ cv : List (BitVec 64), cv.length = 16 →
      outputBytes p { c with chain := Chain.ofBytes (bytesLE cv) } =
        ((List.range 8).flatMap fun l => encLE (cv.getD l 0 ^^^ cv.getD (l + 8) 0).toNat 8).take (n / 8)) ∧
    (p.family = .crc32 → ∀ crc : BitVec 32,
      outputBytes p { c with chain := Chain.ofBytes (encBE crc.toNat 4) } = encBE (~~~crc).toNat 4) ∧
    (p.family = .cksum → ∀ crc : BitVec 32,
      outputBytes p { c with chain := Chain.ofBytes (encBE crc.toNat 4) } =
        encBE (~~~((Nat.digits 256 (c.msgBits.toNat / 8)).foldl
          (fun r d => cksumStep r (BitVec.ofNat 8 d)) crc)).toNat 4)

/-! ## DROP and the queries -/

/-- DROP completes in every lifecycle state: OK, IDLE, every other context field 0; in IDLE after reset or DROP
nothing but the response changes (R89). -/
def Obligations.DropClearsContext : Prop :=
  ∀ (s : State) (eng : Engine), s.engines[s.port]? = some eng →
    exec .drop s = .next (s.setEngine s.port { eng with ctx := Ctx.reset, resp := eng.resp ++ [0x00000000] }) ∧
    (CtxInv s.cfg eng.ctx → eng.ctx.state = .idle →
      exec .drop s = .next (s.setEngine s.port { eng with resp := eng.resp ++ [0x00000000] }))

/-- QDLEN and QBLK complete in every lifecycle state and write no state: the digest length in bytes and the block size
of the variant, DLEN 0 naming the family's largest digest (R73, R90, R91, R94). -/
def Obligations.QueriesAnswer : Prop :=
  ∀ (s : State) (eng : Engine) (alg : BitVec 8) (dlen : BitVec 16) (f : Family) (n : Nat),
    s.engines[s.port]? = some eng → f ∈ s.cfg.algSupported → alg = familyCode f →
    n = (if dlen = 0 then maxDlen f else dlen.toNat) → legalDlen f n = true →
    exec (.qdlen alg dlen) s =
      .next (s.setEngine s.port { eng with resp := eng.resp ++ [BitVec.ofNat 32 (2 ^ 16 * (n / 8))] }) ∧
    exec (.qblk alg dlen) s =
      .next (s.setEngine s.port { eng with
        resp := eng.resp ++ [BitVec.ofNat 32 (2 ^ 16 * (paramsOf f n).blockBytes)] })

/-- QDLEN and QBLK answer UnsupportedAlgorithm for a code outside ALG_SUPPORTED, and BadHashLength for a supported
code with a nonzero illegal length (R73, R90, R91). -/
def Obligations.QueryErrors : Prop :=
  ∀ (s : State) (eng : Engine) (alg : BitVec 8) (dlen : BitVec 16) (i : Instr),
    s.engines[s.port]? = some eng → i = .qdlen alg dlen ∨ i = .qblk alg dlen →
    ((∀ f ∈ s.cfg.algSupported, alg ≠ familyCode f) →
      exec i s = .next (s.setEngine s.port { eng with resp := eng.resp ++ [0x00000001] })) ∧
    (∀ f ∈ s.cfg.algSupported, alg = familyCode f → dlen ≠ 0 → legalDlen f dlen.toNat = false →
      exec i s = .next (s.setEngine s.port { eng with resp := eng.resp ++ [0x00000002] }))

/-! ## The registry -/

/-- The algorithm codes and the legal digest lengths (R71, R93), and the block size, word width, state words and
length field of every variant (R95). -/
def Obligations.RegistryTables : Prop :=
  (Family.all.map familyCode = [1, 2, 3, 4, 5, 6, 7, 8, 9]) ∧
  (∀ alg : BitVec 8, ∀ f : Family, familyOf alg = some f ↔ alg = familyCode f) ∧
  (∀ f ∈ [Family.blake, .jh, .lsh512], ∀ n, legalDlen f n = true ↔ n ∈ [224, 256, 384, 512]) ∧
  (∀ n, legalDlen .groestl n = true ↔ 8 ∣ n ∧ 8 ≤ n ∧ n ≤ 512) ∧
  (∀ n, legalDlen .rmd320 n = true ↔ n = 320) ∧ (∀ n, legalDlen .whirlpool n = true ↔ n = 512) ∧
  (∀ n, legalDlen .lsh256 n = true ↔ n = 224 ∨ n = 256) ∧
  (∀ f ∈ [Family.crc32, .cksum], ∀ n, legalDlen f n = true ↔ n = 32) ∧
  (∀ f ∈ Family.all, legalDlen f (maxDlen f) = true ∧ ∀ n, legalDlen f n = true → n ≤ maxDlen f) ∧
  (∀ f ∈ Family.all, ∀ n, legalDlen f n = true → (paramsOf f n).family = f ∧ (paramsOf f n).dlen = n ∧
    ((paramsOf f n).blockBytes, (paramsOf f n).wordBits, (paramsOf f n).stateWords, (paramsOf f n).lengthBytes) =
      match f with
      | .blake => if n ≤ 256 then (64, 32, 8, 8) else (128, 64, 8, 16)
      | .groestl => if n ≤ 256 then (64, 64, 8, 8) else (128, 64, 16, 8)
      | .rmd320 => (64, 32, 10, 8)
      | .whirlpool => (64, 64, 8, 32)
      | .jh => (64, 64, 16, 16)
      | .lsh256 => (128, 32, 16, 0)
      | .lsh512 => (256, 64, 16, 0)
      | .crc32 => (1, 32, 1, 0)
      | .cksum => (1, 32, 1, 0))

/-- The storage fits every variant: a block in BMAX = 256 bytes, the IV, as long as the chaining state of the variant,
in SMAX = 128 bytes, and a digest in DMAX = 64 bytes (R14, R35, R96). The IV's place in the storage is the model's
choice (log 6). -/
def Obligations.StorageBounds : Prop :=
  ∀ (alg : BitVec 8) (dlen : BitVec 16) (p : Params), variantOf alg dlen = some p →
    1 ≤ p.blockBytes ∧ p.blockBytes ≤ 256 ∧ p.stateWords * p.wordBits / 8 ≤ 128 ∧ p.dlen / 8 ≤ 64 ∧
    1 ≤ p.dlen / 8 ∧ p.dlen = dlen.toNat ∧ p.lengthBytes < p.blockBytes ∧
    (initialValue p).length = p.stateWords * p.wordBits / 8 ∧
    (Chain.ofBytes (initialValue p)).toList =
      initialValue p ++ List.replicate (128 - p.stateWords * p.wordBits / 8) 0

/-! ## Rules of the whole machine -/

/-- A command reads and writes only the state of its own engine: no other engine, no parameter and no pending event
changes, and the outcome at the engine is the same whatever the rest of the machine holds (R24). -/
def Obligations.EnginesShareNothing : Prop :=
  ∀ (i : Instr) (s t : State) (eng : Engine),
    s.engines[s.port]? = some eng → t.engines[t.port]? = some eng → s.cfg = t.cfg →
    (∃ eng', exec i s = .next (s.setEngine s.port eng') ∧ exec i t = .next (t.setEngine t.port eng')) ∨
    (∃ r, exec i s = .fault r ∧ exec i t = .fault r) ∨
    (∃ r, exec i s = .refused r ∧ exec i t = .refused r)

/-- Every response: a command that completes appends exactly one response word and its data words; STATUS is one of 0
to 4 and 6 (7 answers an illegal record, which is no command), so never 5; bits [15:8] are 0; a status other than OK
has VALUE 0 and no data words and leaves the context and the decoder as they were; only FINAL sends data words (R77,
R78, R84, R183, R184, R185). -/
def Obligations.EveryResponse : Prop :=
  ∀ (i : Instr) (s s' : State) (eng : Engine), s.engines[s.port]? = some eng → exec i s = .next s' →
    ∃ (eng' : Engine) (x : Word) (ds : List Word),
      s' = s.setEngine s.port eng' ∧ eng'.rx = eng.rx ∧ eng'.resp = eng.resp ++ x :: ds ∧
      (x.extractLsb' 0 8 ∈ [0#8, 1#8, 2#8, 3#8, 4#8, 6#8]) ∧ x.extractLsb' 8 8 = 0 ∧
      (x.extractLsb' 0 8 ≠ 0 → x.extractLsb' 16 16 = 0 ∧ ds = [] ∧ eng'.ctx = eng.ctx) ∧
      (ds ≠ [] → i = .final)

/-- The only model fault is LengthLimit, and only an UPDATE raises it, on an ACTIVE context, in the states R187 leaves
for it (R186, R187). -/
def Obligations.OnlyUpdateFaults : Prop :=
  ∀ (i : Instr) (s : State) (r : Fault), exec i s = .fault r →
    ∃ (bitlen : BitVec 64) (payload : Bytes) (eng : Engine) (p : Params), i = .update bitlen payload ∧
      r = .lengthLimit ∧ s.engines[s.port]? = some eng ∧ eng.ctx.state = .active ∧
      variantOf eng.ctx.alg eng.ctx.dlen = some p ∧
      withinLimit p (eng.ctx.msgBits.toNat + bitlen.toNat) = false ∧
      (bitlen.toNat % 8 = 0 ∨ acceptsPartial s.cfg p.family = true)

/-- Where the invariants hold, every well-formed command of an existing engine completes, but for an UPDATE of an ACTIVE
context that would take its message past its variant's length limit, which faults LengthLimit: nothing is refused
(R85, R98, R186, R191). -/
def Obligations.EveryCommandCompletes : Prop :=
  ∀ (i : Instr) (s : State), StateInv s → i.wf = true →
    (∃ s', exec i s = .next s') ∨
    (exec i s = .fault .lengthLimit ∧
      ∃ (bitlen : BitVec 64) (payload : Bytes) (eng : Engine) (p : Params), i = .update bitlen payload ∧
        s.engines[s.port]? = some eng ∧ eng.ctx.state = .active ∧ variantOf eng.ctx.alg eng.ctx.dlen = some p ∧
        withinLimit p (eng.ctx.msgBits.toNat + bitlen.toNat) = false)

/-- The lifecycle has no edges but those of R85: a command leaves the whole context as it is, or INIT leads to ACTIVE,
UPDATE keeps ACTIVE or, with a partial byte, leads from ACTIVE to TAIL, FINAL leads from ACTIVE or TAIL to FINALIZED,
and DROP to IDLE. -/
def Obligations.LifecycleEdges : Prop :=
  ∀ (i : Instr) (s : State) (eng eng' : Engine), s.engines[s.port]? = some eng →
    exec i s = .next (s.setEngine s.port eng') →
    eng'.ctx = eng.ctx ∨
    ((∃ alg dlen, i = .init alg dlen) ∧ eng'.ctx.state = .active) ∨
    ((∃ bitlen payload, i = .update bitlen payload ∧
        eng'.ctx.state = (if bitlen.toNat % 8 = 0 then .active else .tail)) ∧ eng.ctx.state = .active) ∨
    (i = .final ∧ (eng.ctx.state = .active ∨ eng.ctx.state = .tail) ∧ eng'.ctx.state = .finalized) ∨
    (i = .drop ∧ eng'.ctx.state = .idle)

/-- Idempotency: INIT with the same operands, DROP, QDLEN and QBLK, issued twice in a row, leave the same context and
give the same response twice. UPDATE of whole bytes, issued twice, absorbs its payload twice, and a second FINAL
answers AlreadyFinalized (R54). -/
def Obligations.Idempotency : Prop :=
  (∀ (i : Instr) (s : State) (eng : Engine), s.engines[s.port]? = some eng →
    (∃ alg dlen, i = .init alg dlen) ∨ i = .drop ∨ (∃ alg dlen, i = .qdlen alg dlen) ∨
      (∃ alg dlen, i = .qblk alg dlen) →
    ∃ (c : Ctx) (w : Word),
      exec i s = .next (s.setEngine s.port { eng with ctx := c, resp := eng.resp ++ [w] }) ∧
      runInstrs [i, i] s = .next (s.setEngine s.port { eng with ctx := c, resp := eng.resp ++ [w] ++ [w] })) ∧
  (∀ (s s' : State) (eng : Engine) (p : Params) (bitlen : BitVec 64) (payload : Bytes),
    s.engines[s.port]? = some eng → eng.ctx.state = .active → variantOf eng.ctx.alg eng.ctx.dlen = some p →
    bitlen.toNat % 8 = 0 →
    runInstrs [.update bitlen payload, .update bitlen payload] s = .next s' →
    ∃ c : Ctx, s' = s.setEngine s.port
        { eng with ctx := c, resp := eng.resp ++ [0x00000000] ++ [0x00000000] } ∧
      c = { absorb p eng.ctx (payload ++ payload) with
        msgBits := eng.ctx.msgBits + bitlen.setWidth 256 + bitlen.setWidth 256 }) ∧
  (∀ (s s' : State) (eng : Engine), s.engines[s.port]? = some eng → exec .final s = .next s' →
    (eng.ctx.state = .active ∨ eng.ctx.state = .tail) →
    ∃ eng', s'.engines[s'.port]? = some eng' ∧
      exec .final s' = .next (s'.setEngine s'.port { eng' with resp := eng'.resp ++ [0x00000004] }))

/-- Chunking independence. However the message is cut into whole-byte chunks, empty ones allowed, with the last UPDATE
carrying the partial byte if there is one, INIT, the UPDATEs and FINAL answer OK for every UPDATE and the digest that
one UPDATE of the whole message gives; the final context is the same (R110). -/
def Obligations.ChunkingIndependence : Prop :=
  ∀ (s : State) (eng : Engine) (alg : BitVec 8) (dlen : BitVec 16) (f : Family)
    (chunks : List Bytes) (bitlen total : BitVec 64) (payload : Bytes),
    s.engines[s.port]? = some eng → f ∈ s.cfg.algSupported → alg = familyCode f →
    legalDlen f dlen.toNat = true →
    payload.length = (bitlen.toNat + 7) / 8 →
    (bitlen.toNat % 8 ≠ 0 → acceptsPartial s.cfg f = true) →
    total.toNat = 8 * chunks.flatten.length + bitlen.toNat →
    ∃ (d : Bytes) (v : BitVec 16), d.length = dlen.toNat / 8 ∧ v.toNat = d.length ∧
      runInstrs (.init alg dlen :: chunks.map updateBytes ++ [.update bitlen payload, .final]) s =
        .next (s.setEngine s.port { eng with
          ctx := { Ctx.reset with state := .finalized }
          resp := eng.resp ++ List.replicate (chunks.length + 2) 0x00000000 ++ responseWord .ok v :: packWords d }) ∧
      runInstrs [.init alg dlen, .update total (chunks.flatten ++ payload), .final] s =
        .next (s.setEngine s.port { eng with
          ctx := { Ctx.reset with state := .finalized }
          resp := eng.resp ++ List.replicate 2 0x00000000 ++ responseWord .ok v :: packWords d })

/-- Engines are independent: two runs in which engine e starts the same and receives the same words and resets,
whatever the other engines hold and receive and however the events are interleaved, leave engine e the same, with the
same responses (R56, R196). -/
def Obligations.InterleavingIndependence : Prop :=
  ∀ (s t s' t' : State) (e : Nat), s.cfg = t.cfg → s.engines[e]? = t.engines[e]? →
    s.input.filter (concerns e) = t.input.filter (concerns e) →
    runSteps s.input.length s = .next s' → runSteps t.input.length t = .next t' →
    s'.engines[e]? = t'.engines[e]?

/-- After power-up the invariants hold, whatever the parameters with at least one engine (R36, R37, R41). -/
def Obligations.InvAfterReset : Prop :=
  ∀ cfg : Config, 1 ≤ cfg.nEngines → StateInv (State.resetWith cfg)

/-- Every step keeps the invariants of R36 and R37. -/
def Obligations.StepKeepsInv : Prop :=
  ∀ s s' : State, StateInv s → step s = .next s' → StateInv s'

/-! ## Constants and known answers -/

/-- The Groestl S-box table is its construction: the inverse in the field, and the affine map (R127). The inverse y
can be read off the table by the inverse affine map. -/
def Obligations.GroestlSBoxFormula : Prop :=
  ∀ x : Byte, ∃ y : Byte, (if x = 0 then y = 0 else groestlMul x y = 1) ∧
    groestlS x = y ^^^ y.rotateLeft 1 ^^^ y.rotateLeft 2 ^^^ y.rotateLeft 3 ^^^ y.rotateLeft 4 ^^^ 0x63

/-- The Whirlpool S-box table is its construction from the mini-boxes (R147). -/
def Obligations.WhirlpoolSBoxFormula : Prop :=
  ∀ u : Byte, whirlpoolS u = whirlpoolSFromBoxes u

/-- The initial values (R96): BLAKE's eight words, big-endian (R116); Groestl's zeros and n in 8 bytes, big-endian (R131);
RMD-320's ten words, little-endian (R140); Whirlpool's zeros (R152); JH's 128 bytes, as eight 16-byte numbers, and as F8
of a zero block from n in 2 bytes, big-endian, and 126 zeros (R164); for LSH the compression of a zero block from the
chaining value w, n, 0, ..., 0 (R173); the CRC registers (R177). Their place in the storage is the model's choice
(log 6). -/
def Obligations.InitialValues : Prop :=
  initialValue (paramsOf .blake 224) = bytesBE (
    [0xC1059ED8, 0x367CD507, 0x3070DD17, 0xF70E5939, 0xFFC00B31, 0x68581511, 0x64F98FA7, 0xBEFA4FA4] : List (BitVec 32)) ∧
  initialValue (paramsOf .blake 256) = bytesBE (
    [0x6A09E667, 0xBB67AE85, 0x3C6EF372, 0xA54FF53A, 0x510E527F, 0x9B05688C, 0x1F83D9AB, 0x5BE0CD19] : List (BitVec 32)) ∧
  initialValue (paramsOf .blake 384) = bytesBE (
    [0xCBBB9D5DC1059ED8, 0x629A292A367CD507, 0x9159015A3070DD17, 0x152FECD8F70E5939,
     0x67332667FFC00B31, 0x8EB44A8768581511, 0xDB0C2E0D64F98FA7, 0x47B5481DBEFA4FA4] : List (BitVec 64)) ∧
  initialValue (paramsOf .blake 512) = bytesBE (
    [0x6A09E667F3BCC908, 0xBB67AE8584CAA73B, 0x3C6EF372FE94F82B, 0xA54FF53A5F1D36F1,
     0x510E527FADE682D1, 0x9B05688C2B3E6C1F, 0x1F83D9ABFB41BD6B, 0x5BE0CD19137E2179] : List (BitVec 64)) ∧
  (∀ n, legalDlen .groestl n = true →
    initialValue (paramsOf .groestl n) = List.replicate (if n ≤ 256 then 56 else 120) 0 ++ encBE n 8) ∧
  initialValue (paramsOf .rmd320 320) = bytesLE ([0x67452301, 0xEFCDAB89, 0x98BADCFE, 0x10325476, 0xC3D2E1F0, 0x76543210,
    0xFEDCBA98, 0x89ABCDEF, 0x01234567, 0x3C2D1E0F] : List (BitVec 32)) ∧
  initialValue (paramsOf .whirlpool 512) = List.replicate 64 0 ∧
  initialValue (paramsOf .jh 224) = bytesBE (
    [0x2dfedd62f99a98acae7cacd619d634e7, 0xa4831005bc301216b86038c6c9661494,
     0x66d9899f2580706fce9ea31b1d9b1adc, 0x11e8325f7b366e10f994857f02fa06c1,
     0x1b4f1b5cd8c840b397f6a17f6e738099, 0xdcdf93a5adeaa3d3a431e8dec9539a68,
     0x22b4a98aec86a1e4d574ac959ce56cf0, 0x15960deab5ab2bbf9611dcf0dd64ea6e] : List (BitVec 128)) ∧
  initialValue (paramsOf .jh 256) = bytesBE (
    [0xeb98a3412c20d3eb92cdbe7b9cb245c1, 0x1c93519160d4c7fa260082d67e508a03,
     0xa4239e267726b945e0fb1a48d41a9477, 0xcdb5ab26026b177a56f024420fff2fa8,
     0x71a396897f2e4d751d144908f77de262, 0x277695f776248f9487d5b6574780296c,
     0x5c5e272dac8e0d6c518450c657057a0f, 0x7be4d367702412ea89e3ab13d31cd769] : List (BitVec 128)) ∧
  initialValue (paramsOf .jh 384) = bytesBE (
    [0x481e3bc6d813398a6d3b5e894ade879b, 0x63faea68d480ad2e332ccb21480f8267,
     0x98aec84d9082b928d455ea3041114249, 0x36f555b2924847ecc7250a93baf43ce1,
     0x569b7f8a27db454c9efcbd496397af0e, 0x589fc27d26aa80cd80c08b8c9deb2eda,
     0x8a7981e8f8d5373af43967adddd17a71, 0xa9b4d3bda475d394976c3fba9842737f] : List (BitVec 128)) ∧
  initialValue (paramsOf .jh 512) = bytesBE (
    [0x6fd14b963e00aa17636a2e057a15d543, 0x8a225e8d0c97ef0be9341259f2b3c361,
     0x891da0c1536f801e2aa9056bea2b6d80, 0x588eccdb2075baa6a90f3a76baf83bf7,
     0x0169e60541e34a6946b58a8e2e6fe65a, 0x1047a7d0c1843c243b6e71b12d5ac199,
     0xcf57f6ec9db1f856a706887c5716b156, 0xe3c2fcdfe68517fb545a4678cc8cdd4b] : List (BitVec 128)) ∧
  (∀ n ∈ [224, 256, 384, 512],
    initialValue (paramsOf .jh n) = jhF8 (encBE n 2 ++ List.replicate 126 0) (List.replicate 64 0)) ∧
  (∀ n ∈ [224, 256], initialValue (paramsOf .lsh256 n) =
    bytesLE (lshCF lsh32 ([32, BitVec.ofNat 32 n] ++ List.replicate 14 0) (List.replicate 128 0))) ∧
  (∀ n ∈ [224, 256, 384, 512], initialValue (paramsOf .lsh512 n) =
    bytesLE (lshCF lsh64 ([64, BitVec.ofNat 64 n] ++ List.replicate 14 0) (List.replicate 256 0))) ∧
  initialValue (paramsOf .crc32 32) = encBE 0xFFFFFFFF 4 ∧ initialValue (paramsOf .cksum 32) = encBE 0x00000000 4

/-- The first row of the LSH step constants, and each later row made from the row before it: x + ROTL(x, 8), word by
word (R169). -/
def Obligations.LshConstantsRecurrence : Prop :=
  lsh32.sc.length = 26 ∧ lsh64.sc.length = 28 ∧
  lsh32.sc.getD 0 [] = [0x917caf90, 0x6c1b10a2, 0x6f352943, 0xcf778243, 0x2ceb7472, 0x29e96ff2, 0x8a9ba428,
    0x2eeb2642] ∧
  lsh64.sc.getD 0 [] = [0x97884283c938982a, 0xba1fca93533e2355, 0xc519a2e87aeb1c03, 0x9a0fc95462af17b1,
    0xfc3dda8ab019a82b, 0x02825d079a895407, 0x79f2d0a7ee06a6f7, 0xd76d15eed9fdf5fe] ∧
  (∀ j < 25, lsh32.sc.getD (j + 1) [] = (lsh32.sc.getD j []).map fun x => x + x.rotateLeft 8) ∧
  (∀ j < 27, lsh64.sc.getD (j + 1) [] = (lsh64.sc.getD j []).map fun x => x + x.rotateLeft 8)

/-- The first JH round constant, and each later one R_6 of the one before it, with the zero constant (R161). -/
def Obligations.JhConstantsRecurrence : Prop :=
  jhConstants.length = 42 ∧
  jhConstants.getD 0 0 = 0x6a09e667f3bcc908b2fb1366ea957d3e3adec17512775099da2f590b0667322a ∧
  ∀ r < 41, jhElements (jhConstants.getD (r + 1) 0) =
    jhRound 6 (jhElements (jhConstants.getD r 0)) (List.replicate 64 false)

/-- CRC32 and CKSUM run the same polynomial from opposite ends: the CRC32 step is the CKSUM step with the register and the
byte bit-reversed, and 0xEDB88320 is 0x04C11DB7 reversed (R178, R180). -/
def Obligations.CrcStepsAreReflections : Prop :=
  (0xEDB88320 : Word) = (0x04C11DB7 : Word).reverse ∧
  ∀ (crc : BitVec 32) (x : Byte), crc32Step crc.reverse x.reverse = (cksumStep crc x).reverse

/-- The CRC check values of the nine bytes "123456789" and of the empty message, as FINAL emits them on any engine that
supports the two codes, in any state; the length step of nine bytes feeds the one byte 0x09 (R182). -/
def Obligations.CrcCheckValues : Prop :=
  (∀ (s : State) (eng : Engine) (nine : Instr), s.engines[s.port]? = some eng →
    .crc32 ∈ s.cfg.algSupported → .cksum ∈ s.cfg.algSupported →
    nine = updateBytes [0x31, 0x32, 0x33, 0x34, 0x35, 0x36, 0x37, 0x38, 0x39] →
    runInstrs [.init 8 32, nine, .final] s = .next (s.setEngine s.port
      { eng with
        ctx := { Ctx.reset with state := .finalized }
        resp := eng.resp ++ [0, 0, 0x00040000, 0x2639F4CB] }) ∧
    runInstrs [.init 9 32, nine, .final] s = .next (s.setEngine s.port
      { eng with
        ctx := { Ctx.reset with state := .finalized }
        resp := eng.resp ++ [0, 0, 0x00040000, packWord 0x37 0x7A 0x60 0x11] }) ∧
    runInstrs [.init 8 32, .final] s = .next (s.setEngine s.port
      { eng with
        ctx := { Ctx.reset with state := .finalized }
        resp := eng.resp ++ [0, 0x00040000, 0x00000000] }) ∧
    runInstrs [.init 9 32, .final] s = .next (s.setEngine s.port
      { eng with
        ctx := { Ctx.reset with state := .finalized }
        resp := eng.resp ++ [0, 0x00040000, 0xFFFFFFFF] })) ∧
  (0x2639F4CB : Word) = packWord 0xCB 0xF4 0x39 0x26 ∧
  (0x377A6011 : Nat) = 930766865 ∧
  (∀ crc : BitVec 32, cksumCount 32 9 crc = cksumStep crc 0x09)

/-- BLAKE-256 and BLAKE-512 of the one byte 0x00: the published digests of R124 and of 95_test_vectors.md section 3.1, as
FINAL emits them on any engine that supports BLAKE, in any state (R88, R124). -/
def Obligations.BlakeKnownAnswer : Prop :=
  ∀ (s : State) (eng : Engine), s.engines[s.port]? = some eng → .blake ∈ s.cfg.algSupported →
    runInstrs [.init 1 256, .update 8 [0x00], .final] s = .next (s.setEngine s.port
      { eng with
        ctx := { Ctx.reset with state := .finalized }
        resp := eng.resp ++ [0, 0, 0x00200000, 0xefd4e80c, 0x8dcdd74d, 0xd9dedf62, 0xa7b0edd4, 0x416aae74, 0xda749a92,
          0x8f9e1023, 0x879c1311] }) ∧
    runInstrs [.init 1 512, .update 8 [0x00], .final] s = .next (s.setEngine s.port
      { eng with
        ctx := { Ctx.reset with state := .finalized }
        resp := eng.resp ++ [0, 0, 0x00400000, 0x87159697, 0xfa70d9f6, 0x78246dba, 0xd1e65d04, 0xb609bdfa,
          0x3209e51a, 0xbc524d05, 0xe41bd329, 0xb90291ff, 0xbd2b9ef6, 0x3de13bb8, 0x09069c4b, 0xb4a05f1e,
          0xb681d08b, 0xe08b0534, 0xb3be49ec] })

/-- Groestl-256 of the empty message: the published digest of R135, as FINAL emits it on any engine that supports Groestl,
in any state (R88, R135). -/
def Obligations.GroestlKnownAnswer : Prop :=
  ∀ (s : State) (eng : Engine), s.engines[s.port]? = some eng → .groestl ∈ s.cfg.algSupported →
    runInstrs [.init 2 256, .final] s = .next (s.setEngine s.port
      { eng with
        ctx := { Ctx.reset with state := .finalized }
        resp := eng.resp ++ [0, 0x00200000, 0x1dd1521a, 0xbe390055, 0x9c7f1016, 0xbc9edb58, 0x6ff117c4, 0x25db6a73,
          0x19715602, 0x673408f0] })

/-- RMD-320 of "abc": the published digest of R144, as FINAL emits it on any engine that supports RMD-320, in any state
(R88, R144). -/
def Obligations.RmdKnownAnswer : Prop :=
  ∀ (s : State) (eng : Engine), s.engines[s.port]? = some eng → .rmd320 ∈ s.cfg.algSupported →
    runInstrs [.init 3 320, updateBytes [0x61, 0x62, 0x63], .final] s = .next (s.setEngine s.port
      { eng with
        ctx := { Ctx.reset with state := .finalized }
        resp := eng.resp ++ [0, 0, 0x00280000, 0xb3014cde, 0x30894f05, 0xae099da7, 0x30928e73, 0x08175a1e, 0xc1fdef5b,
          0x7116d1b8, 0x2ff8743e, 0x4cd642a9, 0x2d68c4db] })

/-- Whirlpool of the empty message: the published digest of R155, as FINAL emits it on any engine that supports Whirlpool,
in any state (R88, R155). -/
def Obligations.WhirlpoolKnownAnswer : Prop :=
  ∀ (s : State) (eng : Engine), s.engines[s.port]? = some eng → .whirlpool ∈ s.cfg.algSupported →
    runInstrs [.init 4 512, .final] s = .next (s.setEngine s.port
      { eng with
        ctx := { Ctx.reset with state := .finalized }
        resp := eng.resp ++ [0, 0x00400000, 0xd761fa19, 0x66a42255, 0x9ce3449b, 0x26172e1d, 0x212330c5, 0xf807d430,
          0x96e0fe9a, 0xa7f79749, 0x69be833e, 0xeb8f288b, 0xe0e388cf, 0x57074f3c, 0xe56489ea, 0x37d9639b, 0xcc38b108,
          0xb36ea642] })

/-- JH-256 of the empty message: the digest of R167, as FINAL emits it on any engine that supports JH, in any
state (R88, R167). -/
def Obligations.JhKnownAnswer : Prop :=
  ∀ (s : State) (eng : Engine), s.engines[s.port]? = some eng → .jh ∈ s.cfg.algSupported →
    runInstrs [.init 5 256, .final] s = .next (s.setEngine s.port
      { eng with
        ctx := { Ctx.reset with state := .finalized }
        resp := eng.resp ++ [0, 0x00200000, 0x1946e646, 0xa9b08bc1, 0x18875e2a, 0xf8ee475a, 0xb847a73c, 0x41e1c8fc,
          0x7e352129, 0x34f46d32] })

/-- LSH-256-256 and LSH-512-512 of "abc": the published digests of R176, as FINAL emits them on any engine that supports
both, in any state (R88, R176). -/
def Obligations.LshKnownAnswer : Prop :=
  ∀ (s : State) (eng : Engine), s.engines[s.port]? = some eng → .lsh256 ∈ s.cfg.algSupported →
    .lsh512 ∈ s.cfg.algSupported →
    runInstrs [.init 6 256, updateBytes [0x61, 0x62, 0x63], .final] s = .next (s.setEngine s.port
      { eng with
        ctx := { Ctx.reset with state := .finalized }
        resp := eng.resp ++ [0, 0, 0x00200000, 0x5d36bf5f, 0x6a44a5ae, 0x2bc55370, 0x774d4057, 0x485f7aa0, 0x96c1f7a1,
          0xba98083a, 0x4147711b] }) ∧
    runInstrs [.init 7 512, updateBytes [0x61, 0x62, 0x63], .final] s = .next (s.setEngine s.port
      { eng with
        ctx := { Ctx.reset with state := .finalized }
        resp := eng.resp ++ [0, 0, 0x00400000, 0xfe3cd9a3, 0xac1adc60, 0xbed43bdd, 0x5398a6f0, 0xc796a381, 0xd19f9dd4,
          0x97567977, 0x085253c3, 0x2472c5b5, 0x8410f2be, 0xe98320d4, 0xebd84b5a, 0x8169e833, 0x1c03652b, 0xa1198842,
          0x6d59cee7] })

end Slice0Obligations
end

