-- ==== Sys2Proof/Laws/Bits.lean ====
section
/-! SUPPORT. Lengths of the byte strings the cores build, the byte encodings, and words read back from their bytes. -/

namespace Sys2Proof.Machine

@[simp] theorem length_zeros (n : Nat) : (zeros n).length = n := List.length_replicate

@[simp] theorem length_encLE (v n : Nat) : (encLE v n).length = n := by
  induction n generalizing v with
  | zero => rfl
  | succ n ih => rw [encLE, List.length_cons, ih]

@[simp] theorem length_encBE (v n : Nat) : (encBE v n).length = n := by
  rw [encBE, List.length_reverse, length_encLE]

/-- A natural below 2^(8n) is read back from its n bytes (R19). -/
theorem natLE_encLE (n v : Nat) (h : v < 2 ^ (8 * n)) : natLE (encLE v n) = v := by
  induction n generalizing v with
  | zero => rw [encLE, natLE]; omega
  | succ n ih =>
    have h' : v / 256 < 2 ^ (8 * n) := by
      rw [Nat.div_lt_iff_lt_mul (by decide)]
      calc v < 2 ^ (8 * (n + 1)) := h
        _ = 2 ^ (8 * n) * 256 := pow_add 2 (8 * n) 8
    rw [encLE, natLE, ih _ h', BitVec.toNat_ofNat]
    omega

@[simp] theorem length_wordsLE (w : Nat) (s : Bytes) (n : Nat) : (wordsLE w s n).length = n := by
  rw [wordsLE, List.length_map, List.length_range]

@[simp] theorem length_wordsBE (w : Nat) (s : Bytes) (n : Nat) : (wordsBE w s n).length = n := by
  rw [wordsBE, List.length_map, List.length_range]

theorem length_bytesLE {w : Nat} (v : List (BitVec w)) : (bytesLE v).length = v.length * (w / 8) := by
  induction v with
  | nil => rw [bytesLE, List.flatMap_nil, List.length_nil, List.length_nil, Nat.zero_mul]
  | cons x v ih =>
    rw [bytesLE, List.flatMap_cons, List.length_append, length_encLE, ← bytesLE, ih, List.length_cons, Nat.succ_mul]
    omega

theorem length_bytesBE {w : Nat} (v : List (BitVec w)) : (bytesBE v).length = v.length * (w / 8) := by
  induction v with
  | nil => rw [bytesBE, List.flatMap_nil, List.length_nil, List.length_nil, Nat.zero_mul]
  | cons x v ih =>
    rw [bytesBE, List.flatMap_cons, List.length_append, length_encBE, ← bytesBE, ih, List.length_cons, Nat.succ_mul]
    omega

@[simp] theorem length_lastBytes (n : Nat) (s : Bytes) : (lastBytes n s).length = min n s.length := by
  rw [lastBytes, List.length_drop]
  omega

@[simp] theorem length_xorWords {w : Nat} (a b : List (BitVec w)) :
    (xorWords a b).length = min a.length b.length := List.length_zipWith

/-! ## Words and their bytes (R19) -/

@[simp] theorem reverse_encBE (v n : Nat) : (encBE v n).reverse = encLE v n := List.reverse_reverse _

theorem wordBytes_zero {w : Nat} {a : Bytes} (h : a.length = w / 8) (s : Bytes) : wordBytes w (a ++ s) 0 = a := by
  rw [wordBytes, Nat.zero_mul, List.drop_zero, ← h, List.take_left]

theorem wordBytes_succ {w : Nat} {a : Bytes} (h : a.length = w / 8) (s : Bytes) (i : Nat) :
    wordBytes w (a ++ s) (i + 1) = wordBytes w s i := by
  rw [wordBytes, wordBytes, Nat.succ_mul, Nat.add_comm, ← List.drop_drop, ← h, List.drop_left]

theorem ofNat_natLE_encLE {w : Nat} (hw : 8 ∣ w) (x : BitVec w) :
    BitVec.ofNat w (natLE (encLE x.toNat (w / 8))) = x := by
  rw [natLE_encLE _ _ (by rw [Nat.mul_div_cancel' hw]; exact x.isLt), BitVec.ofNat_toNat, BitVec.setWidth_eq]

/-- Words are read back from their little-endian bytes. -/
theorem wordsLE_bytesLE {w : Nat} (hw : 8 ∣ w) {v : List (BitVec w)} {n : Nat} (hn : v.length = n) :
    wordsLE w (bytesLE v) n = v := by
  subst hn
  induction v with
  | nil => rfl
  | cons x v ih =>
    have hx : bytesLE (x :: v) = encLE x.toNat (w / 8) ++ bytesLE v := List.flatMap_cons
    rw [wordsLE, List.length_cons, List.range_succ_eq_map, List.map_cons, List.map_map, hx]
    congr 1
    · rw [loadLE, wordBytes_zero (length_encLE _ _), ofNat_natLE_encLE hw]
    · refine (List.map_congr_left fun i _ => ?_).trans ih
      rw [Function.comp, loadLE, loadLE, wordBytes_succ (length_encLE _ _)]

/-- Words are read back from their big-endian bytes. -/
theorem wordsBE_bytesBE {w : Nat} (hw : 8 ∣ w) {v : List (BitVec w)} {n : Nat} (hn : v.length = n) :
    wordsBE w (bytesBE v) n = v := by
  subst hn
  induction v with
  | nil => rfl
  | cons x v ih =>
    have hx : bytesBE (x :: v) = encBE x.toNat (w / 8) ++ bytesBE v := List.flatMap_cons
    rw [wordsBE, List.length_cons, List.range_succ_eq_map, List.map_cons, List.map_map, hx]
    congr 1
    · rw [loadBE, wordBytes_zero (length_encBE _ _), reverse_encBE, ofNat_natLE_encLE hw]
    · refine (List.map_congr_left fun i _ => ?_).trans ih
      rw [Function.comp, loadBE, loadBE, wordBytes_succ (length_encBE _ _)]

/-- One big-endian word is read back. -/
theorem loadBE_encBE {w : Nat} (hw : 8 ∣ w) (x : BitVec w) : loadBE w (encBE x.toNat (w / 8)) 0 = x := by
  have := wordBytes_zero (length_encBE x.toNat (w / 8)) []
  rw [List.append_nil] at this
  rw [loadBE, this, reverse_encBE, ofNat_natLE_encLE hw]

end Sys2Proof.Machine
end

