-- ==== Sys2Proof/Laws/Decode.lean ====
section
/-! SUPPORT. What the decoder and the encoder do: the fields of a command word, packing and unpacking of bytes,
framing, and the decoding of each command's record. -/

namespace Sys2Proof

/-! ## Fields of the command word -/

@[simp] theorem opcField_commandWord (o a : BitVec 8) (d : BitVec 16) : opcField (commandWord o a d) = o := by
  apply BitVec.eq_of_toNat_eq
  simp only [opcField, commandWord, BitVec.extractLsb'_toNat, BitVec.toNat_ofNat, Nat.shiftRight_eq_div_pow]
  omega

@[simp] theorem algField_commandWord (o a : BitVec 8) (d : BitVec 16) : algField (commandWord o a d) = a := by
  apply BitVec.eq_of_toNat_eq
  simp only [algField, commandWord, BitVec.extractLsb'_toNat, BitVec.toNat_ofNat, Nat.shiftRight_eq_div_pow]
  omega

@[simp] theorem dlenField_commandWord (o a : BitVec 8) (d : BitVec 16) : dlenField (commandWord o a d) = d := by
  apply BitVec.eq_of_toNat_eq
  simp only [dlenField, commandWord, BitVec.extractLsb'_toNat, BitVec.toNat_ofNat, Nat.shiftRight_eq_div_pow]
  omega

@[simp] theorem commandWord_fields (h : Word) : commandWord (opcField h) (algField h) (dlenField h) = h := by
  apply BitVec.eq_of_toNat_eq
  simp only [opcField, algField, dlenField, commandWord, BitVec.extractLsb'_toNat, BitVec.toNat_ofNat,
    Nat.shiftRight_eq_div_pow]
  omega

theorem reservedField_eq_zero (h : Word) : reservedField h = 0 ↔ algField h = 0 ∧ dlenField h = 0 := by
  simp only [reservedField, algField, dlenField, ← BitVec.toNat_inj, BitVec.extractLsb'_toNat,
    Nat.shiftRight_eq_div_pow, BitVec.ofNat_eq_ofNat, BitVec.toNat_ofNat, Nat.zero_mod, pow_zero, Nat.div_one]
  omega

@[simp] theorem reservedField_commandWord_zero (o : BitVec 8) :
    reservedField (commandWord o 0#8 0#16) = 0#24 :=
  (reservedField_eq_zero _).2 ⟨algField_commandWord o 0 0, dlenField_commandWord o 0 0⟩

/-- A header whose reserved bits are 0 is its opcode's word. -/
theorem eq_commandWord_of_reserved (h : Word) (h0 : reservedField h = 0) : h = commandWord (opcField h) 0 0 := by
  obtain ⟨ha, hd⟩ := (reservedField_eq_zero h).1 h0
  rw [← ha, ← hd, commandWord_fields]

/-! ## Length words -/

@[simp] theorem bitlenOf_lo_hi (b : BitVec 64) : bitlenOf (loWord b) (hiWord b) = b := by
  apply BitVec.eq_of_toNat_eq
  simp only [bitlenOf, loWord, hiWord, BitVec.extractLsb'_toNat, BitVec.toNat_ofNat, Nat.shiftRight_eq_div_pow]
  omega

/-! ## Bytes in words -/

@[simp] theorem unpackWord_packWord (a b c d : Byte) : unpackWord (packWord a b c d) = [a, b, c, d] := by
  simp only [unpackWord, packWord, List.cons.injEq, ← BitVec.toNat_inj, BitVec.extractLsb'_toNat,
    BitVec.toNat_ofNat, Nat.shiftRight_eq_div_pow, and_true]
  omega

@[simp] theorem length_unpackWord (x : Word) : (unpackWord x).length = 4 := rfl

@[simp] theorem unpackWords_nil : unpackWords [] = [] := rfl

@[simp] theorem unpackWords_cons (x : Word) (xs : List Word) :
    unpackWords (x :: xs) = unpackWord x ++ unpackWords xs := rfl

theorem length_unpackWords (xs : List Word) : (unpackWords xs).length = 4 * xs.length := by
  induction xs with
  | nil => rfl
  | cons x xs ih => rw [unpackWords_cons, List.length_append, ih, length_unpackWord, List.length_cons]; omega

theorem length_packWords (s : Bytes) : (packWords s).length = (s.length + 3) / 4 := by
  fun_induction packWords s with
  | case1 => rfl
  | case2 => simp only [List.length_cons, List.length_nil]
  | case3 => simp only [List.length_cons, List.length_nil]
  | case4 => simp only [List.length_cons, List.length_nil]
  | case5 a b c d rest ih => simp only [List.length_cons, ih]; omega

/-- The bytes of a packed byte string are that string, and zero padding after it (R49). -/
theorem take_unpackWords_packWords (s : Bytes) : (unpackWords (packWords s)).take s.length = s := by
  fun_induction packWords s with
  | case1 => rfl
  | case2 a => simp
  | case3 a b => simp
  | case4 a b c => simp
  | case5 a b c d rest ih => simp [ih]

/-! ## Records and framing -/

theorem Command.words_update {c : Command} (h : opcField c.hdr = 2) :
    c.words = c.hdr :: loWord c.bitlen :: hiWord c.bitlen :: packWords c.payload := by
  rw [Command.words, if_pos h]

theorem Command.words_single {c : Command} (h : opcField c.hdr ≠ 2) : c.words = [c.hdr] := by
  rw [Command.words, if_neg h]

theorem Command.wf_update {c : Command} (h : opcField c.hdr = 2) :
    c.wf = true ↔ c.payload.length = payloadBytes c.bitlen := by
  rw [Command.wf, if_pos h, beq_iff_eq]

theorem Command.wf_single {c : Command} (h : opcField c.hdr ≠ 2) :
    c.wf = true ↔ c.bitlen = 0 ∧ c.payload = [] := by
  rw [Command.wf, if_neg h, Bool.and_eq_true, beq_iff_eq, beq_iff_eq]

theorem frame_single {hdr : Word} (h : opcField hdr ≠ 2) (rest : List Word) :
    frame (hdr :: rest) = .ok (⟨hdr, 0, []⟩, rest) := by
  unfold frame
  exact if_neg h

theorem frame_update {hdr : Word} (h : opcField hdr = 2) (lo hi : Word) (ps : List Word) :
    frame (hdr :: lo :: hi :: ps) =
      if ps.length < payloadWords (bitlenOf lo hi) then .error .incomplete
      else .ok (⟨hdr, bitlenOf lo hi,
        (unpackWords (ps.take (payloadWords (bitlenOf lo hi)))).take (payloadBytes (bitlenOf lo hi))⟩,
        ps.drop (payloadWords (bitlenOf lo hi))) := by
  rw [frame, if_pos h]

theorem frame_update_short {hdr : Word} (h : opcField hdr = 2) {xs : List Word} (hx : xs.length < 2) :
    frame (hdr :: xs) = .error .incomplete := by
  match xs, hx with
  | [], _ => unfold frame; exact if_pos h
  | [lo], _ => unfold frame; exact if_pos h

/-- The first record of its own words is the record (R66, R68, R70). -/
theorem frame_words (c : Command) (rest : List Word) (h : c.wf = true) : frame (c.words ++ rest) = .ok (c, rest) := by
  obtain ⟨hdr, bitlen, payload⟩ := c
  by_cases ho : opcField hdr = 2
  · have hl : payload.length = payloadBytes bitlen := (Command.wf_update (c := ⟨hdr, bitlen, payload⟩) ho).1 h
    have hw : (packWords payload).length = payloadWords bitlen := by rw [length_packWords, hl, payloadWords]
    have hn : ¬(packWords payload ++ rest).length < payloadWords bitlen := by
      rw [List.length_append]; omega
    rw [Command.words_update (c := ⟨hdr, bitlen, payload⟩) ho]
    simp only [List.cons_append]
    rw [frame_update ho, bitlenOf_lo_hi, if_neg hn, ← hw, List.take_left, List.drop_left, ← hl,
      take_unpackWords_packWords]
  · obtain ⟨rfl, rfl⟩ : bitlen = 0 ∧ payload = [] := (Command.wf_single (c := ⟨hdr, bitlen, payload⟩) ho).1 h
    rw [Command.words_single (c := ⟨hdr, 0, []⟩) ho]
    exact frame_single ho rest

/-! ## The records of the commands -/

theorem Instr.toCommand_wf (i : Instr) (h : i.wf = true) : i.toCommand.wf = true := by
  cases i <;> simp_all [Instr.toCommand, Command.wf, Instr.wf]

/-- The record of a command decodes to it (R74, R83). -/
theorem decodeCommand_toCommand (i : Instr) : decodeCommand i.toCommand = .ok i := by
  cases i <;> simp [Instr.toCommand, decodeCommand]

/-! ## What was decoded -/

theorem decodeWords_eq_ok {xs : List Word} {i : Instr} {rest : List Word} :
    decodeWords xs = .ok (i, rest) ↔ ∃ c, frame xs = .ok (c, rest) ∧ decodeCommand c = .ok i := by
  rw [decodeWords]
  cases hf : frame xs with
  | error e => simp
  | ok cr =>
    obtain ⟨c, r⟩ := cr
    dsimp only
    cases hd : decodeCommand c with
    | error e =>
      refine ⟨fun h => (by cases h), ?_⟩
      rintro ⟨c', h1, h2⟩
      cases h1
      rw [hd] at h2
      cases h2
    | ok j =>
      constructor
      · intro h; cases h; exact ⟨c, rfl, hd⟩
      · rintro ⟨c', h1, h2⟩
        cases h1
        rw [hd] at h2
        cases h2
        rfl

/-- A record that decodes to a command has the command's header and, for UPDATE, its operands (R74, R83). -/
theorem decodeCommand_ok {c : Command} {i : Instr} (h : decodeCommand c = .ok i) :
    c.hdr = i.toCommand.hdr ∧ ∀ b p, i = .update b p → c.bitlen = b ∧ c.payload = p := by
  have hw := commandWord_fields c.hdr
  unfold decodeCommand at h
  dsimp only at h
  split at h
  · next ho =>
    cases h
    exact ⟨by rw [← hw, ho]; simp [Instr.toCommand], fun b p h => (by cases h)⟩
  split at h
  · next ho =>
    split at h
    · cases h
    · next hz =>
      cases h
      exact ⟨(eq_commandWord_of_reserved _ (not_not.1 hz)).trans (by rw [ho]; rfl),
        fun b p h => (by cases h; exact ⟨rfl, rfl⟩)⟩
  split at h
  · next ho =>
    split at h
    · cases h
    · next hz =>
      cases h
      exact ⟨(eq_commandWord_of_reserved _ (not_not.1 hz)).trans (by rw [ho]; rfl), fun b p h => (by cases h)⟩
  split at h
  · next ho =>
    split at h
    · cases h
    · next hz =>
      cases h
      exact ⟨(eq_commandWord_of_reserved _ (not_not.1 hz)).trans (by rw [ho]; rfl), fun b p h => (by cases h)⟩
  split at h
  · next ho =>
    cases h
    exact ⟨by rw [← hw, ho]; simp [Instr.toCommand], fun b p h => (by cases h)⟩
  split at h
  · next ho =>
    cases h
    exact ⟨by rw [← hw, ho]; simp [Instr.toCommand], fun b p h => (by cases h)⟩
  · cases h

/-- A framed record that is no UPDATE is one word. -/
theorem frame_ok_single {xs rest : List Word} {c : Command} (h : frame xs = .ok (c, rest)) (ho : opcField c.hdr ≠ 2) :
    xs = c.hdr :: rest ∧ c = ⟨c.hdr, 0, []⟩ := by
  match xs with
  | [] => cases h
  | hdr :: tl =>
    by_cases h2 : opcField hdr = 2
    · match tl with
      | lo :: hi :: ps =>
        rw [frame_update h2] at h
        split at h
        · cases h
        · cases h; exact absurd h2 ho
      | [] => rw [frame_update_short h2 (by decide)] at h; cases h
      | [lo] => rw [frame_update_short h2 (by simp)] at h; cases h
    · rw [frame_single h2] at h
      cases h
      exact ⟨rfl, rfl⟩

/-- A framed UPDATE is its three words, its payload words and nothing more (R66). -/
theorem frame_ok_update {xs rest : List Word} {c : Command} (h : frame xs = .ok (c, rest)) (ho : opcField c.hdr = 2) :
    ∃ (lo hi : Word) (ps : List Word), xs = c.hdr :: lo :: hi :: (ps ++ rest) ∧ c.bitlen = bitlenOf lo hi ∧
      ps.length = payloadWords c.bitlen ∧ c.payload = (unpackWords ps).take (payloadBytes c.bitlen) := by
  match xs with
  | [] => cases h
  | hdr :: tl =>
    by_cases h2 : opcField hdr = 2
    · match tl with
      | lo :: hi :: ps =>
        rw [frame_update h2] at h
        split at h
        · cases h
        · next hl =>
          cases h
          exact ⟨lo, hi, ps.take (payloadWords (bitlenOf lo hi)), by rw [List.take_append_drop], rfl,
            (List.length_take.trans (Nat.min_eq_left (Nat.not_lt.1 hl))), rfl⟩
      | [] => rw [frame_update_short h2 (by decide)] at h; cases h
      | [lo] => rw [frame_update_short h2 (by simp)] at h; cases h
    · rw [frame_single h2] at h
      cases h
      exact absurd ho h2

/-- Byte i of a word stream is byte i mod 4 of word i div 4 (R49). -/
theorem getElem_unpackWords (ps : List Word) (i : Nat) :
    (unpackWords ps)[i]? = (ps[i / 4]?).map fun x => x.extractLsb' (8 * (i % 4)) 8 := by
  induction ps generalizing i with
  | nil => rfl
  | cons x ps ih =>
    rw [unpackWords_cons]
    rcases Nat.lt_or_ge i 4 with h | h
    · rw [List.getElem?_append_left (by rw [length_unpackWord]; exact h), Nat.div_eq_of_lt h, Nat.mod_eq_of_lt h]
      match i, h with
      | 0, _ => rfl
      | 1, _ => rfl
      | 2, _ => rfl
      | 3, _ => rfl
    · rw [List.getElem?_append_right (by rw [length_unpackWord]; exact h), length_unpackWord, ih]
      obtain ⟨j, rfl⟩ := Nat.exists_eq_add_of_le' h
      rw [Nat.add_sub_cancel, Nat.add_div_right j (by decide), Nat.add_mod_right, List.getElem?_cons_succ]

/-- A command word is its three fields side by side (R64). -/
theorem commandWord_eq_append (o a : BitVec 8) (d : BitVec 16) : commandWord o a d = (o ++ a ++ d : BitVec 32) := by
  apply BitVec.eq_of_toNat_eq
  rw [BitVec.toNat_append, BitVec.toNat_append, ← Nat.shiftLeft_add_eq_or_of_lt d.isLt,
      ← Nat.shiftLeft_add_eq_or_of_lt a.isLt]
  simp only [commandWord, BitVec.toNat_ofNat, Nat.shiftLeft_eq]
  omega

/-- A one-word command is decoded from its word and from nothing else (R68). -/
theorem decodeWords_single (i : Instr) (w : Word) (hw : i.toCommand = ⟨w, 0, []⟩) (ho : opcField w ≠ 2)
    (xs rest : List Word) :
   decodeWords xs = .ok (i, rest) ↔ xs = w :: rest := by
  rw [decodeWords_eq_ok]
  constructor
  · rintro ⟨c, hf, hd⟩
    obtain ⟨h1, -⟩ := decodeCommand_ok hd
    rw [hw] at h1
    obtain ⟨h2, -⟩ := frame_ok_single hf (by rw [h1]; exact ho)
    rw [h2, h1]
  · rintro rfl
    exact ⟨_, frame_single ho rest, hw ▸ decodeCommand_toCommand i⟩

end Sys2Proof
end

