-- ==== Sys2Proof/Laws/State.lean ====
section
/-! SUPPORT. One lemma per field per update of State, Engine and Ctx, so that no proof unfolds a record update. -/

namespace Sys2Proof.Machine

/-! ## State -/

@[simp] theorem State.setEngine_cfg (s : State) (e : Nat) (eng : Engine) : (s.setEngine e eng).cfg = s.cfg := rfl
@[simp] theorem State.setEngine_port (s : State) (e : Nat) (eng : Engine) : (s.setEngine e eng).port = s.port := rfl
@[simp] theorem State.setEngine_input (s : State) (e : Nat) (eng : Engine) : (s.setEngine e eng).input =
    s.input := rfl
@[simp] theorem State.setEngine_engines (s : State) (e : Nat) (eng : Engine) :
    (s.setEngine e eng).engines = s.engines.set e eng := rfl

@[simp] theorem State.deliver_cfg (s : State) (e : Nat) (eng : Engine) (r : Rx) : (s.deliver e eng r).cfg =
    s.cfg := rfl
@[simp] theorem State.deliver_port (s : State) (e : Nat) (eng : Engine) (r : Rx) : (s.deliver e eng r).port = e := rfl
@[simp] theorem State.deliver_input (s : State) (e : Nat) (eng : Engine) (r : Rx) :
    (s.deliver e eng r).input = s.input := rfl
@[simp] theorem State.deliver_engines (s : State) (e : Nat) (eng : Engine) (r : Rx) :
    (s.deliver e eng r).engines = s.engines.set e { eng with rx := r } := rfl

@[simp] theorem resetAllEngines_cfg (s : State) : (resetAllEngines s).cfg = s.cfg := rfl
@[simp] theorem resetAllEngines_port (s : State) : (resetAllEngines s).port = s.port := rfl
@[simp] theorem resetAllEngines_input (s : State) : (resetAllEngines s).input = s.input := rfl
@[simp] theorem resetAllEngines_engines (s : State) :
    (resetAllEngines s).engines = s.engines.map Engine.applyReset := rfl

@[simp] theorem State.resetWith_cfg (cfg : Config) : (State.resetWith cfg).cfg = cfg := rfl
@[simp] theorem State.resetWith_port (cfg : Config) : (State.resetWith cfg).port = 0 := rfl
@[simp] theorem State.resetWith_input (cfg : Config) : (State.resetWith cfg).input = [] := rfl
@[simp] theorem State.resetWith_engines (cfg : Config) :
    (State.resetWith cfg).engines = List.replicate cfg.nEngines Engine.reset := rfl

/-- The engine written is the engine read. -/
theorem State.setEngine_getElem_self {s : State} {e : Nat} {eng : Engine} (h : s.engines[e]? = some eng)
    (eng' : Engine) : (s.setEngine e eng').engines[e]? = some eng' := by
  obtain ⟨hlt, _⟩ := List.getElem?_eq_some_iff.1 h
  rw [setEngine_engines, List.getElem?_set_self hlt]

/-- Every other engine stays. -/
theorem State.setEngine_getElem_ne (s : State) {e e' : Nat} (h : e ≠ e') (eng : Engine) :
    (s.setEngine e eng).engines[e']? = s.engines[e']? := by
  rw [setEngine_engines, List.getElem?_set_ne h]

/-- Writing an engine twice leaves what was written last. -/
theorem State.setEngine_setEngine (s : State) (e : Nat) (a b : Engine) :
    (s.setEngine e a).setEngine e b = s.setEngine e b := by
  simp only [State.setEngine, List.set_set]

/-- Writing what is there changes nothing. -/
theorem State.setEngine_self {s : State} {e : Nat} {eng : Engine} (h : s.engines[e]? = some eng) :
    s.setEngine e eng = s := by
  obtain ⟨hlt, rfl⟩ := List.getElem?_eq_some_iff.1 h
  rw [State.setEngine, List.set_getElem_self]

/-! ## Engine -/

@[simp] theorem Engine.respond_ctx (e : Engine) (st : Status) (v : BitVec 16) (d : Bytes) :
    (e.respond st v d).ctx = e.ctx := rfl
@[simp] theorem Engine.respond_rx (e : Engine) (st : Status) (v : BitVec 16) (d : Bytes) :
    (e.respond st v d).rx = e.rx := rfl
@[simp] theorem Engine.respond_resp (e : Engine) (st : Status) (v : BitVec 16) (d : Bytes) :
    (e.respond st v d).resp = e.resp ++ respondWords st v d := rfl

@[simp] theorem Engine.replyError_ctx (e : Engine) (st : Status) : (e.replyError st).ctx = e.ctx := rfl
@[simp] theorem Engine.replyError_rx (e : Engine) (st : Status) : (e.replyError st).rx = e.rx := rfl
@[simp] theorem Engine.replyError_resp (e : Engine) (st : Status) :
    (e.replyError st).resp = e.resp ++ [responseWord st 0] := rfl

@[simp] theorem Engine.applyReset_ctx (e : Engine) : e.applyReset.ctx = Ctx.reset := rfl
@[simp] theorem Engine.applyReset_rx (e : Engine) : e.applyReset.rx = Rx.reset := rfl
@[simp] theorem Engine.applyReset_resp (e : Engine) : e.applyReset.resp = e.resp := rfl

/-! ## Ctx -/

@[simp] theorem zeroise_state (c : Ctx) : (zeroise c).state = c.state := rfl
@[simp] theorem zeroise_alg (c : Ctx) : (zeroise c).alg = 0 := rfl
@[simp] theorem zeroise_dlen (c : Ctx) : (zeroise c).dlen = 0 := rfl
@[simp] theorem zeroise_msgBits (c : Ctx) : (zeroise c).msgBits = 0 := rfl
@[simp] theorem zeroise_blockCount (c : Ctx) : (zeroise c).blockCount = 0 := rfl
@[simp] theorem zeroise_buf (c : Ctx) : (zeroise c).buf = Vector.replicate 256 0 := rfl
@[simp] theorem zeroise_bufLen (c : Ctx) : (zeroise c).bufLen = 0 := rfl
@[simp] theorem zeroise_partialBits (c : Ctx) : (zeroise c).partialBits = 0 := rfl
@[simp] theorem zeroise_nullt (c : Ctx) : (zeroise c).nullt = false := rfl
@[simp] theorem zeroise_chain (c : Ctx) : (zeroise c).chain = Vector.replicate 128 0 := rfl

@[simp] theorem freshCtx_state (p : Params) (a : BitVec 8) (d : BitVec 16) (c : Ctx) :
    (freshCtx p a d c).state = .active := rfl
@[simp] theorem freshCtx_alg (p : Params) (a : BitVec 8) (d : BitVec 16) (c : Ctx) : (freshCtx p a d c).alg = a := rfl
@[simp] theorem freshCtx_dlen (p : Params) (a : BitVec 8) (d : BitVec 16) (c : Ctx) :
    (freshCtx p a d c).dlen = d := rfl
@[simp] theorem freshCtx_msgBits (p : Params) (a : BitVec 8) (d : BitVec 16) (c : Ctx) :
    (freshCtx p a d c).msgBits = 0 := rfl
@[simp] theorem freshCtx_blockCount (p : Params) (a : BitVec 8) (d : BitVec 16) (c : Ctx) :
    (freshCtx p a d c).blockCount = 0 := rfl
@[simp] theorem freshCtx_buf (p : Params) (a : BitVec 8) (d : BitVec 16) (c : Ctx) :
    (freshCtx p a d c).buf = Vector.replicate 256 0 := rfl
@[simp] theorem freshCtx_bufLen (p : Params) (a : BitVec 8) (d : BitVec 16) (c : Ctx) :
    (freshCtx p a d c).bufLen = 0 := rfl
@[simp] theorem freshCtx_partialBits (p : Params) (a : BitVec 8) (d : BitVec 16) (c : Ctx) :
    (freshCtx p a d c).partialBits = 0 := rfl
@[simp] theorem freshCtx_nullt (p : Params) (a : BitVec 8) (d : BitVec 16) (c : Ctx) :
    (freshCtx p a d c).nullt = false := rfl
@[simp] theorem freshCtx_chain (p : Params) (a : BitVec 8) (d : BitVec 16) (c : Ctx) :
    (freshCtx p a d c).chain = Chain.ofBytes (initialValue p) := rfl

/-- The fresh context of a variant does not depend on the context before it (R86). -/
theorem freshCtx_indep (p : Params) (a : BitVec 8) (d : BitVec 16) (c c' : Ctx) :
    freshCtx p a d c = freshCtx p a d c' := rfl

@[simp] theorem transformBuffer_state (p : Params) (c : Ctx) : (transformBuffer p c).state = c.state := rfl
@[simp] theorem transformBuffer_alg (p : Params) (c : Ctx) : (transformBuffer p c).alg = c.alg := rfl
@[simp] theorem transformBuffer_dlen (p : Params) (c : Ctx) : (transformBuffer p c).dlen = c.dlen := rfl
@[simp] theorem transformBuffer_msgBits (p : Params) (c : Ctx) : (transformBuffer p c).msgBits = c.msgBits := rfl
@[simp] theorem transformBuffer_blockCount (p : Params) (c : Ctx) :
    (transformBuffer p c).blockCount = c.blockCount + 1 := rfl
@[simp] theorem transformBuffer_buf (p : Params) (c : Ctx) : (transformBuffer p c).buf = c.buf := rfl
@[simp] theorem transformBuffer_bufLen (p : Params) (c : Ctx) : (transformBuffer p c).bufLen = 0 := rfl
@[simp] theorem transformBuffer_partialBits (p : Params) (c : Ctx) :
    (transformBuffer p c).partialBits = c.partialBits := rfl
@[simp] theorem transformBuffer_nullt (p : Params) (c : Ctx) : (transformBuffer p c).nullt = c.nullt := rfl

@[simp] theorem applyFinalBlock_blockCount (p : Params) (c : Ctx) (b : FinalBlock) :
    (applyFinalBlock p c b).blockCount = c.blockCount + 1 := rfl
@[simp] theorem finalizeCtx_nullt (p : Params) (c : Ctx) : (finalizeCtx p c).nullt = false := rfl

end Sys2Proof.Machine
end

