-- ==== Sys2Proof/Laws/Ops.lean ====
section
/-! SUPPORT. The shared operations: a command on the engine of the port, responses, and the words of a response. -/

namespace Sys2Proof.Machine

/-- The outcome at an engine, as an outcome of the machine in which that engine alone changes. -/
def liftEngine (s : State) (e : Nat) : Host.Outcome Engine Fault Refusal → Host.Outcome State Fault Refusal
  | .next eng => .next (s.setEngine e eng)
  | .fault r => .fault r
  | .refused r => .refused r

@[simp] theorem liftEngine_next (s : State) (e : Nat) (eng : Engine) :
    liftEngine s e (.next eng) = .next (s.setEngine e eng) := rfl
@[simp] theorem liftEngine_fault (s : State) (e : Nat) (r : Fault) : liftEngine s e (.fault r) = .fault r := rfl
@[simp] theorem liftEngine_refused (s : State) (e : Nat) (r : Refusal) :
    liftEngine s e (.refused r) = .refused r := rfl

/-- A command on an existing engine is its outcome at that engine (R24). -/
theorem onEngine_some {s : State} {eng : Engine} (h : s.engines[s.port]? = some eng)
    (f : Engine → Host.Outcome Engine Fault Refusal) : onEngine s f = liftEngine s s.port (f eng) := by
  rw [onEngine, h]
  cases hf : f eng <;> simp only [hf] <;> rfl

/-- A command on an engine that does not exist is refused (log 10). -/
theorem onEngine_none {s : State} (h : s.engines[s.port]? = none)
    (f : Engine → Host.Outcome Engine Fault Refusal) : onEngine s f = .refused (.noSuchEngine s.port) := by
  rw [onEngine, h]

/-- A command completes exactly when the engine exists and its outcome there is a next state. -/
theorem onEngine_next_iff {s s' : State} {f : Engine → Host.Outcome Engine Fault Refusal} :
    onEngine s f = .next s' ↔
      ∃ eng eng', s.engines[s.port]? = some eng ∧ f eng = .next eng' ∧ s' = s.setEngine s.port eng' := by
  cases h : s.engines[s.port]? with
  | none => simp [onEngine_none h]
  | some eng =>
    rw [onEngine_some h]
    cases hf : f eng <;> simp [hf, eq_comm]

/-- Two writes of the same engine are equal exactly when the engines are. -/
theorem State.setEngine_inj {s : State} {e : Nat} {eng a b : Engine} (h : s.engines[e]? = some eng) :
    s.setEngine e a = s.setEngine e b ↔ a = b := by
  constructor
  · intro hab
    have : (s.setEngine e a).engines[e]? = (s.setEngine e b).engines[e]? := by rw [hab]
    rw [State.setEngine_getElem_self h, State.setEngine_getElem_self h] at this
    exact Option.some.inj this
  · rintro rfl; rfl

/-! ## Response words -/

theorem respondWords_nil (st : Status) (v : BitVec 16) : respondWords st v [] = [responseWord st v] := rfl

theorem statusCode_injective (a b : Status) : statusCode a = statusCode b → a = b := by
  cases a <;> cases b <;> decide

/-- STATUS, the reserved bits and VALUE of a response word (R77). -/
theorem responseWord_status (st : Status) (v : BitVec 16) : (responseWord st v).extractLsb' 0 8 = statusCode st := by
  apply BitVec.eq_of_toNat_eq
  have := (statusCode st).isLt
  simp only [responseWord, BitVec.extractLsb'_toNat, BitVec.toNat_ofNat, Nat.shiftRight_eq_div_pow]
  omega

theorem responseWord_reserved (st : Status) (v : BitVec 16) : (responseWord st v).extractLsb' 8 8 = 0 := by
  apply BitVec.eq_of_toNat_eq
  have := (statusCode st).isLt
  simp only [responseWord, BitVec.extractLsb'_toNat, BitVec.toNat_ofNat, Nat.shiftRight_eq_div_pow,
    BitVec.ofNat_eq_ofNat, Nat.zero_mod]
  omega

theorem responseWord_value (st : Status) (v : BitVec 16) : (responseWord st v).extractLsb' 16 16 = v := by
  apply BitVec.eq_of_toNat_eq
  have := (statusCode st).isLt
  simp only [responseWord, BitVec.extractLsb'_toNat, BitVec.toNat_ofNat, Nat.shiftRight_eq_div_pow]
  omega

/-- An OK response word is its VALUE, 16 bits up (R79). -/
theorem responseWord_ok (n : Nat) : responseWord .ok (BitVec.ofNat 16 n) = BitVec.ofNat 32 (2 ^ 16 * n) := by
  apply BitVec.eq_of_toNat_eq
  simp only [responseWord, statusCode, BitVec.toNat_ofNat, BitVec.ofNat_eq_ofNat]
  omega

theorem packWords_eq_nil {d : Bytes} : packWords d = [] ↔ d = [] := by
  rw [← List.length_eq_zero_iff, ← List.length_eq_zero_iff, length_packWords]
  omega

end Sys2Proof.Machine
end

