-- ==== Sys2Proof/Laws/Registry.lean ====
section
/-! SUPPORT. The registry: what a lookup answers, what the parameter records hold, and that the storage fits them. -/

namespace Sys2Proof.Machine

/-! ## Codes and families -/

theorem familyOf_familyCode (f : Family) : familyOf (familyCode f) = some f := by cases f <;> rfl

theorem familyOf_eq_some {alg : BitVec 8} {f : Family} (h : familyOf alg = some f) : alg = familyCode f := by
  unfold familyOf at h
  split at h
  case h_10 => cases h
  all_goals
    next hn =>
      cases h
      exact BitVec.eq_of_toNat_eq hn

theorem familyCode_injective {f g : Family} (h : familyCode f = familyCode g) : f = g := by
  have := familyOf_familyCode f
  rw [h, familyOf_familyCode] at this
  exact (Option.some.inj this).symm

theorem supportedFamily_code {cfg : Config} {f : Family} (h : f ∈ cfg.algSupported) :
    supportedFamily cfg (familyCode f) = some f := by
  rw [supportedFamily, familyOf_familyCode]
  exact if_pos h

theorem supportedFamily_eq_some {cfg : Config} {alg : BitVec 8} {f : Family}
    (h : supportedFamily cfg alg = some f) : f ∈ cfg.algSupported ∧ alg = familyCode f := by
  unfold supportedFamily at h
  split at h
  · next g hg =>
    split at h
    · next hm => cases h; exact ⟨hm, familyOf_eq_some hg⟩
    · cases h
  · cases h

theorem supportedFamily_none {cfg : Config} {alg : BitVec 8} (h : ∀ f ∈ cfg.algSupported, alg ≠ familyCode f) :
    supportedFamily cfg alg = none := by
  cases hs : supportedFamily cfg alg with
  | none => rfl
  | some f =>
    obtain ⟨hf, ha⟩ := supportedFamily_eq_some hs
    exact absurd ha (h f hf)

/-! ## Lookup (R94) -/

theorem registryLookup_unsupported {cfg : Config} {alg : BitVec 8}
    (h : ∀ f ∈ cfg.algSupported, alg ≠ familyCode f) (dlen : BitVec 16) :
    registryLookup cfg alg dlen = .error .unsupportedAlgorithm := by
  rw [registryLookup, supportedFamily_none h]

theorem registryLookup_supported {cfg : Config} {f : Family} (h : f ∈ cfg.algSupported) (dlen : BitVec 16) :
    registryLookup cfg (familyCode f) dlen =
      if legalDlen f (if dlen = 0 then maxDlen f else dlen.toNat) = true then
        .ok (paramsOf f (if dlen = 0 then maxDlen f else dlen.toNat))
      else .error .badHashLength := by
  rw [registryLookup, supportedFamily_code h]

/-- A lookup fails with one of two statuses. -/
theorem registryLookup_error {cfg : Config} {alg : BitVec 8} {dlen : BitVec 16} {st : Status}
    (h : registryLookup cfg alg dlen = .error st) : st = .unsupportedAlgorithm ∨ st = .badHashLength := by
  unfold registryLookup at h
  split at h
  · cases h; exact .inl rfl
  · next f _ =>
    dsimp only at h
    generalize (if dlen = 0 then maxDlen f else dlen.toNat) = n at h
    split at h
    · cases h
    · cases h; exact .inr rfl

/-- A lookup that succeeds on a nonzero length gives the variant of a context with that code and length. -/
theorem registryLookup_ok {cfg : Config} {alg : BitVec 8} {dlen : BitVec 16} {p : Params}
    (h : registryLookup cfg alg dlen = .ok p) (h0 : dlen ≠ 0) :
    ∃ f ∈ cfg.algSupported, alg = familyCode f ∧ legalDlen f dlen.toNat = true ∧ p = paramsOf f dlen.toNat := by
  unfold registryLookup at h
  split at h
  · cases h
  · next f hf =>
    obtain ⟨hm, ha⟩ := supportedFamily_eq_some hf
    rw [if_neg h0] at h
    dsimp only at h
    split at h
    · next hl => cases h; exact ⟨f, hm, ha, hl, rfl⟩
    · cases h

theorem variantOf_code (f : Family) (dlen : BitVec 16) :
    variantOf (familyCode f) dlen = if legalDlen f dlen.toNat = true then some (paramsOf f dlen.toNat) else none := by
  rw [variantOf, familyOf_familyCode]

theorem variantOf_eq_some {alg : BitVec 8} {dlen : BitVec 16} {p : Params} (h : variantOf alg dlen = some p) :
    ∃ f, alg = familyCode f ∧ legalDlen f dlen.toNat = true ∧ p = paramsOf f dlen.toNat := by
  unfold variantOf at h
  split at h
  · next f hf =>
    split at h
    · next hl => cases h; exact ⟨f, familyOf_eq_some hf, hl, rfl⟩
    · cases h
  · cases h

theorem legalDlen_zero (f : Family) : legalDlen f 0 = false := by cases f <;> rfl

theorem legalDlen_maxDlen (f : Family) : legalDlen f (maxDlen f) = true := by cases f <;> rfl

theorem ne_zero_of_legal {f : Family} {dlen : BitVec 16} (h : legalDlen f dlen.toNat = true) : dlen ≠ 0 := by
  rintro rfl
  rw [show (0 : BitVec 16).toNat = 0 from rfl, legalDlen_zero] at h
  cases h

/-- The legal lengths, spelled out (R93). -/
theorem legalDlen_cases {f : Family} {n : Nat} : legalDlen f n = true →
    match f with
    | .blake => n = 224 ∨ n = 256 ∨ n = 384 ∨ n = 512
    | .groestl => n % 8 = 0 ∧ 8 ≤ n ∧ n ≤ 512
    | .rmd320 => n = 320
    | .whirlpool => n = 512
    | .jh => n = 224 ∨ n = 256 ∨ n = 384 ∨ n = 512
    | .lsh256 => n = 224 ∨ n = 256
    | .lsh512 => n = 224 ∨ n = 256 ∨ n = 384 ∨ n = 512
    | .crc32 => n = 32
    | .cksum => n = 32 := by
  intro h
  cases f <;> simpa [legalDlen, or_assoc, and_assoc] using h

/-! ## Parameter records (R95) -/

@[simp] theorem paramsOf_family (f : Family) (n : Nat) : (paramsOf f n).family = f := by
  cases f <;> simp only [paramsOf] <;> split <;> rfl

@[simp] theorem paramsOf_dlen (f : Family) (n : Nat) : (paramsOf f n).dlen = n := by
  cases f <;> simp only [paramsOf] <;> split <;> rfl

theorem paramsOf_blockBytes (f : Family) (n : Nat) : (paramsOf f n).blockBytes =
    match f with
    | .blake => if n ≤ 256 then 64 else 128
    | .groestl => if n ≤ 256 then 64 else 128
    | .rmd320 => 64
    | .whirlpool => 64
    | .jh => 64
    | .lsh256 => 128
    | .lsh512 => 256
    | .crc32 => 1
    | .cksum => 1 := by
  cases f <;> simp only [paramsOf] <;> split <;> rfl

theorem paramsOf_lengthBytes (f : Family) (n : Nat) : (paramsOf f n).lengthBytes =
    match f with
    | .blake => if n ≤ 256 then 8 else 16
    | .groestl => 8
    | .rmd320 => 8
    | .whirlpool => 32
    | .jh => 16
    | .lsh256 => 0
    | .lsh512 => 0
    | .crc32 => 0
    | .cksum => 0 := by
  cases f <;> simp only [paramsOf] <;> split <;> rfl

/-- Every block fits BMAX, and none is empty (R14). -/
theorem blockBytes_bounds {alg : BitVec 8} {dlen : BitVec 16} {p : Params} (h : variantOf alg dlen = some p) :
    1 ≤ p.blockBytes ∧ p.blockBytes ≤ 256 := by
  obtain ⟨f, _, _, rfl⟩ := variantOf_eq_some h
  rw [paramsOf_blockBytes]
  cases f <;> dsimp only <;> (try split) <;> omega

/-- The variant's digest length is the context's, at least 8 and at most 512 bits (R14, R93). -/
theorem variantOf_dlen {alg : BitVec 8} {dlen : BitVec 16} {p : Params} (h : variantOf alg dlen = some p) :
    p.dlen = dlen.toNat ∧ 8 ≤ p.dlen ∧ p.dlen ≤ 512 ∧ p.dlen % 8 = 0 := by
  obtain ⟨f, _, hl, rfl⟩ := variantOf_eq_some h
  have := legalDlen_cases hl
  refine ⟨paramsOf_dlen _ _, ?_⟩
  rw [paramsOf_dlen]
  cases f <;> simp only at this <;> omega

/-! ## Length limits (R98) -/

/-- Every length limit is below 2^256, so the 256-bit counter holds every accepted length (R29). -/
theorem lt_of_withinLimit {alg : BitVec 8} {dlen : BitVec 16} {p : Params} (h : variantOf alg dlen = some p) {n : Nat}
    (hw : withinLimit p n = true) : n < 2 ^ 256 := by
  obtain ⟨f, _, _, rfl⟩ := variantOf_eq_some h
  have hb : (paramsOf f dlen.toNat).blockBytes ≤ 256 := (blockBytes_bounds h).2
  have hb' : 1 ≤ (paramsOf f dlen.toNat).blockBytes := (blockBytes_bounds h).1
  rw [withinLimit, paramsOf_family] at hw
  cases f <;> simp only [decide_eq_true_eq] at hw
  case blake => split at hw <;> omega
  case groestl =>
    rw [Nat.div_le_iff_le_mul_add_pred (by omega)] at hw
    have : 8 * (paramsOf .groestl dlen.toNat).blockBytes * (2 ^ 64 - 1) ≤ 2048 * (2 ^ 64 - 1) :=
      Nat.mul_le_mul_right _ (by omega)
    omega
  all_goals omega

/-- A message shorter than 2^64 bits is within every limit but that its length stay below it (R98). -/
theorem withinLimit_of_lt {alg : BitVec 8} {dlen : BitVec 16} {p : Params} (h : variantOf alg dlen = some p) {n : Nat}
    (hn : n < 2 ^ 64) : withinLimit p n = true := by
  obtain ⟨f, _, _, rfl⟩ := variantOf_eq_some h
  rw [withinLimit, paramsOf_family]
  cases f <;> simp only [decide_eq_true_eq]
  case blake => split <;> omega
  case groestl =>
    have hb : 64 ≤ (paramsOf .groestl dlen.toNat).blockBytes := by
      rw [paramsOf_blockBytes]; dsimp only; split <;> omega
    rw [Nat.div_le_iff_le_mul_add_pred (by omega)]
    have : 512 * (2 ^ 64 - 1) ≤ 8 * (paramsOf .groestl dlen.toNat).blockBytes * (2 ^ 64 - 1) :=
      Nat.mul_le_mul_right _ (by omega)
    omega
  all_goals omega

/-- A limit that admits a length admits every shorter one. -/
theorem withinLimit_mono {p : Params} {m n : Nat} (h : m ≤ n) (hw : withinLimit p n = true) :
    withinLimit p m = true := by
  rw [withinLimit] at hw ⊢
  cases hf : p.family <;> rw [hf] at hw <;> simp only [decide_eq_true_eq] at hw ⊢
  case groestl => exact le_trans (Nat.div_le_div_right (by omega)) hw
  all_goals omega

theorem acceptsPartial_groestl {cfg : Config} {f : Family} (h : acceptsPartial cfg f = true) :
    f = .groestl ∧ cfg.partialBitFamilies = .groestlOnly := by
  unfold acceptsPartial at h
  split at h
  · cases h
  · next hc => exact ⟨by simpa using h, hc⟩

/-! ## Storage -/

/-- The chaining storage that opens with at most 128 bytes is those bytes and zeros. -/
theorem Chain.toList_ofBytes {s : Bytes} (h : s.length ≤ 128) :
    (Chain.ofBytes s).toList = s ++ List.replicate (128 - s.length) 0 := by
  change (s ++ List.replicate 128 0).take 128 = _
  rw [List.take_append, List.take_of_length_le h, List.take_replicate, Nat.min_eq_left (by omega)]

/-- The bytes it opens with are read back. -/
theorem Chain.bytes_ofBytes {s : Bytes} {n : Nat} (hn : s.length = n) (h : n ≤ 128) :
    (Chain.ofBytes s).bytes n = s := by
  rw [Chain.bytes, Chain.toList_ofBytes (by omega), ← hn, List.take_left]

@[simp] theorem Chain.length_bytes (c : Chain) (n : Nat) : (c.bytes n).length = min n 128 := by
  rw [Chain.bytes, List.length_take, Vector.length_toList]

theorem length_groestlIV (n : Nat) : (groestlIV n).length = 8 * groestlColumns n := by
  unfold groestlIV groestlColumns
  split <;> rw [List.length_append, length_zeros, length_encBE]

theorem length_blakeIV32 (n : Nat) : (blakeIV32 n).length = 8 := by unfold blakeIV32; split <;> rfl

theorem length_blakeIV64 (n : Nat) : (blakeIV64 n).length = 8 := by unfold blakeIV64; split <;> rfl

theorem length_jhIVRow (n : Nat) : (jhIVRow n).length = 8 := by unfold jhIVRow; split <;> rfl

theorem length_lshIV32 (n : Nat) : (lshIV32 n).length = 16 := by unfold lshIV32; split <;> rfl

theorem length_lshIV64 (n : Nat) : (lshIV64 n).length = 16 := by unfold lshIV64; split <;> rfl

/-- The IV is as long as the variant's chaining state (R35, R96). -/
theorem length_initialValue (f : Family) (n : Nat) :
    (initialValue (paramsOf f n)).length = (paramsOf f n).stateWords * (paramsOf f n).wordBits / 8 := by
  rw [initialValue, paramsOf_family, paramsOf_dlen]
  cases f <;> simp only [paramsOf]
  case blake => split <;> simp only [length_bytesBE, length_blakeIV32, length_blakeIV64]
  case groestl => rw [length_groestlIV, groestlColumns]; split <;> simp
  case rmd320 => rw [length_bytesLE]; rfl
  case whirlpool => rw [whirlpoolIV, length_zeros]
  case jh => rw [jhIV, length_bytesBE, length_jhIVRow]
  case lsh256 => rw [length_bytesLE, length_lshIV32]
  case lsh512 => rw [length_bytesLE, length_lshIV64]
  all_goals rw [length_encBE]

end Sys2Proof.Machine
end

