-- ==== Sys2Proof/Laws/Pipeline.lean ====
section
/-! SUPPORT. The accumulator, byte by byte and block by block, the final blocks and the length of the digest. -/

namespace Sys2Proof.Machine

/-! ## The buffer -/

theorem length_buffered {c : Ctx} (h : c.bufLen.toNat ≤ 256) : (buffered c).length = c.bufLen.toNat := by
  rw [buffered, List.length_take, Vector.length_toList]
  omega

/-- A byte written at k follows the first k bytes. -/
theorem take_setIfInBounds {b : Vector Byte 256} {k : Nat} (h : k < 256) (x : Byte) :
    (b.setIfInBounds k x).toList.take (k + 1) = b.toList.take k ++ [x] := by
  have hl : b.toList.length = 256 := Vector.length_toList
  rw [Vector.toList_setIfInBounds, List.take_succ_eq_append_getElem (by rw [List.length_set]; omega),
    List.take_set_of_le (Nat.le_refl k), List.getElem_set_self]

theorem toNat_add_one {w : Nat} {x : BitVec w} (h : x.toNat + 1 < 2 ^ w) : (x + 1).toNat = x.toNat + 1 := by
  rcases Nat.lt_or_ge 1 (2 ^ w) with hw | hw
  · rw [BitVec.toNat_add, show (1 : BitVec w).toNat = 1 from (BitVec.toNat_ofNat 1 w).trans (Nat.mod_eq_of_lt hw),
      Nat.mod_eq_of_lt h]
  · omega

/-! ## One byte -/

theorem absorbByte_filling {p : Params} {c : Ctx} (h : (c.bufLen + 1).toNat ≠ p.blockBytes) (x : Byte) :
    absorbByte p c x = { c with buf := c.buf.setIfInBounds c.bufLen.toNat x, bufLen := c.bufLen + 1 } := by
  rw [absorbByte]
  exact if_neg h

theorem absorbByte_full {p : Params} {c : Ctx} (h : (c.bufLen + 1).toNat = p.blockBytes) (x : Byte) :
    absorbByte p c x =
      transformBuffer p { c with buf := c.buf.setIfInBounds c.bufLen.toNat x, bufLen := c.bufLen + 1 } := by
  rw [absorbByte]
  exact if_pos h

/-- Everything absorbing a byte can do to the fields it does not name: nothing (R100). -/
theorem absorbByte_frame (p : Params) (c : Ctx) (x : Byte) :
    (absorbByte p c x).state = c.state ∧ (absorbByte p c x).alg = c.alg ∧ (absorbByte p c x).dlen = c.dlen ∧
    (absorbByte p c x).msgBits = c.msgBits ∧ (absorbByte p c x).partialBits = c.partialBits ∧
    (absorbByte p c x).nullt = c.nullt := by
  by_cases h : (c.bufLen + 1).toNat = p.blockBytes
  · rw [absorbByte_full h]; exact ⟨rfl, rfl, rfl, rfl, rfl, rfl⟩
  · rw [absorbByte_filling h]; exact ⟨rfl, rfl, rfl, rfl, rfl, rfl⟩

/-- Absorbing does not look at the bit count (R100). -/
theorem absorbByte_msgBits (p : Params) (c : Ctx) (x : Byte) (n : BitVec 256) :
    absorbByte p { c with msgBits := n } x = { absorbByte p c x with msgBits := n } := by
  by_cases h : (c.bufLen + 1).toNat = p.blockBytes
  · rw [absorbByte_full h, absorbByte_full (c := { c with msgBits := n }) h]; rfl
  · rw [absorbByte_filling h, absorbByte_filling (c := { c with msgBits := n }) h]

/-! ## Byte strings -/

theorem absorb_nil (p : Params) (c : Ctx) : absorb p c [] = c := rfl

theorem absorb_cons (p : Params) (c : Ctx) (x : Byte) (xs : Bytes) :
    absorb p c (x :: xs) = absorb p (absorbByte p c x) xs := rfl

theorem absorb_append (p : Params) (c : Ctx) (xs ys : Bytes) :
    absorb p c (xs ++ ys) = absorb p (absorb p c xs) ys := List.foldl_append

theorem absorb_frame (p : Params) (c : Ctx) (xs : Bytes) :
    (absorb p c xs).state = c.state ∧ (absorb p c xs).alg = c.alg ∧ (absorb p c xs).dlen = c.dlen ∧
    (absorb p c xs).msgBits = c.msgBits ∧ (absorb p c xs).partialBits = c.partialBits ∧
    (absorb p c xs).nullt = c.nullt := by
  induction xs generalizing c with
  | nil => exact ⟨rfl, rfl, rfl, rfl, rfl, rfl⟩
  | cons x xs ih =>
    obtain ⟨h1, h2, h3, h4, h5, h6⟩ := ih (absorbByte p c x)
    obtain ⟨g1, g2, g3, g4, g5, g6⟩ := absorbByte_frame p c x
    rw [absorb_cons, h1, h2, h3, h4, h5, h6]
    exact ⟨g1, g2, g3, g4, g5, g6⟩

theorem absorb_msgBits (p : Params) (c : Ctx) (xs : Bytes) (n : BitVec 256) :
    absorb p { c with msgBits := n } xs = { absorb p c xs with msgBits := n } := by
  induction xs generalizing c with
  | nil => rfl
  | cons x xs ih => rw [absorb_cons, absorbByte_msgBits, ih, absorb_cons]

/-! ## Block by block (R101) -/

theorem fullBlocks_short {B : Nat} {s : Bytes} (h : s.length < B) : fullBlocks B s = [] := by
  rw [fullBlocks, Nat.div_eq_of_lt h, List.range_zero, List.map_nil]

theorem fullBlocks_append {B : Nat} (hB : 1 ≤ B) {b : Bytes} (hb : b.length = B) (s : Bytes) :
    fullBlocks B (b ++ s) = b :: fullBlocks B s := by
  have hq : (b ++ s).length / B = s.length / B + 1 := by
    rw [List.length_append, hb, Nat.add_comm, Nat.add_div_right _ hB]
  rw [fullBlocks, hq, List.range_succ_eq_map, List.map_cons, List.map_map]
  have h0 : ((b ++ s).drop (0 * B)).take B = b := by
    rw [Nat.zero_mul, List.drop_zero, ← hb, List.take_left]
  rw [h0, fullBlocks]
  congr 1
  refine List.map_congr_left fun j _ => ?_
  have hj : (j + 1) * B = b.length + j * B := by rw [Nat.succ_mul, hb, Nat.add_comm]
  rw [Function.comp_apply, Nat.succ_eq_add_one, hj, ← List.drop_drop, List.drop_left]

/-- A byte that does not fill the buffer: it is buffered, and nothing else changes. -/
theorem absorbByte_filling_facts {p : Params} (h2 : p.blockBytes ≤ 256) {c : Ctx} (hc : c.bufLen.toNat < p.blockBytes)
    (hf : c.bufLen.toNat + 1 ≠ p.blockBytes) (x : Byte) :
    (absorbByte p c x).chain = c.chain ∧ (absorbByte p c x).blockCount = c.blockCount ∧
    (absorbByte p c x).bufLen.toNat = c.bufLen.toNat + 1 ∧ buffered (absorbByte p c x) = buffered c ++ [x] := by
  have hb : (c.bufLen + 1).toNat = c.bufLen.toNat + 1 := toNat_add_one (by omega)
  rw [absorbByte_filling (by rw [hb]; exact hf)]
  refine ⟨rfl, rfl, hb, ?_⟩
  rw [buffered]
  dsimp only
  rw [hb, take_setIfInBounds (by omega)]
  rfl

/-- A byte that fills the buffer: the buffered bytes and it are one block of the message. -/
theorem absorbByte_full_facts {p : Params} (h2 : p.blockBytes ≤ 256) {c : Ctx}
    (hf : c.bufLen.toNat + 1 = p.blockBytes) (hn : c.blockCount.toNat + 1 < 2 ^ 256) (x : Byte) :
    ((absorbByte p c x).chain, (absorbByte p c x).blockCount.toNat) =
      messageBlock p (c.chain, c.blockCount.toNat) (buffered c ++ [x]) ∧
    (absorbByte p c x).bufLen = 0 ∧ buffered (absorbByte p c x) = [] := by
  have hb : (c.bufLen + 1).toNat = c.bufLen.toNat + 1 := toNat_add_one (by omega)
  have hcount : (c.blockCount + 1).toNat = c.blockCount.toNat + 1 := toNat_add_one hn
  have ht : (c.buf.setIfInBounds c.bufLen.toNat x).toList.take p.blockBytes = buffered c ++ [x] := by
    rw [← hf]; exact take_setIfInBounds (by omega) x
  rw [absorbByte_full (by rw [hb]; exact hf)]
  refine ⟨?_, rfl, rfl⟩
  rw [messageBlock, transformBuffer_blockCount, transformBuffer]
  dsimp only
  rw [hcount, ht]

/-- Absorbing a byte string, block by block: the full blocks of what was buffered and what came go through the core,
counted, and the rest is buffered (R100, R101, R102). -/
theorem absorb_blockwise {p : Params} (h1 : 1 ≤ p.blockBytes) (h2 : p.blockBytes ≤ 256) (xs : Bytes) (c : Ctx)
    (hc : c.bufLen.toNat < p.blockBytes)
    (hn : c.blockCount.toNat + (buffered c ++ xs).length / p.blockBytes < 2 ^ 256) :
    ((absorb p c xs).chain, (absorb p c xs).blockCount.toNat) =
      (fullBlocks p.blockBytes (buffered c ++ xs)).foldl (messageBlock p) (c.chain, c.blockCount.toNat) ∧
    (absorb p c xs).bufLen.toNat = (buffered c ++ xs).length % p.blockBytes ∧
    buffered (absorb p c xs) =
      (buffered c ++ xs).drop (p.blockBytes * ((buffered c ++ xs).length / p.blockBytes)) := by
  induction xs generalizing c with
  | nil =>
    have hl := length_buffered (c := c) (by omega)
    rw [absorb_nil, List.append_nil, fullBlocks_short (by omega), hl, Nat.mod_eq_of_lt hc, Nat.div_eq_of_lt hc,
      Nat.mul_zero, List.drop_zero]
    exact ⟨rfl, rfl, rfl⟩
  | cons x xs ih =>
    have hm : buffered c ++ x :: xs = (buffered c ++ [x]) ++ xs := by
      rw [List.append_assoc, List.singleton_append]
    rw [absorb_cons, hm]
    rw [hm] at hn
    by_cases hf : c.bufLen.toNat + 1 = p.blockBytes
    · have hbl : (buffered c ++ [x]).length = p.blockBytes := by
        rw [List.length_append, length_buffered (by omega), List.length_singleton]; exact hf
      have hq : ((buffered c ++ [x]) ++ xs).length / p.blockBytes = xs.length / p.blockBytes + 1 := by
        rw [List.length_append, hbl, Nat.add_comm, Nat.add_div_right _ h1]
      rw [hq] at hn
      have hn1 : c.blockCount.toNat + 1 < 2 ^ 256 :=
        Nat.lt_of_le_of_lt (Nat.add_le_add_left (Nat.le_add_left 1 _) _) hn
      obtain ⟨f1, f2, f3⟩ := absorbByte_full_facts h2 hf hn1 x
      have f1' : (absorbByte p c x).blockCount.toNat = c.blockCount.toNat + 1 := congrArg Prod.snd f1
      obtain ⟨i1, i2, i3⟩ := ih (absorbByte p c x) (by rw [f2]; exact h1)
        (by rw [f3, List.nil_append, f1', Nat.add_assoc, Nat.add_comm 1]; exact hn)
      rw [f3, List.nil_append] at i1 i2 i3
      rw [i1, i2, i3, f1, fullBlocks_append h1 hbl, List.foldl_cons]
      refine ⟨rfl, ?_, ?_⟩
      · rw [List.length_append, hbl, Nat.add_mod_left]
      · rw [hq, Nat.mul_succ, Nat.add_comm, ← List.drop_drop]
        congr 1
        rw [← hbl, List.drop_left]
    · obtain ⟨f1, f2, f3, f4⟩ := absorbByte_filling_facts h2 hc hf x
      obtain ⟨i1, i2, i3⟩ := ih (absorbByte p c x) (by omega) (by rw [f4, f2]; exact hn)
      rw [f4] at i1 i2 i3
      rw [i1, i2, i3, f1, f2]
      exact ⟨rfl, rfl, rfl⟩

/-- The block count of a fold of blocks. -/
theorem messageBlock_count (p : Params) (bs : List Bytes) (x : Chain × Nat) :
    (bs.foldl (messageBlock p) x).2 = x.2 + bs.length := by
  induction bs generalizing x with
  | nil => rfl
  | cons b bs ih => rw [List.foldl_cons, ih, List.length_cons, messageBlock]; omega

theorem length_fullBlocks (B : Nat) (s : Bytes) : (fullBlocks B s).length = s.length / B := by
  rw [fullBlocks, List.length_map, List.length_range]

/-- The counters after absorbing (R102). -/
theorem absorb_counters {p : Params} (h1 : 1 ≤ p.blockBytes) (h2 : p.blockBytes ≤ 256) (xs : Bytes) (c : Ctx)
    (hc : c.bufLen.toNat < p.blockBytes)
    (hn : c.blockCount.toNat + (c.bufLen.toNat + xs.length) / p.blockBytes < 2 ^ 256) :
    (absorb p c xs).blockCount.toNat = c.blockCount.toNat + (c.bufLen.toNat + xs.length) / p.blockBytes ∧
    (absorb p c xs).bufLen.toNat = (c.bufLen.toNat + xs.length) % p.blockBytes := by
  have hl : (buffered c ++ xs).length = c.bufLen.toNat + xs.length := by
    rw [List.length_append, length_buffered (by omega)]
  obtain ⟨a1, a2, _⟩ := absorb_blockwise h1 h2 xs c hc (by rw [hl]; exact hn)
  refine ⟨?_, by rw [a2, hl]⟩
  have := congrArg Prod.snd a1
  rw [messageBlock_count, length_fullBlocks, hl] at this
  exact this

/-! ## Final blocks -/

theorem finalize_fold_blockCount (p : Params) (bs : List FinalBlock) (c : Ctx) :
    (bs.foldl (applyFinalBlock p) c).blockCount = c.blockCount + BitVec.ofNat 256 bs.length := by
  induction bs generalizing c with
  | nil => rw [List.foldl_nil, List.length_nil]; exact (BitVec.add_zero _).symm
  | cons b bs ih =>
    rw [List.foldl_cons, ih, applyFinalBlock_blockCount, List.length_cons, BitVec.add_assoc]
    congr 1
    rw [BitVec.add_comm]
    exact (BitVec.ofNat_add bs.length 1).symm

theorem finalizeCtx_blockCount (p : Params) (c : Ctx) :
    (finalizeCtx p c).blockCount = c.blockCount + BitVec.ofNat 256 (finalBlocks p c).length :=
  finalize_fold_blockCount p _ c

/-- The chaining state after the final blocks: each through the core with its counter and nullt (R105, R122). -/
theorem finalizeCtx_chain (p : Params) (c : Ctx) :
    (finalizeCtx p c).chain = (finalBlocks p c).foldl (fun h b => compress p h b.block b.t b.nullt) c.chain := by
  have : ∀ (bs : List FinalBlock) (c : Ctx), (bs.foldl (applyFinalBlock p) c).chain =
      bs.foldl (fun h b => compress p h b.block b.t b.nullt) c.chain := by
    intro bs
    induction bs with
    | nil => intro c; rfl
    | cons b bs ih => intro c; exact ih _
  exact this _ c

/-- The final blocks leave the bit count as it is. -/
theorem finalizeCtx_msgBits (p : Params) (c : Ctx) : (finalizeCtx p c).msgBits = c.msgBits := by
  have : ∀ (bs : List FinalBlock) (c : Ctx), (bs.foldl (applyFinalBlock p) c).msgBits = c.msgBits := by
    intro bs
    induction bs with
    | nil => intro c; rfl
    | cons b bs ih => intro c; exact ih _
  exact this _ c

/-! ## The digest -/

theorem length_groestlMix (c : Nat) (x : Bytes) : (groestlMix c x).length = 8 * c := by
  rw [groestlMix, List.length_map, List.length_range]

theorem length_groestlPerm (q : Bool) {c : Nat} {x : Bytes} (h : x.length = 8 * c) :
    (groestlPerm q c x).length = 8 * c := by
  rw [groestlPerm]
  generalize List.range (groestlRounds c) = rs
  induction rs generalizing x with
  | nil => exact h
  | cons r rs ih => exact ih (length_groestlMix c _)

theorem length_groestlOmega {c : Nat} {h : Bytes} (hl : h.length = 8 * c) : (groestlOmega c h).length = 8 * c := by
  rw [groestlOmega, length_xorWords, length_groestlPerm false hl, hl, Nat.min_self]

/-- The byte count in base 256, least significant byte first, is fed to the CKSUM register (R181). -/
theorem cksumCount_eq_digits (fuel n : Nat) (h : n < 256 ^ fuel) (crc : BitVec 32) :
    cksumCount fuel n crc = (Nat.digits 256 n).foldl (fun r d => cksumStep r (BitVec.ofNat 8 d)) crc := by
  induction fuel generalizing n crc with
  | zero =>
    have : n = 0 := by omega
    rw [this, Nat.digits_zero]
    rfl
  | succ fuel ih =>
    rw [cksumCount]
    by_cases h0 : n = 0
    · rw [if_pos h0, h0, Nat.digits_zero]
      rfl
    · rw [if_neg h0, Nat.digits_def' (by decide) (Nat.pos_of_ne_zero h0), List.foldl_cons]
      exact ih _ (by rw [Nat.div_lt_iff_lt_mul (by decide)]; exact h) _

theorem length_lshFold {w : Nat} (cv : List (BitVec w)) : (lshFold cv).length = 8 := by
  rw [lshFold, List.length_map, List.length_range]

/-- The digest has as many bytes as the variant's digest length says (R108). -/
theorem length_outputBytes {alg : BitVec 8} {dlen : BitVec 16} {p : Params} (h : variantOf alg dlen = some p)
    (c : Ctx) : (outputBytes p c).length = dlen.toNat / 8 := by
  obtain ⟨f, _, hl, rfl⟩ := variantOf_eq_some h
  have hc := legalDlen_cases hl
  rw [outputBytes, paramsOf_family, paramsOf_dlen]
  cases f <;> dsimp only at hc ⊢
  case blake =>
    split <;> rw [List.length_take, length_bytesBE, length_wordsBE] <;> omega
  case groestl =>
    have hcol : groestlColumns dlen.toNat ≤ 16 := by unfold groestlColumns; split <;> omega
    have hcol' : dlen.toNat ≤ 64 * groestlColumns dlen.toNat := by unfold groestlColumns; split <;> omega
    rw [length_lastBytes, length_groestlOmega (by rw [Chain.length_bytes]; omega)]
    omega
  case rmd320 => rw [length_bytesLE, length_wordsLE, hc]
  case whirlpool => rw [Chain.length_bytes]; omega
  case jh => rw [length_lastBytes, Chain.length_bytes]; omega
  case lsh256 => rw [List.length_take, length_bytesLE, length_lshFold]; omega
  case lsh512 => rw [List.length_take, length_bytesLE, length_lshFold]; omega
  all_goals rw [length_encBE, hc]

theorem length_digest {alg : BitVec 8} {dlen : BitVec 16} {p : Params} (h : variantOf alg dlen = some p) (c : Ctx) :
    (digest p c).length = dlen.toNat / 8 := length_outputBytes h _

end Sys2Proof.Machine
end

