-- ==== Sys2Proof/Laws/Commands.lean ====
section
/-! SUPPORT. The six commands at their engine: what each can do, said once, and that each keeps the invariants of
10_state.md R36. -/

namespace Sys2Proof.Machine

/-- The outcome of a command at its engine. -/
def engineExec (cfg : Config) (i : Instr) (e : Engine) : Host.Outcome Engine Fault Refusal :=
  match i with
  | .init alg dlen => .next (initEngine cfg alg dlen e)
  | .update bitlen payload =>
    if payload.length ≠ payloadBytes bitlen then .refused .payloadLength else updateEngine cfg bitlen payload e
  | .final => finalEngine e
  | .drop => .next (dropEngine e)
  | .qdlen alg dlen => .next (queryEngine cfg alg dlen (fun p => p.dlen / 8) e)
  | .qblk alg dlen => .next (queryEngine cfg alg dlen (fun p => p.blockBytes) e)

/-- A command on an existing engine is its outcome there. -/
theorem exec_eq {s : State} {eng : Engine} (h : s.engines[s.port]? = some eng) (i : Instr) :
    exec i s = liftEngine s s.port (engineExec s.cfg i eng) := by
  cases i with
  | update bitlen payload =>
    rw [exec, execUpdate, engineExec]
    by_cases hl : payload.length ≠ payloadBytes bitlen
    · rw [if_pos hl, if_pos hl]; rfl
    · rw [if_neg hl, if_neg hl, onEngine_some h]
  | init alg dlen => rw [exec, execInit, onEngine_some h, engineExec]
  | final => rw [exec, execFinal, onEngine_some h, engineExec]
  | drop => rw [exec, execDrop, onEngine_some h, engineExec]
  | qdlen alg dlen => rw [exec, execQdlen, onEngine_some h, engineExec]
  | qblk alg dlen => rw [exec, execQblk, onEngine_some h, engineExec]

/-- A command on an engine that does not exist is refused. -/
theorem exec_none {s : State} (h : s.engines[s.port]? = none) (i : Instr) : ∃ r, exec i s = .refused r := by
  cases i with
  | update bitlen payload =>
    rw [exec, execUpdate]
    split
    · exact ⟨_, rfl⟩
    · exact ⟨_, onEngine_none h _⟩
  | init alg dlen => rw [exec, execInit, onEngine_none h]; exact ⟨_, rfl⟩
  | final => rw [exec, execFinal, onEngine_none h]; exact ⟨_, rfl⟩
  | drop => rw [exec, execDrop, onEngine_none h]; exact ⟨_, rfl⟩
  | qdlen alg dlen => rw [exec, execQdlen, onEngine_none h]; exact ⟨_, rfl⟩
  | qblk alg dlen => rw [exec, execQblk, onEngine_none h]; exact ⟨_, rfl⟩

/-- A well-formed UPDATE on an existing engine. -/
theorem exec_update {s : State} {eng : Engine} (he : s.engines[s.port]? = some eng) {b : BitVec 64} {pl : Bytes}
    (hl : pl.length = payloadBytes b) :
    exec (.update b pl) s = liftEngine s s.port (updateEngine s.cfg b pl eng) := by
  rw [exec_eq he, engineExec, if_neg (not_not.2 hl)]

/-- A command after the engine of the port was written. -/
theorem exec_setEngine {s : State} {eng0 : Engine} (he : s.engines[s.port]? = some eng0) (eng : Engine) (i : Instr) :
    exec i (s.setEngine s.port eng) = liftEngine s s.port (engineExec s.cfg i eng) := by
  rw [exec_eq (State.setEngine_getElem_self he eng :
      (s.setEngine s.port eng).engines[(s.setEngine s.port eng).port]? = some eng)]
  rw [State.setEngine_cfg, State.setEngine_port]
  cases engineExec s.cfg i eng <;> simp only [liftEngine, State.setEngine_setEngine]

/-! ## UPDATE, case by case (R87, R187) -/

theorem updateEngine_idle {cfg : Config} {e : Engine} (h : e.ctx.state = .idle) (b : BitVec 64) (pl : Bytes) :
    updateEngine cfg b pl e = .next (e.replyError .noContext) := by rw [updateEngine, h]

theorem updateEngine_finalized {cfg : Config} {e : Engine} (h : e.ctx.state = .finalized) (b : BitVec 64)
    (pl : Bytes) : updateEngine cfg b pl e = .next (e.replyError .alreadyFinalized) := by rw [updateEngine, h]

theorem updateEngine_tail {cfg : Config} {e : Engine} (h : e.ctx.state = .tail) (b : BitVec 64) (pl : Bytes) :
    updateEngine cfg b pl e = .next (e.replyError .nonByteAlignedMidStream) := by rw [updateEngine, h]

theorem updateEngine_active {cfg : Config} {e : Engine} (h : e.ctx.state = .active) {p : Params}
    (hv : variantOf e.ctx.alg e.ctx.dlen = some p) (b : BitVec 64) (pl : Bytes) :
    updateEngine cfg b pl e =
      if tailBits b ≠ 0 ∧ acceptsPartial cfg p.family = false then .next (e.replyError .nonByteAlignedMidStream)
      else if withinLimit p (e.ctx.msgBits.toNat + b.toNat) = false then .fault .lengthLimit
      else .next ({ e with ctx := updateCtx p b pl e.ctx }.respond .ok 0 []) := by
  rw [updateEngine, h]
  dsimp only
  rw [updateActive, hv]

theorem updateEngine_accepted {cfg : Config} {e : Engine} (h : e.ctx.state = .active) {p : Params}
    (hv : variantOf e.ctx.alg e.ctx.dlen = some p) {b : BitVec 64}
    (ht : tailBits b = 0 ∨ acceptsPartial cfg p.family = true)
    (hw : withinLimit p (e.ctx.msgBits.toNat + b.toNat) = true) (pl : Bytes) :
    updateEngine cfg b pl e = .next ({ e with ctx := updateCtx p b pl e.ctx }.respond .ok 0 []) := by
  have hn : ¬(tailBits b ≠ 0 ∧ acceptsPartial cfg p.family = false) := by
    rintro ⟨h1, h2⟩
    rcases ht with h3 | h3
    · exact h1 h3
    · rw [h2] at h3; cases h3
  rw [updateEngine_active h hv, if_neg hn, hw, if_neg (by decide)]

/-- FINAL on a live context (R88). -/
theorem finalEngine_live {e : Engine} (hs : e.ctx.state = .active ∨ e.ctx.state = .tail) {p}
    (hv : variantOf e.ctx.alg e.ctx.dlen = some p) :
    finalEngine e = .next ({ e with ctx := { zeroise e.ctx with state := .finalized } }.respond .ok
      (BitVec.ofNat 16 (e.ctx.dlen.toNat / 8)) (digest p e.ctx)) := by
  rcases hs with hs | hs <;> rw [finalEngine, hs] <;> dsimp only <;> rw [finalLive, hv]

/-! ## Every command, once -/

/-- All that a command which completes can have done: an error response and nothing else, or the effect of INIT, of an
accepted UPDATE, of FINAL, of DROP or of a query. -/
theorem engineExec_next_cases {cfg : Config} {i : Instr} {e e' : Engine} (h : engineExec cfg i e = .next e') :
    (∃ st, st ∈ [Status.unsupportedAlgorithm, .badHashLength, .nonByteAlignedMidStream, .alreadyFinalized,
        .noContext] ∧ e' = e.replyError st) ∨
    (∃ alg dlen p, i = .init alg dlen ∧ registryLookup cfg alg dlen = .ok p ∧ dlen ≠ 0 ∧
      e' = { e with ctx := freshCtx p alg dlen e.ctx }.respond .ok 0 []) ∨
    (∃ b pl p, i = .update b pl ∧ pl.length = payloadBytes b ∧ e.ctx.state = .active ∧
      variantOf e.ctx.alg e.ctx.dlen = some p ∧ (tailBits b = 0 ∨ acceptsPartial cfg p.family = true) ∧
      withinLimit p (e.ctx.msgBits.toNat + b.toNat) = true ∧
      e' = { e with ctx := updateCtx p b pl e.ctx }.respond .ok 0 []) ∨
    (∃ p, i = .final ∧ (e.ctx.state = .active ∨ e.ctx.state = .tail) ∧ variantOf e.ctx.alg e.ctx.dlen = some p ∧
      e' = { e with ctx := { zeroise e.ctx with state := .finalized } }.respond .ok
        (BitVec.ofNat 16 (e.ctx.dlen.toNat / 8)) (digest p e.ctx)) ∨
    (i = .drop ∧ e' = dropEngine e) ∨
    (∃ alg dlen v, (i = .qdlen alg dlen ∨ i = .qblk alg dlen) ∧ e' = e.respond .ok v []) := by
  cases i with
  | init alg dlen =>
    simp only [engineExec, Host.Outcome.next.injEq] at h
    unfold initEngine at h
    split at h
    · next st hst =>
      refine .inl ⟨st, ?_, h.symm⟩
      rcases registryLookup_error hst with rfl | rfl <;> decide
    · next p hp =>
      split at h
      · exact .inl ⟨_, by decide, h.symm⟩
      · next h0 => exact .inr (.inl ⟨alg, dlen, p, rfl, hp, h0, h.symm⟩)
  | update b pl =>
    rw [engineExec] at h
    split at h
    · cases h
    · next hl =>
      cases hs : e.ctx.state with
      | idle => rw [updateEngine_idle hs] at h; cases h; exact .inl ⟨_, by decide, rfl⟩
      | finalized => rw [updateEngine_finalized hs] at h; cases h; exact .inl ⟨_, by decide, rfl⟩
      | tail => rw [updateEngine_tail hs] at h; cases h; exact .inl ⟨_, by decide, rfl⟩
      | active =>
        cases hv : variantOf e.ctx.alg e.ctx.dlen with
        | none =>
          rw [updateEngine, hs] at h
          dsimp only at h
          rw [updateActive, hv] at h
          cases h
        | some p =>
          rw [updateEngine_active hs hv] at h
          split at h
          · cases h; exact .inl ⟨_, by decide, rfl⟩
          · next ht =>
            split at h
            · cases h
            · next hw =>
              cases h
              refine .inr (.inr (.inl ⟨b, pl, p, rfl, not_not.1 hl, rfl, rfl, ?_, ?_, rfl⟩))
              · rw [not_and_or, not_not] at ht
                exact ht.imp_right fun h => by simpa using h
              · simpa using hw
  | final =>
    rw [engineExec, finalEngine] at h
    cases hs : e.ctx.state with
    | idle => rw [hs] at h; cases h; exact .inl ⟨_, by decide, rfl⟩
    | finalized => rw [hs] at h; cases h; exact .inl ⟨_, by decide, rfl⟩
    | active =>
      rw [hs] at h
      dsimp only at h
      unfold finalLive at h
      split at h
      · cases h
      · next p hp => cases h; exact .inr (.inr (.inr (.inl ⟨p, rfl, .inl rfl, hp, rfl⟩)))
    | tail =>
      rw [hs] at h
      dsimp only at h
      unfold finalLive at h
      split at h
      · cases h
      · next p hp => cases h; exact .inr (.inr (.inr (.inl ⟨p, rfl, .inr rfl, hp, rfl⟩)))
  | drop =>
    cases h
    exact .inr (.inr (.inr (.inr (.inl ⟨rfl, rfl⟩))))
  | qdlen alg dlen =>
    simp only [engineExec, Host.Outcome.next.injEq] at h
    unfold queryEngine at h
    split at h
    · next st hst =>
      refine .inl ⟨st, ?_, h.symm⟩
      rcases registryLookup_error hst with rfl | rfl <;> decide
    · exact .inr (.inr (.inr (.inr (.inr ⟨alg, dlen, _, .inl rfl, h.symm⟩))))
  | qblk alg dlen =>
    simp only [engineExec, Host.Outcome.next.injEq] at h
    unfold queryEngine at h
    split at h
    · next st hst =>
      refine .inl ⟨st, ?_, h.symm⟩
      rcases registryLookup_error hst with rfl | rfl <;> decide
    · exact .inr (.inr (.inr (.inr (.inr ⟨alg, dlen, _, .inr rfl, h.symm⟩))))

/-- A command that faults is an UPDATE past its length limit (R186). -/
theorem engineExec_fault {cfg : Config} {i : Instr} {e : Engine} {r : Fault} (h : engineExec cfg i e = .fault r) :
    ∃ b pl p, i = .update b pl ∧ e.ctx.state = .active ∧ variantOf e.ctx.alg e.ctx.dlen = some p ∧
      (tailBits b = 0 ∨ acceptsPartial cfg p.family = true) ∧
      withinLimit p (e.ctx.msgBits.toNat + b.toNat) = false := by
  cases i with
  | update b pl =>
    rw [engineExec] at h
    split at h
    · cases h
    · cases hs : e.ctx.state with
      | idle => rw [updateEngine_idle hs] at h; cases h
      | finalized => rw [updateEngine_finalized hs] at h; cases h
      | tail => rw [updateEngine_tail hs] at h; cases h
      | active =>
        cases hv : variantOf e.ctx.alg e.ctx.dlen with
        | none =>
          rw [updateEngine, hs] at h
          dsimp only at h
          rw [updateActive, hv] at h
          cases h
        | some p =>
          rw [updateEngine_active hs hv] at h
          split at h
          · cases h
          · next ht =>
            split at h
            · next hw =>
              refine ⟨b, pl, p, rfl, rfl, rfl, ?_, hw⟩
              rw [not_and_or, not_not] at ht
              exact ht.imp_right fun h => by simpa using h
            · cases h
  | final =>
    rw [engineExec, finalEngine] at h
    split at h
    · cases h
    · cases h
    all_goals
      unfold finalLive at h
      split at h <;> cases h
  | init alg dlen => cases h
  | drop => cases h
  | qdlen alg dlen => cases h
  | qblk alg dlen => cases h

/-- A command that is refused is an ill-formed UPDATE, or meets a live context without a variant (logs 9, 11). -/
theorem engineExec_refused {cfg : Config} {i : Instr} {e : Engine} {r : Refusal}
    (h : engineExec cfg i e = .refused r) :
    i.wf = false ∨
      ((e.ctx.state = .active ∨ e.ctx.state = .tail) ∧ variantOf e.ctx.alg e.ctx.dlen = none) := by
  cases i with
  | update b pl =>
    rw [engineExec] at h
    split at h
    · next hl => exact .inl (beq_eq_false_iff_ne.2 hl)
    · cases hs : e.ctx.state with
      | idle => rw [updateEngine_idle hs] at h; cases h
      | finalized => rw [updateEngine_finalized hs] at h; cases h
      | tail => rw [updateEngine_tail hs] at h; cases h
      | active =>
        cases hv : variantOf e.ctx.alg e.ctx.dlen with
        | none => exact .inr ⟨.inl rfl, rfl⟩
        | some p =>
          rw [updateEngine_active hs hv] at h
          split at h
          · cases h
          · split at h <;> cases h
  | final =>
    rw [engineExec, finalEngine] at h
    split at h
    · cases h
    · cases h
    · next hs =>
      unfold finalLive at h
      split at h
      · next hv => exact .inr ⟨.inl hs, hv⟩
      · cases h
    · next hs =>
      unfold finalLive at h
      split at h
      · next hv => exact .inr ⟨.inr hs, hv⟩
      · cases h
  | init alg dlen => cases h
  | drop => cases h
  | qdlen alg dlen => cases h
  | qblk alg dlen => cases h

/-! ## The context after an accepted UPDATE -/

/-- The absorption part of an UPDATE. -/
theorem updateCtx_aligned {b : BitVec 64} (h : tailBits b = 0) (p : Params) (pl : Bytes) (c : Ctx) :
    updateCtx p b pl c =
      { absorb p c (pl.take (wholeBytes b)) with msgBits := c.msgBits + b.setWidth 256 } := by
  rw [updateCtx]; exact if_pos h

theorem updateCtx_partial {b : BitVec 64} (h : tailBits b ≠ 0) (p : Params) (pl : Bytes) (c : Ctx) :
    updateCtx p b pl c =
      { absorb p c (pl.take (wholeBytes b)) with
        msgBits := c.msgBits + b.setWidth 256
        buf := (absorb p c (pl.take (wholeBytes b))).buf.setIfInBounds
          (absorb p c (pl.take (wholeBytes b))).bufLen.toNat (partialByte b pl)
        partialBits := BitVec.ofNat 3 (tailBits b)
        state := .tail } := by
  rw [updateCtx]; exact if_neg h

/-- The fields of a context after an accepted UPDATE that absorbing decides (R87). -/
theorem updateCtx_absorbed (p : Params) (b : BitVec 64) (pl : Bytes) (c : Ctx) :
    (updateCtx p b pl c).chain = (absorb p c (pl.take (wholeBytes b))).chain ∧
    (updateCtx p b pl c).blockCount = (absorb p c (pl.take (wholeBytes b))).blockCount ∧
    (updateCtx p b pl c).bufLen = (absorb p c (pl.take (wholeBytes b))).bufLen ∧
    (updateCtx p b pl c).alg = c.alg ∧ (updateCtx p b pl c).dlen = c.dlen ∧ (updateCtx p b pl c).nullt = c.nullt ∧
    (updateCtx p b pl c).msgBits = c.msgBits + b.setWidth 256 := by
  obtain ⟨_, h2, h3, _, _, h6⟩ := absorb_frame p c (pl.take (wholeBytes b))
  by_cases h : tailBits b = 0
  · rw [updateCtx_aligned h]; exact ⟨rfl, rfl, rfl, h2, h3, h6, rfl⟩
  · rw [updateCtx_partial h]; exact ⟨rfl, rfl, rfl, h2, h3, h6, rfl⟩

/-- The bytes below the buffered length are those absorbing left, with or without a partial byte after them. -/
theorem updateCtx_buffered (p : Params) (b : BitVec 64) (pl : Bytes) (c : Ctx) :
    buffered (updateCtx p b pl c) = buffered (absorb p c (pl.take (wholeBytes b))) := by
  by_cases h : tailBits b = 0
  · rw [updateCtx_aligned h]; rfl
  · rw [updateCtx_partial h, buffered, buffered]
    dsimp only
    rw [Vector.toList_setIfInBounds, List.take_set_of_le (Nat.le_refl _)]

theorem tailBits_lt (b : BitVec 64) : tailBits b < 8 := Nat.mod_lt _ (by decide)

theorem updateCtx_partialBits {p : Params} {b : BitVec 64} {pl : Bytes} {c : Ctx} (h : c.partialBits = 0) :
    (updateCtx p b pl c).partialBits.toNat = tailBits b := by
  obtain ⟨_, _, _, _, h5, _⟩ := absorb_frame p c (pl.take (wholeBytes b))
  by_cases ht : tailBits b = 0
  · rw [updateCtx_aligned ht, ht]
    exact congrArg BitVec.toNat (h5.trans h)
  · rw [updateCtx_partial ht]
    exact (BitVec.toNat_ofNat _ _).trans (Nat.mod_eq_of_lt (tailBits_lt b))

theorem updateCtx_state {p : Params} {b : BitVec 64} {pl : Bytes} {c : Ctx} (h : c.state = .active) :
    (updateCtx p b pl c).state = if tailBits b = 0 then .active else .tail := by
  by_cases ht : tailBits b = 0
  · rw [updateCtx_aligned ht, if_pos ht]
    exact (absorb_frame p c _).1.trans h
  · rw [updateCtx_partial ht, if_neg ht]

/-- An UPDATE of a message cut in two is the UPDATE of its second part after its first is absorbed (R110). -/
theorem updateCtx_chunk (p : Params) (c : Ctx) (M : Bytes) (b total : BitVec 64) (pl : Bytes)
    (ht : total.toNat = 8 * M.length + b.toNat) :
    updateCtx p total (M ++ pl) c =
      updateCtx p b pl { absorb p c M with msgBits := c.msgBits + BitVec.ofNat 256 (8 * M.length) } := by
  have hw : wholeBytes total = M.length + wholeBytes b := by rw [wholeBytes, wholeBytes, ht]; omega
  have htl : tailBits total = tailBits b := by rw [tailBits, tailBits, ht]; omega
  have htake : (M ++ pl).take (wholeBytes total) = M ++ pl.take (wholeBytes b) := by
    rw [hw, List.take_length_add_append]
  have hn : c.msgBits + total.setWidth 256 = c.msgBits + BitVec.ofNat 256 (8 * M.length) + b.setWidth 256 := by
    rw [BitVec.add_assoc]
    congr 1
    apply BitVec.eq_of_toNat_eq
    rw [BitVec.toNat_setWidth, BitVec.toNat_add, BitVec.toNat_setWidth, BitVec.toNat_ofNat, ht]
    omega
  have hpb : tailBits b ≠ 0 → partialByte total (M ++ pl) = partialByte b pl := by
    intro h0
    rw [partialByte, partialByte, htl, payloadByte, payloadByte, hw]
    congr 1
    rw [List.getD_append_right _ _ _ _ (Nat.le_add_right _ _), Nat.add_sub_cancel_left]
  by_cases h0 : tailBits b = 0
  · rw [updateCtx_aligned h0, updateCtx_aligned (htl.trans h0), htake, hn, absorb_append, absorb_msgBits p
      (absorb p c M) _ (c.msgBits + BitVec.ofNat 256 (8 * M.length))]
  · rw [updateCtx_partial h0, updateCtx_partial (by rw [htl]; exact h0), htake, hn, absorb_append,
      absorb_msgBits p (absorb p c M) _ (c.msgBits + BitVec.ofNat 256 (8 * M.length)), hpb h0, htl]

/-! ## The invariants (R36) -/

theorem ctxInv_reset (cfg : Config) {st : CtxState} (h : st = .idle ∨ st = .finalized) :
    CtxInv cfg { Ctx.reset with state := st } := by
  refine ⟨fun _ => rfl, ?_, ?_, rfl⟩
  · rcases h with rfl | rfl <;> rintro (h | h) <;> cases h
  · rcases h with rfl | rfl <;> decide

/-- The limit, and the room the counters have under it. -/
theorem LiveCtx.room {cfg : Config} {c : Ctx} {p : Params} (h : LiveCtx cfg c p) {N : Nat}
    (hw : withinLimit p N = true) {k : Nat} (hk : p.blockBytes * k ≤ N) : k < 2 ^ 256 := by
  have h1 := (blockBytes_bounds h.variant).1
  have h2 := lt_of_withinLimit h.variant hw
  have h3 : k ≤ p.blockBytes * k := Nat.le_mul_of_pos_left k h1
  omega

/-- The counters of a live context after an accepted UPDATE (R87, R102). -/
theorem LiveCtx.update_counters {cfg : Config} {c : Ctx} {p : Params} (h : LiveCtx cfg c p) {b : BitVec 64}
    {pl : Bytes} (hl : pl.length = payloadBytes b)
    (hw : withinLimit p (c.msgBits.toNat + b.toNat) = true) :
    c.blockCount.toNat + (c.bufLen.toNat + wholeBytes b) / p.blockBytes < 2 ^ 256 ∧
    (pl.take (wholeBytes b)).length = wholeBytes b ∧
    (updateCtx p b pl c).blockCount.toNat =
      c.blockCount.toNat + (c.bufLen.toNat + wholeBytes b) / p.blockBytes ∧
    (updateCtx p b pl c).bufLen.toNat = (c.bufLen.toNat + wholeBytes b) % p.blockBytes ∧
    (updateCtx p b pl c).msgBits.toNat = c.msgBits.toNat + b.toNat := by
  obtain ⟨h1, h2⟩ := blockBytes_bounds h.variant
  have hlen : (pl.take (wholeBytes b)).length = wholeBytes b := by
    rw [List.length_take, hl, payloadBytes, wholeBytes]
    omega
  have hm := h.msgBits_eq
  have hdiv := Nat.div_add_mod (c.bufLen.toNat + wholeBytes b) p.blockBytes
  have hroom : c.blockCount.toNat + (c.bufLen.toNat + wholeBytes b) / p.blockBytes < 2 ^ 256 := by
    refine h.room hw ?_
    have h8 : 8 * p.blockBytes * c.blockCount.toNat = 8 * (p.blockBytes * c.blockCount.toNat) := Nat.mul_assoc _ _ _
    rw [Nat.mul_add]
    rw [wholeBytes] at hdiv ⊢
    omega
  obtain ⟨u1, u2, u3, _, _, _, u7⟩ := updateCtx_absorbed p b pl c
  obtain ⟨a1, a2⟩ := absorb_counters h1 h2 (pl.take (wholeBytes b)) c h.bufLen_lt (by rw [hlen]; exact hroom)
  rw [hlen] at a1 a2
  refine ⟨hroom, hlen, ?_, ?_, ?_⟩
  · rw [u2, a1]
  · rw [u3, a2]
  · have := lt_of_withinLimit h.variant hw
    rw [u7, BitVec.toNat_add, BitVec.toNat_setWidth]
    have hb := b.isLt
    omega

/-- An accepted UPDATE keeps a context live. -/
theorem LiveCtx.update {cfg : Config} {c : Ctx} {p : Params} (h : LiveCtx cfg c p) {b : BitVec 64} {pl : Bytes}
    (h0 : c.partialBits = 0) (hl : pl.length = payloadBytes b)
    (ht : tailBits b = 0 ∨ acceptsPartial cfg p.family = true)
    (hw : withinLimit p (c.msgBits.toNat + b.toNat) = true) : LiveCtx cfg (updateCtx p b pl c) p := by
  obtain ⟨h1, h2⟩ := blockBytes_bounds h.variant
  obtain ⟨_, _, k1, k2, k3⟩ := h.update_counters hl hw
  obtain ⟨_, _, _, u4, u5, _, _⟩ := updateCtx_absorbed p b pl c
  have kp := updateCtx_partialBits (p := p) (b := b) (pl := pl) h0
  have hm := h.msgBits_eq
  rw [h0] at hm
  have h00 : (0 : BitVec 3).toNat = 0 := rfl
  have hdiv := Nat.div_add_mod (c.bufLen.toNat + wholeBytes b) p.blockBytes
  refine ⟨by rw [u4, u5]; exact h.variant, h.supported, ?_, ?_, ?_, ?_⟩
  · rw [k2]; exact Nat.mod_lt _ h1
  · rw [k1, k2, k3, kp, hm, h00, Nat.mul_add, Nat.mul_assoc 8 p.blockBytes (_ / _)]
    rw [tailBits]
    rw [wholeBytes] at hdiv ⊢
    omega
  · rw [k3]; exact hw
  · intro hp
    rcases ht with ht | ht
    · rw [ht] at kp
      exact absurd (BitVec.eq_of_toNat_eq (y := 0) kp) hp
    · exact ht

/-- A fresh context is live (R36, R86). -/
theorem liveCtx_fresh {cfg : Config} {alg : BitVec 8} {dlen : BitVec 16} {p : Params}
    (h : registryLookup cfg alg dlen = .ok p) (h0 : dlen ≠ 0) (c : Ctx) :
    LiveCtx cfg (freshCtx p alg dlen c) p := by
  obtain ⟨f, hf, rfl, hl, rfl⟩ := registryLookup_ok h h0
  have hv : variantOf (familyCode f) dlen = some (paramsOf f dlen.toNat) := by rw [variantOf_code, if_pos hl]
  refine ⟨hv, by rw [paramsOf_family]; exact hf, (blockBytes_bounds hv).1, ?_, ?_, fun h => absurd rfl h⟩
  · rw [freshCtx_msgBits, freshCtx_blockCount, freshCtx_bufLen, freshCtx_partialBits]
    exact (Nat.mul_zero (8 * (paramsOf f dlen.toNat).blockBytes)).symm
  · exact withinLimit_of_lt hv (by decide : (0 : Nat) < 2 ^ 64)

/-- Every command that completes keeps the invariants of R36. -/
theorem engineExec_inv {cfg : Config} {i : Instr} {e e' : Engine} (hi : CtxInv cfg e.ctx)
    (h : engineExec cfg i e = .next e') : CtxInv cfg e'.ctx := by
  rcases engineExec_next_cases h with ⟨st, _, rfl⟩ | ⟨alg, dlen, p, _, hp, h0, rfl⟩ |
    ⟨b, pl, p, _, hl, hs, hv, ht, hw, rfl⟩ | ⟨p, _, _, _, rfl⟩ | ⟨_, rfl⟩ | ⟨alg, dlen, v, _, rfl⟩
  · exact hi
  · refine ⟨?_, fun _ => ⟨p, liveCtx_fresh hp h0 e.ctx⟩, ?_, rfl⟩
    · rintro (h | h) <;> cases h
    · exact ⟨fun h => absurd rfl h, fun h => by cases h⟩
  · have hp0 : e.ctx.partialBits = 0 := by
      by_contra hne
      have := hi.partialBits_iff.1 hne
      rw [hs] at this
      cases this
    obtain ⟨q, hq⟩ := hi.live (.inl hs)
    obtain rfl : q = p := Option.some.inj (hq.variant.symm.trans hv)
    have hst := updateCtx_state (p := q) (b := b) (pl := pl) hs
    have kp := updateCtx_partialBits (p := q) (b := b) (pl := pl) hp0
    rw [Engine.respond_ctx]
    dsimp only
    refine ⟨?_, fun _ => ⟨q, hq.update hp0 hl ht hw⟩, ?_, ?_⟩
    · rw [hst]
      split <;> rintro (h | h) <;> cases h
    · rw [hst]
      by_cases ht0 : tailBits b = 0
      · rw [if_pos ht0]
        rw [ht0] at kp
        exact ⟨fun h => absurd (BitVec.eq_of_toNat_eq (y := 0) kp) h, fun h => by cases h⟩
      · rw [if_neg ht0]
        refine ⟨fun _ => rfl, fun _ h => ht0 ?_⟩
        rw [← kp, h]
        rfl
    · rw [(updateCtx_absorbed q b pl e.ctx).2.2.2.2.2.1]
      exact hi.nullt_eq
  · exact ctxInv_reset cfg (.inr rfl)
  · exact ctxInv_reset cfg (.inl rfl)
  · exact hi

end Sys2Proof.Machine
end

