-- ==== Sys2Proof/Laws/Final.lean ====
section
/-! SUPPORT. The final blocks of each family: their number, their lengths, and what they hold (41_registry.md R99,
42_pipeline.md R107, 43_blake.md R122, 44_groestl.md R133). -/

namespace Sys2Proof.Machine

/-! ## Merkle-Damgård padding (R107) -/

theorem mdPad_one {B L : Nat} {m : Bytes} (h : m.length + 1 + L ≤ B) (N : Nat) (enc : Nat → Nat → Bytes) :
    mdPad B L N enc m = [m ++ [0x80] ++ zeros (B - L - m.length - 1) ++ enc (N % 2 ^ (8 * L)) L] := by
  rw [mdPad]; exact if_pos h

theorem mdPad_two {B L : Nat} {m : Bytes} (h : B < m.length + 1 + L) (N : Nat) (enc : Nat → Nat → Bytes) :
    mdPad B L N enc m =
      [m ++ [0x80] ++ zeros (B - m.length - 1), zeros (B - L) ++ enc (N % 2 ^ (8 * L)) L] := by
  rw [mdPad]; exact if_neg (by omega)

theorem mdPad_count (B L N : Nat) (enc : Nat → Nat → Bytes) (m : Bytes) :
    (mdPad B L N enc m).length = if m.length + 1 + L ≤ B then 1 else 2 := by
  by_cases h : m.length + 1 + L ≤ B
  · rw [mdPad_one h, if_pos h]; rfl
  · rw [mdPad_two (Nat.not_le.1 h), if_neg h]; rfl

theorem mdPad_block_length {B L N : Nat} {enc : Nat → Nat → Bytes} {m : Bytes} (hm : m.length < B) (hL : L ≤ B)
    (he : ∀ v, (enc v L).length = L) : ∀ b ∈ mdPad B L N enc m, b.length = B := by
  intro b hb
  by_cases h : m.length + 1 + L ≤ B
  · rw [mdPad_one h, List.mem_singleton] at hb
    subst hb
    simp only [List.length_append, List.length_singleton, length_zeros, he]
    omega
  · rw [mdPad_two (Nat.not_le.1 h), List.mem_cons, List.mem_singleton] at hb
    rcases hb with rfl | rfl
    · simp only [List.length_append, List.length_singleton, length_zeros]
      omega
    · simp only [List.length_append, length_zeros, he]
      omega

theorem zeros_append (a b : Nat) : zeros a ++ zeros b = zeros (a + b) := List.replicate_append_replicate

/-- The padded message: the bytes, the terminator, the fewest zeros, the length (R107). -/
theorem mdPad_flatten {B L N : Nat} {enc : Nat → Nat → Bytes} {m : Bytes} (hm : m.length < B) (hL : L < B)
    (hN : N < 2 ^ (8 * L)) :
    ∃ z, z < B ∧ (m.length + 1 + z + L) % B = 0 ∧
      (mdPad B L N enc m).flatten = m ++ [0x80] ++ zeros z ++ enc N L := by
  by_cases h : m.length + 1 + L ≤ B
  · refine ⟨B - L - m.length - 1, by omega, ?_, ?_⟩
    · rw [show m.length + 1 + (B - L - m.length - 1) + L = B by omega, Nat.mod_self]
    · rw [mdPad_one h, Nat.mod_eq_of_lt hN, List.flatten_cons, List.flatten_nil, List.append_nil]
  · refine ⟨(B - m.length - 1) + (B - L), by omega, ?_, ?_⟩
    · rw [show m.length + 1 + ((B - m.length - 1) + (B - L)) + L = B + B by omega, Nat.add_mod_left, Nat.mod_self]
    · rw [mdPad_two (Nat.not_le.1 h), Nat.mod_eq_of_lt hN, List.flatten_cons, List.flatten_cons, List.flatten_nil,
        List.append_nil, ← zeros_append]
      simp only [List.append_assoc]

/-! ## Groestl (R133) -/

theorem length_groestlTerminated (m : Bytes) (t : Nat) (x : Byte) :
    (groestlTerminated m t x).length = m.length + 1 := by
  unfold groestlTerminated
  split <;> rw [List.length_append, List.length_singleton]

/-- The terminated byte: t bits of the partial byte, the terminator bit, zeros. -/
def groestlLastByte (t : Nat) (b : Byte) : Byte :=
  if t = 0 then 0x80 else (b &&& ((0xFF : Byte) <<< (8 - t))) ||| ((0x80 : Byte) >>> t)

theorem groestlTerminated_eq (m : Bytes) (t : Nat) (b : Byte) :
    groestlTerminated m t b = m ++ [groestlLastByte t b] := by
  unfold groestlTerminated groestlLastByte
  split <;> rfl

/-- Its bits, from the most significant. -/
theorem groestlLastByte_bits {t : Nat} (ht : t < 8) (b : Byte) {j : Nat} (hj : j < 8) :
    (groestlLastByte t b).getLsbD j = if 7 - j < t then b.getLsbD j else decide (7 - j = t) := by
  have hmask : ∀ t < 8, ∀ j < 8, t ≠ 0 →
      ((0xFF : Byte) <<< (8 - t)).getLsbD j = decide (7 - j < t) ∧
        ((0x80 : Byte) >>> t).getLsbD j = decide (7 - j = t) := by decide
  have hone : ∀ j < 8, (0x80 : Byte).getLsbD j = decide (7 - j = 0) := by decide
  rw [groestlLastByte]
  by_cases h0 : t = 0
  · rw [if_pos h0, h0, if_neg (Nat.not_lt_zero _), hone j hj]
  · obtain ⟨h1, h2⟩ := hmask t ht j hj h0
    rw [if_neg h0, BitVec.getLsbD_or, BitVec.getLsbD_and, h1, h2]
    by_cases h3 : 7 - j < t
    · rw [if_pos h3, decide_eq_true h3, Bool.and_true, decide_eq_false (by omega), Bool.or_false]
    · rw [if_neg h3, decide_eq_false h3, Bool.and_false, Bool.false_or]

theorem groestlFinalBlocks_one {B count : Nat} {x : Bytes} (h : x.length ≤ B - 8) :
    groestlFinalBlocks B count x = [x ++ zeros (B - 8 - x.length) ++ encBE (count + 1) 8] := by
  rw [groestlFinalBlocks]; exact if_neg (by omega)

theorem groestlFinalBlocks_two {B count : Nat} {x : Bytes} (h : B - 8 < x.length) :
    groestlFinalBlocks B count x = [x ++ zeros (B - x.length), zeros (B - 8) ++ encBE (count + 2) 8] := by
  rw [groestlFinalBlocks]; exact if_pos h

/-! ## BLAKE (R122) -/

/-- A bit pattern ORed into the last byte of a byte string. -/
theorem or_last {n : Nat} {x : Bytes} (h : x.length = n) (a b : Byte) :
    (x ++ [a]).set n ((x ++ [a]).getD n 0 ||| b) = x ++ [a ||| b] := by
  subst h
  rw [List.getD_append_right _ _ _ _ (Nat.le_refl _), Nat.sub_self, List.set_append_right _ _ (Nat.le_refl _),
    Nat.sub_self]
  rfl

/-- n + 1 zeros are n zeros and a zero. -/
theorem zeros_succ (n : Nat) : zeros (n + 1) = zeros n ++ [0x00] := List.replicate_succ'

/-- Room for the terminator and more: pb is a byte of its own. -/
theorem blakeFinalBlocks_room {B L n N : Nat} {m : Bytes} (h : m.length < B - L - 1) :
    blakeFinalBlocks B L n N m =
      [(m ++ [0x80] ++ zeros (B - L - m.length - 2) ++ [blakePb n] ++ encBE N L,
        if m.length = 0 then (0, true) else (N, false))] := by
  have hx : m ++ [0x80] ++ zeros (B - L - m.length - 1) =
      m ++ [0x80] ++ zeros (B - L - m.length - 2) ++ [0x00] := by
    rw [show B - L - m.length - 1 = B - L - m.length - 2 + 1 by omega, zeros_succ, List.append_assoc _ (zeros _)]
  rw [blakeFinalBlocks]
  dsimp only
  rw [if_pos (by omega), hx, or_last (by
    rw [List.length_append, List.length_append, List.length_singleton, length_zeros]; omega), show (0x00 : Byte) ||| blakePb n = blakePb n from BitVec.zero_or]
  split <;> rfl

/-- Room for the terminator alone: it shares its byte with pb. -/
theorem blakeFinalBlocks_tight {B L n N : Nat} {m : Bytes} (h : m.length = B - L - 1) :
    blakeFinalBlocks B L n N m =
      [(m ++ [0x80 ||| blakePb n] ++ encBE N L, if m.length = 0 then (0, true) else (N, false))] := by
  rw [blakeFinalBlocks]
  dsimp only
  rw [if_pos (by omega), show B - L - m.length - 1 = 0 by omega, zeros, List.replicate_zero, List.append_nil,
    or_last h]
  split <;> rfl

/-- One block in either case: B - L bytes and the length field. -/
theorem blakeFinalBlocks_one {B L n N : Nat} {m : Bytes} (hL : L < B) (h : m.length ≤ B - L - 1) :
    ∃ x : Bytes, x.length = B - L ∧
      blakeFinalBlocks B L n N m = [(x ++ encBE N L, if m.length = 0 then (0, true) else (N, false))] := by
  rcases Nat.lt_or_eq_of_le h with h | h
  · exact ⟨_, by simp only [List.length_append, List.length_singleton, length_zeros]; omega, blakeFinalBlocks_room h⟩
  · exact ⟨_, by rw [List.length_append, List.length_singleton]; omega, blakeFinalBlocks_tight h⟩

theorem blakeFinalBlocks_two {B L n N : Nat} {m : Bytes} (hL : L < B) (h : B - L - 1 < m.length) :
    blakeFinalBlocks B L n N m =
      [(m ++ [0x80] ++ zeros (B - m.length - 1), N, false),
        (zeros (B - L - 1) ++ [blakePb n] ++ encBE N L, 0, true)] := by
  have hz : zeros (B - L) = zeros (B - L - 1) ++ [0x00] := by rw [← zeros_succ]; congr 1; omega
  rw [blakeFinalBlocks]
  dsimp only
  rw [if_neg (by omega), hz, or_last (length_zeros _), show (0x00 : Byte) ||| blakePb n = blakePb n from BitVec.zero_or]

theorem map_plain_block (bs : List Bytes) : (bs.map plainBlock).map FinalBlock.block = bs := by
  rw [List.map_map]; exact List.map_id _

/-! ## By family -/

theorem finalBlocks_blake {p : Params} (h : p.family = .blake) (c : Ctx) :
    finalBlocks p c =
      (blakeFinalBlocks p.blockBytes p.lengthBytes p.dlen c.msgBits.toNat (buffered c)).map
        fun b => ⟨b.1, b.2.1, b.2.2⟩ := by rw [finalBlocks, h]

theorem finalBlocks_groestl {p : Params} (h : p.family = .groestl) (c : Ctx) :
    finalBlocks p c =
      (groestlFinalBlocks p.blockBytes c.blockCount.toNat
        (groestlTerminated (buffered c) c.partialBits.toNat
            (c.buf.toList.getD c.bufLen.toNat 0))).map plainBlock := by
  rw [finalBlocks, h]

theorem finalBlocks_rmd320 {p : Params} (h : p.family = .rmd320) (c : Ctx) :
    finalBlocks p c =
      (mdPad p.blockBytes p.lengthBytes c.msgBits.toNat encLE (buffered c)).map plainBlock := by rw [finalBlocks, h]

theorem finalBlocks_whirlpool {p : Params} (h : p.family = .whirlpool) (c : Ctx) :
    finalBlocks p c =
      (mdPad p.blockBytes p.lengthBytes c.msgBits.toNat encBE (buffered c)).map plainBlock := by rw [finalBlocks, h]

theorem finalBlocks_jh {p : Params} (h : p.family = .jh) (c : Ctx) :
    finalBlocks p c = (jhFinalBlocks c.msgBits.toNat (buffered c)).map plainBlock := by rw [finalBlocks, h]

theorem finalBlocks_lsh {p : Params} (h : p.family = .lsh256 ∨ p.family = .lsh512) (c : Ctx) :
    finalBlocks p c = [plainBlock (lshFinalBlock p.blockBytes (buffered c))] := by
  rcases h with h | h <;> rw [finalBlocks, h]

theorem finalBlocks_crc {p : Params} (h : p.family = .crc32 ∨ p.family = .cksum) (c : Ctx) : finalBlocks p c =
    [] := by
  rcases h with h | h <;> rw [finalBlocks, h]

/-- The parameters of a live context's variant are the registry's for its family and digest length. -/
theorem LiveCtx.params {cfg : Config} {c : Ctx} {p : Params} (h : LiveCtx cfg c p) :
    legalDlen p.family p.dlen = true ∧ p = paramsOf p.family p.dlen := by
  obtain ⟨f, _, hl, rfl⟩ := variantOf_eq_some h.variant
  rw [paramsOf_family, paramsOf_dlen]
  exact ⟨hl, rfl⟩

theorem LiveCtx.length_buffered {cfg : Config} {c : Ctx} {p : Params} (h : LiveCtx cfg c p) :
    (buffered c).length = c.bufLen.toNat :=
  Machine.length_buffered (by have := (blockBytes_bounds h.variant).2; have := h.bufLen_lt; omega)

end Sys2Proof.Machine
end

