-- ==== Sys2Proof/Laws/PerInstr.lean ====
section
/-! SUPPORT. The statements made per instruction: one family, `WireLength`. -/

namespace Sys2Proof.Laws.WireLength

/-- How many words a well-formed command is on the wire: three and its payload words for UPDATE, one for every other
command (30_encoding.md R66, R68, R74). -/
def Statement (i : Instr) : Prop :=
  i.wf = true → (encode i).length =
    match i with
    | .init _ _ => 1
    | .update bitlen _ => 3 + ((bitlen.toNat + 7) / 8 + 3) / 4
    | .final => 1
    | .drop => 1
    | .qdlen _ _ => 1
    | .qblk _ _ => 1

/-- A record whose OPC is not UPDATE's is one word. -/
theorem length_single {i : Instr} {o a : BitVec 8} {d : BitVec 16} (h : i.toCommand = ⟨commandWord o a d, 0, []⟩)
    (ho : o ≠ 2) : (encode i).length = 1 := by
  rw [encode, h, Command.words_single (by simpa using ho)]
  rfl

theorem init (alg : BitVec 8) (dlen : BitVec 16) : Statement (.init alg dlen) :=
  fun _ => length_single (o := 0x01) rfl (by decide)

theorem update (bitlen : BitVec 64) (payload : Bytes) : Statement (.update bitlen payload) := by
  intro h
  have hp : payload.length = (bitlen.toNat + 7) / 8 := by simpa [Instr.wf, payloadBytes] using h
  rw [encode, Command.words_update (by simp [Instr.toCommand])]
  simp only [Instr.toCommand, List.length_cons, length_packWords, hp]
  omega

theorem final : Statement .final := fun _ => length_single (o := 0x03) rfl (by decide)

theorem drop : Statement .drop := fun _ => length_single (o := 0x04) rfl (by decide)

theorem qdlen (alg : BitVec 8) (dlen : BitVec 16) : Statement (.qdlen alg dlen) :=
  fun _ => length_single (o := 0x05) rfl (by decide)

theorem qblk (alg : BitVec 8) (dlen : BitVec 16) : Statement (.qblk alg dlen) :=
  fun _ => length_single (o := 0x06) rfl (by decide)

end Sys2Proof.Laws.WireLength
end

