-- ==== Sys2Proof/Laws/Wire.lean ====
section
/-! SUPPORT. The wire decoder: one word, many words, and the steps that take them (30_encoding.md R69). -/

namespace Sys2Proof.Machine

/-! ## One word -/

theorem rxStep_hdr_update {r : Rx} (h : r.phase = .hdr) {x : Word} (hx : opcField x = 2) :
    rxStep r x = ({ r with hdr := x, phase := .lenLo }, none) := by
  rw [rxStep, h]; exact if_pos hx

theorem rxStep_hdr_single {r : Rx} (h : r.phase = .hdr) {x : Word} (hx : opcField x ≠ 2) :
    rxStep r x = (r, some ⟨x, 0, []⟩) := by
  rw [rxStep, h]; exact if_neg hx

theorem rxStep_lenLo {r : Rx} (h : r.phase = .lenLo) (x : Word) :
    rxStep r x = ({ r with lo := x, phase := .lenHi }, none) := by rw [rxStep, h]

theorem rxStep_lenHi_zero {r : Rx} (h : r.phase = .lenHi) {x : Word} (hx : bitlenOf r.lo x = 0) :
    rxStep r x = ({ r with bitlen := bitlenOf r.lo x, data := [], phase := .hdr }, some ⟨r.hdr, 0, []⟩) := by
  rw [rxStep, h]; exact if_pos hx

theorem rxStep_lenHi {r : Rx} (h : r.phase = .lenHi) {x : Word} (hx : bitlenOf r.lo x ≠ 0) :
    rxStep r x = ({ r with bitlen := bitlenOf r.lo x, data := [], phase := .payload }, none) := by
  rw [rxStep, h]; exact if_neg hx

theorem length_data_step (d : Bytes) (x : Word) : (d ++ unpackWord x).length = d.length + 4 := by
  rw [List.length_append, length_unpackWord]

theorem rxStep_payload_done {r : Rx} (h : r.phase = .payload) {x : Word}
    (hx : payloadBytes r.bitlen ≤ r.data.length + 4) :
    rxStep r x = ({ r with data := r.data ++ unpackWord x, phase := .hdr },
      some ⟨r.hdr, r.bitlen, (r.data ++ unpackWord x).take (payloadBytes r.bitlen)⟩) := by
  rw [rxStep, h]; exact if_pos (by rw [length_data_step]; exact hx)

theorem rxStep_payload_more {r : Rx} (h : r.phase = .payload) {x : Word}
    (hx : r.data.length + 4 < payloadBytes r.bitlen) :
    rxStep r x = ({ r with data := r.data ++ unpackWord x }, none) := by
  rw [rxStep, h]; exact if_neg (by rw [length_data_step]; exact Nat.not_le.2 hx)

theorem payloadBytes_zero : payloadBytes 0 = 0 := rfl

theorem payloadBytes_pos {b : BitVec 64} (h : b ≠ 0) : 1 ≤ payloadBytes b := by
  have : b.toNat ≠ 0 := fun h0 => h (BitVec.eq_of_toNat_eq (y := 0) h0)
  rw [payloadBytes]
  omega

/-- All that one word can do. A record it completes is well formed and leaves the decoder at a command boundary. -/
theorem rxStep_some {r r' : Rx} {x : Word} {c : Command} (hr : r.phase ≠ .hdr → opcField r.hdr = 2)
    (h : rxStep r x = (r', some c)) : c.wf = true ∧ r'.phase = .hdr := by
  cases hp : r.phase with
  | hdr =>
    by_cases hx : opcField x = 2
    · rw [rxStep_hdr_update hp hx] at h; cases h
    · rw [rxStep_hdr_single hp hx] at h
      cases h
      exact ⟨(Command.wf_single (c := ⟨x, 0, []⟩) hx).2 ⟨rfl, rfl⟩, hp⟩
  | lenLo => rw [rxStep_lenLo hp] at h; cases h
  | lenHi =>
    by_cases hx : bitlenOf r.lo x = 0
    · rw [rxStep_lenHi_zero hp hx] at h
      cases h
      exact ⟨(Command.wf_update (c := ⟨r.hdr, 0, []⟩) (hr (by rw [hp]; decide))).2 payloadBytes_zero.symm, rfl⟩
    · rw [rxStep_lenHi hp hx] at h; cases h
  | payload =>
    by_cases hx : payloadBytes r.bitlen ≤ r.data.length + 4
    · rw [rxStep_payload_done hp hx] at h
      cases h
      refine ⟨(Command.wf_update (c := ⟨r.hdr, r.bitlen, _⟩) (hr (by rw [hp]; decide))).2 ?_, rfl⟩
      dsimp only
      rw [List.length_take, length_data_step]
      omega
    · rw [rxStep_payload_more hp (Nat.not_le.1 hx)] at h; cases h

/-- One word keeps the invariant of R37. -/
theorem rxStep_inv {r : Rx} (hr : RxInv r) (x : Word) : RxInv (rxStep r x).1 := by
  obtain ⟨h1, h2, h3, h4⟩ := hr
  cases hp : r.phase with
  | hdr =>
    by_cases hx : opcField x = 2
    · rw [rxStep_hdr_update hp hx]
      exact ⟨fun _ => hx, fun h => (by cases h), h3, h4⟩
    · rw [rxStep_hdr_single hp hx]
      exact ⟨h1, h2, h3, h4⟩
  | lenLo =>
    rw [rxStep_lenLo hp]
    exact ⟨fun _ => h1 (by rw [hp]; decide), fun h => (by cases h), h3, h4⟩
  | lenHi =>
    by_cases hx : bitlenOf r.lo x = 0
    · rw [rxStep_lenHi_zero hp hx]
      exact ⟨fun h => absurd rfl h, fun h => (by cases h), rfl, Nat.zero_le _⟩
    · rw [rxStep_lenHi hp hx]
      exact ⟨fun _ => h1 (by rw [hp]; decide), fun _ => payloadBytes_pos hx, rfl, Nat.zero_le _⟩
  | payload =>
    have h2' := h2 hp
    by_cases hx : payloadBytes r.bitlen ≤ r.data.length + 4
    · rw [rxStep_payload_done hp hx]
      refine ⟨fun h => absurd rfl h, fun h => (by cases h), ?_, ?_⟩
      · dsimp only; rw [length_data_step]; omega
      · dsimp only; rw [length_data_step, payloadWords]; omega
    · rw [rxStep_payload_more hp (Nat.not_le.1 hx)]
      refine ⟨fun _ => h1 (by rw [hp]; decide), fun _ => ?_, ?_, ?_⟩
      · dsimp only; rw [length_data_step]; omega
      · dsimp only; rw [length_data_step]; omega
      · dsimp only; rw [length_data_step, payloadWords]; omega

/-! ## Many words -/

theorem rxRun_nil (r : Rx) : rxRun r [] = (r, []) := rfl

theorem rxRun_cons (r : Rx) (x : Word) (xs : List Word) :
    rxRun r (x :: xs) =
      ((rxRun (rxStep r x).1 xs).1, (rxStep r x).2.toList ++ (rxRun (rxStep r x).1 xs).2) := rfl

theorem rxRun_append (r : Rx) (xs ys : List Word) :
    rxRun r (xs ++ ys) =
      ((rxRun (rxRun r xs).1 ys).1, (rxRun r xs).2 ++ (rxRun (rxRun r xs).1 ys).2) := by
  induction xs generalizing r with
  | nil => rfl
  | cons x xs ih => rw [List.cons_append, rxRun_cons, ih, rxRun_cons, List.append_assoc]

theorem rxRun_cons_none {r r' : Rx} {x : Word} (h : rxStep r x = (r', none)) (xs : List Word) :
    rxRun r (x :: xs) = rxRun r' xs := by rw [rxRun_cons, h]; rfl

theorem rxRun_singleton {r r' : Rx} {x : Word} {c : Command} (h : rxStep r x = (r', some c)) :
    rxRun r [x] = (r', [c]) := by rw [rxRun_cons, h]; rfl

/-- A decoder at a command boundary, or with an UPDATE pending, stays so. -/
theorem rxStep_pending {r : Rx} (hr : r.phase ≠ .hdr → opcField r.hdr = 2) (x : Word) :
    (rxStep r x).1.phase ≠ .hdr → opcField (rxStep r x).1.hdr = 2 := by
  cases hp : r.phase with
  | hdr =>
    by_cases hx : opcField x = 2
    · rw [rxStep_hdr_update hp hx]; exact fun _ => hx
    · rw [rxStep_hdr_single hp hx]; exact hr
  | lenLo => rw [rxStep_lenLo hp]; exact fun _ => hr (by rw [hp]; decide)
  | lenHi =>
    by_cases hx : bitlenOf r.lo x = 0
    · rw [rxStep_lenHi_zero hp hx]; exact fun h => absurd rfl h
    · rw [rxStep_lenHi hp hx]; exact fun _ => hr (by rw [hp]; decide)
  | payload =>
    by_cases hx : payloadBytes r.bitlen ≤ r.data.length + 4
    · rw [rxStep_payload_done hp hx]; exact fun h => absurd rfl h
    · rw [rxStep_payload_more hp (Nat.not_le.1 hx)]; exact fun _ => hr (by rw [hp]; decide)

/-- Payload words short of the payload's end complete nothing. -/
theorem rxRun_payload_short (ps : List Word) (r : Rx) (h : r.phase = .payload)
    (hl : r.data.length + 4 * ps.length < payloadBytes r.bitlen) :
    rxRun r ps = ({ r with data := r.data ++ unpackWords ps }, []) := by
  induction ps generalizing r with
  | nil => rw [unpackWords_nil, List.append_nil]; rfl
  | cons x ps ih =>
    rw [List.length_cons] at hl
    rw [rxRun_cons_none (rxStep_payload_more h (by omega)),
      ih { r with data := r.data ++ unpackWord x } h (by dsimp only; rw [length_data_step]; omega),
      List.append_assoc, unpackWords_cons]

/-- An UPDATE's words, its header's bits [23:0] whatever they are, complete its record with the last word and none
before it (R66, R69). -/
theorem rxRun_update {r : Rx} (h : r.phase = .hdr) {hdr : Word} (ho : opcField hdr = 2) (lo hi : Word)
    (ps : List Word) (hl : ps.length = payloadWords (bitlenOf lo hi)) :
    ∃ (ys : List Word) (x : Word) (r0 r' : Rx), hdr :: lo :: hi :: ps = ys ++ [x] ∧ rxRun r ys = (r0, []) ∧
      rxStep r0 x = (r', some ⟨hdr, bitlenOf lo hi, (unpackWords ps).take (payloadBytes (bitlenOf lo hi))⟩) ∧
      r'.phase = .hdr := by
  have s1 := rxStep_hdr_update h ho
  have s2 := rxStep_lenLo (r := { r with hdr := hdr, phase := .lenLo }) rfl lo
  by_cases hb : bitlenOf lo hi = 0
  · have hps : ps = [] := by
      rw [← List.length_eq_zero_iff, hl, hb]; rfl
    subst hps
    have s3 := rxStep_lenHi_zero (r := { r with hdr := hdr, lo := lo, phase := .lenHi }) rfl hb
    refine ⟨[hdr, lo], hi, { r with hdr := hdr, lo := lo, phase := .lenHi },
      { r with hdr := hdr, lo := lo, bitlen := bitlenOf lo hi, data := [], phase := .hdr }, rfl, ?_, ?_, rfl⟩
    · rw [rxRun_cons_none s1, rxRun_cons_none s2, rxRun_nil]
    · rw [s3, hb]; rfl
  · have hpos := payloadBytes_pos hb
    have s3 := rxStep_lenHi (r := { r with hdr := hdr, lo := lo, phase := .lenHi }) rfl hb
    rw [payloadWords] at hl
    have hne : ps ≠ [] := by
      rw [← List.length_pos_iff, hl]; omega
    have hsplit := List.dropLast_append_getLast hne
    have hlen : ps.dropLast.length + 1 = ps.length := by rw [List.length_dropLast]; omega
    have hrun := rxRun_payload_short ps.dropLast
      { r with hdr := hdr, lo := lo, bitlen := bitlenOf lo hi, data := [], phase := .payload } rfl
      (by dsimp only; rw [List.length_nil]; omega)
    have hstep := rxStep_payload_done (r := { r with
        hdr := hdr, lo := lo, bitlen := bitlenOf lo hi, data := [] ++ unpackWords ps.dropLast, phase := .payload })
      rfl (x := ps.getLast hne)
      (by dsimp only; rw [List.nil_append, length_unpackWords]; omega)
    refine ⟨hdr :: lo :: hi :: ps.dropLast, ps.getLast hne,
      { r with
        hdr := hdr, lo := lo, bitlen := bitlenOf lo hi, data := [] ++ unpackWords ps.dropLast, phase := .payload },
      { r with
        hdr := hdr, lo := lo, bitlen := bitlenOf lo hi
        data := [] ++ unpackWords ps.dropLast ++ unpackWord (ps.getLast hne), phase := .hdr }, ?_, ?_, ?_, rfl⟩
    · rw [List.cons_append, List.cons_append, List.cons_append, hsplit]
    · rw [rxRun_cons_none s1, rxRun_cons_none s2, rxRun_cons_none s3]; exact hrun
    · have hu : unpackWords ps.dropLast ++ unpackWord (ps.getLast hne) = unpackWords ps := by
        conv_rhs => rw [← hsplit]
        simp only [unpackWords, List.flatMap_append, List.flatMap_cons, List.flatMap_nil, List.append_nil]
      rw [hstep]
      dsimp only
      rw [List.nil_append, hu]

/-- The words of a well-formed record complete it with the last word and nothing before it (R69, R70). -/
theorem rxRun_words {r : Rx} (h : r.phase = .hdr) {c : Command} (hc : c.wf = true) :
    ∃ (ys : List Word) (x : Word) (r0 r' : Rx), c.words = ys ++ [x] ∧ rxRun r ys = (r0, []) ∧
      rxStep r0 x = (r', some c) ∧ r'.phase = .hdr := by
  obtain ⟨hdr, bitlen, payload⟩ := c
  by_cases ho : opcField hdr = 2
  · have hl : payload.length = payloadBytes bitlen := (Command.wf_update (c := ⟨hdr, bitlen, payload⟩) ho).1 hc
    obtain ⟨ys, x, r0, r', h1, h2, h3, h4⟩ := rxRun_update h ho (loWord bitlen) (hiWord bitlen) (packWords payload)
      (by rw [length_packWords, hl, bitlenOf_lo_hi, payloadWords])
    rw [bitlenOf_lo_hi, ← hl, take_unpackWords_packWords] at h3
    rw [Command.words_update (c := ⟨hdr, bitlen, payload⟩) ho]
    exact ⟨ys, x, r0, r', h1, h2, h3, h4⟩
  · obtain ⟨rfl, rfl⟩ : bitlen = 0 ∧ payload = [] := (Command.wf_single (c := ⟨hdr, bitlen, payload⟩) ho).1 hc
    rw [Command.words_single (c := ⟨hdr, 0, []⟩) ho]
    exact ⟨[], hdr, r, r, rfl, rfl, rxStep_hdr_single h ho, h⟩

/-- The words of a well-formed record deliver it and leave the decoder at a command boundary (R70). -/
theorem rxRun_words_run {r : Rx} (h : r.phase = .hdr) {c : Command} (hc : c.wf = true) :
    ∃ r', r'.phase = .hdr ∧ rxRun r c.words = (r', [c]) := by
  obtain ⟨ys, x, r0, r', h1, h2, h3, h4⟩ := rxRun_words h hc
  refine ⟨r', h4, ?_⟩
  rw [h1, rxRun_append, h2, rxRun_singleton h3]
  rfl

/-- The first words of an UPDATE, short of its last, complete nothing and leave it pending (R206). -/
theorem rxRun_update_short {r : Rx} (h : r.phase = .hdr) {hdr : Word} (ho : opcField hdr = 2) {lo hi : Word}
    {ps xs : List Word} (hl : ps.length = payloadWords (bitlenOf lo hi)) (h0 : xs ≠ [])
    (hx : xs <+: hdr :: lo :: hi :: ps) (hne : xs ≠ hdr :: lo :: hi :: ps) :
    (rxRun r xs).2 = [] ∧ (rxRun r xs).1.phase ≠ .hdr := by
  have s1 := rxStep_hdr_update h ho
  have s2 := rxStep_lenLo (r := { r with hdr := hdr, phase := .lenLo }) rfl lo
  match xs, h0, hx, hne with
  | [a], _, hx, _ =>
    obtain ⟨rfl, -⟩ := List.cons_prefix_cons.1 hx
    rw [rxRun_cons_none s1, rxRun_nil]
    exact ⟨rfl, Phase.noConfusion⟩
  | [a, b], _, hx, _ =>
    obtain ⟨rfl, hx'⟩ := List.cons_prefix_cons.1 hx
    obtain ⟨rfl, -⟩ := List.cons_prefix_cons.1 hx'
    rw [rxRun_cons_none s1, rxRun_cons_none s2, rxRun_nil]
    exact ⟨rfl, Phase.noConfusion⟩
  | a :: b :: d :: qs, _, hx, hne =>
    obtain ⟨rfl, hx1⟩ := List.cons_prefix_cons.1 hx
    obtain ⟨rfl, hx2⟩ := List.cons_prefix_cons.1 hx1
    obtain ⟨rfl, hx3⟩ := List.cons_prefix_cons.1 hx2
    have hlt : qs.length < ps.length := by
      rcases Nat.lt_or_ge qs.length ps.length with hlt | hge
      · exact hlt
      · exact absurd (by rw [hx3.eq_of_length_le hge]) hne
    rw [payloadWords] at hl
    have hb : bitlenOf b d ≠ 0 := by
      intro hb
      rw [hb, payloadBytes_zero] at hl
      omega
    have s3 := rxStep_lenHi (r := { r with hdr := a, lo := b, phase := .lenHi }) rfl hb
    have hrun := rxRun_payload_short qs
      { r with hdr := a, lo := b, bitlen := bitlenOf b d, data := [], phase := .payload } rfl
      (by dsimp only; rw [List.length_nil]; omega)
    rw [rxRun_cons_none s1, rxRun_cons_none s2, rxRun_cons_none s3, hrun]
    exact ⟨rfl, Phase.noConfusion⟩

/-! ## Steps -/

theorem step_word {s : State} {e : Nat} {x : Word} {rest : List HostEvent} {eng : Engine}
    (he : s.engines[e]? = some eng) (hi : s.input = .word e x :: rest) :
    step s =
      match rxStep eng.rx x with
      | (r, none) => .next ({ s with input := rest }.setEngine e { eng with rx := r })
      | (r, some c) => execCommand c ({ s with input := rest }.deliver e eng r) := by
  rcases h : rxStep eng.rx x with ⟨r, _ | c⟩ <;> simp only [step, hi, takeEvent, acceptWord, he, h]

theorem step_word_none {s : State} {e : Nat} {x : Word} {rest : List HostEvent} {eng : Engine} {r : Rx}
    (he : s.engines[e]? = some eng) (hi : s.input = .word e x :: rest) (hr : rxStep eng.rx x = (r, none)) :
    step s = .next ({ s with input := rest }.setEngine e { eng with rx := r }) := by
  rw [step_word he hi, hr]

theorem step_word_some {s : State} {e : Nat} {x : Word} {rest : List HostEvent} {eng : Engine} {r : Rx} {c : Command}
    (he : s.engines[e]? = some eng) (hi : s.input = .word e x :: rest) (hr : rxStep eng.rx x = (r, some c)) :
    step s = execCommand c ({ s with input := rest }.deliver e eng r) := by
  rw [step_word he hi, hr]

theorem core_run_next {M : Host.Core} {s s' : M.State} (h : M.step s = .next s') (n : Nat) :
    M.run (n + 1) s = M.run n s' := by rw [Host.Core.run, h]

theorem core_run_fault {M : Host.Core} {s : M.State} {r : M.Fault} (h : M.step s = .fault r) (n : Nat) :
    M.run (n + 1) s = .fault r := by rw [Host.Core.run, h]

theorem core_run_refused {M : Host.Core} {s : M.State} {r : M.Refusal} (h : M.step s = .refused r) (n : Nat) :
    M.run (n + 1) s = .refused r := by rw [Host.Core.run, h]

theorem runSteps_zero (s : State) : runSteps 0 s = .next s := rfl

theorem runSteps_succ (n : Nat) (s : State) :
    runSteps (n + 1) s =
      match step s with
      | .next s' => runSteps n s'
      | .fault r => .fault r
      | .refused r => .refused r := by
  cases h : step s with
  | next s' => exact core_run_next (M := core) h n
  | fault r => exact core_run_fault (M := core) h n
  | refused r => exact core_run_refused (M := core) h n

theorem run_succ_next {s s' : State} (h : step s = .next s') (n : Nat) : runSteps (n + 1) s = runSteps n s' := by
  rw [runSteps_succ, h]

theorem run_one (s : State) : runSteps 1 s = step s := by
  rw [runSteps_succ]
  cases step s <;> rfl

/-- Words that complete no record move the decoder and nothing else. -/
theorem run_words_none (e : Nat) (rest : List HostEvent) (xs : List Word) (s : State) (eng : Engine)
    (he : s.engines[e]? = some eng) (hi : s.input = xs.map (HostEvent.word e) ++ rest)
    (hr : (rxRun eng.rx xs).2 = []) :
    runSteps xs.length s =
      .next ({ s with input := rest }.setEngine e { eng with rx := (rxRun eng.rx xs).1 }) := by
  induction xs generalizing s eng with
  | nil =>
    obtain rfl : s.input = rest := hi
    rw [rxRun_nil, State.setEngine_self (s := { s with input := s.input }) he]
    rfl
  | cons x xs ih =>
    rw [List.map_cons, List.cons_append] at hi
    rw [rxRun_cons, List.append_eq_nil_iff, Option.toList_eq_nil_iff] at hr
    obtain ⟨hn, hr⟩ := hr
    have hstep := step_word_none he hi (Prod.ext rfl hn : rxStep eng.rx x = ((rxStep eng.rx x).1, none))
    rw [List.length_cons, run_succ_next hstep]
    rw [ih _ { eng with rx := (rxStep eng.rx x).1 }
      (State.setEngine_getElem_self (s := { s with input := xs.map (HostEvent.word e) ++ rest }) he _) rfl hr]
    simp only [State.setEngine, List.set_set, rxRun_cons]

/-- Words whose last completes their one record: the steps that take them end with the execution of the record. -/
theorem run_words_some {e : Nat} {rest : List HostEvent} {ys : List Word} {x : Word} {s : State} {eng : Engine}
    {r0 r' : Rx} {c : Command} (he : s.engines[e]? = some eng)
    (hi : s.input = (ys ++ [x]).map (HostEvent.word e) ++ rest) (h0 : rxRun eng.rx ys = (r0, []))
    (hx : rxStep r0 x = (r', some c)) :
    runSteps (ys ++ [x]).length s = execCommand c ({ s with input := rest }.deliver e eng r') := by
  induction ys generalizing s eng with
  | nil =>
    cases h0
    rw [List.nil_append, List.length_singleton, run_one]
    exact step_word_some he hi hx
  | cons y ys ih =>
    rw [List.cons_append, List.map_cons, List.cons_append] at hi
    have hnil : (rxStep eng.rx y).2.toList ++ (rxRun (rxStep eng.rx y).1 ys).2 = [] := congrArg Prod.snd h0
    rw [List.append_eq_nil_iff, Option.toList_eq_nil_iff] at hnil
    obtain ⟨hn, hr⟩ := hnil
    have hstep := step_word_none he hi (Prod.ext rfl hn : rxStep eng.rx y = ((rxStep eng.rx y).1, none))
    have hfst : (rxRun (rxStep eng.rx y).1 ys).1 = r0 := congrArg Prod.fst h0
    rw [List.cons_append, List.length_cons, run_succ_next hstep]
    refine (ih (s := State.setEngine { s with input := (ys ++ [x]).map (HostEvent.word e) ++ rest } e
        { eng with rx := (rxStep eng.rx y).1 }) (eng := { eng with rx := (rxStep eng.rx y).1 })
      (State.setEngine_getElem_self (s := { s with input := (ys ++ [x]).map (HostEvent.word e) ++ rest }) he _) rfl
      (Prod.ext hfst hr)).trans ?_
    simp only [State.deliver, State.setEngine, List.set_set]

theorem run_idle {s : State} (h : s.input = []) (n : Nat) : runSteps n s = .next s := by
  induction n with
  | zero => rfl
  | succ n ih =>
    have hs : step s = .next s := by rw [step, h]
    rw [run_succ_next hs, ih]

theorem run_add {m n : Nat} {s s' : State} (h : runSteps m s = .next s') :
    runSteps (m + n) s = runSteps n s' := by
  induction m generalizing s with
  | zero => cases h; rw [Nat.zero_add]
  | succ m ih =>
    rw [Nat.succ_add]
    rw [runSteps_succ] at h
    cases hs : step s with
    | next s1 => rw [hs] at h; rw [run_succ_next hs]; exact ih h
    | fault r => rw [hs] at h; cases h
    | refused r => rw [hs] at h; cases h

/-- The illegal record, at its engine (R75). -/
theorem execIllegal_eq {s : State} {eng : Engine} (h : s.engines[s.port]? = some eng) :
    execIllegal s = .next (s.setEngine s.port (eng.replyError .illegalCommand)) := by
  rw [execIllegal, onEngine_some h]; rfl

end Sys2Proof.Machine
end

