-- ==== Sys2Proof/Laws/Run.lean ====
section
/-! SUPPORT. Runs of commands on one engine, and what one host event does to an engine (20_memory.md R55, R56). -/

namespace Sys2Proof.Machine

/-! ## Commands one after another -/

theorem runInstrs_next {i : Instr} {is : List Instr} {s s' : State} (h : exec i s = .next s') : runInstrs
    (i :: is) s = runInstrs is s' := by
  rw [runInstrs, h]

theorem runInstrs_two {i j : Instr} {s s' : State} (h : runInstrs [i, j] s = .next s') : ∃ s1, exec i s =
    .next s1 ∧ exec j s1 = .next s' := by
  rw [runInstrs] at h
  cases h1 : exec i s with
  | next s1 =>
    rw [h1] at h
    refine ⟨s1, rfl, ?_⟩
    dsimp only at h
    rw [runInstrs] at h
    cases h2 : exec j s1 with
    | next s2 => rw [h2] at h; exact h
    | fault r => rw [h2] at h; cases h
    | refused r => rw [h2] at h; cases h
  | fault r => rw [h1] at h; cases h
  | refused r => rw [h1] at h; cases h

/-- A command twice in a row, from its outcomes at the engine. -/
theorem runInstrs_idem {i : Instr} {s : State} {eng e1 e2 : Engine} (he : s.engines[s.port]? = some eng)
    (h1 : engineExec s.cfg i eng = .next e1) (h2 : engineExec s.cfg i e1 = .next e2) :
    exec i s = .next (s.setEngine s.port e1) ∧ runInstrs [i, i] s = .next (s.setEngine s.port e2) := by
  have g1 : exec i s = .next (s.setEngine s.port e1) := by rw [exec_eq he, h1]; rfl
  refine ⟨g1, ?_⟩
  have he1 : (s.setEngine s.port e1).engines[(s.setEngine s.port e1).port]? =
      some e1 := State.setEngine_getElem_self he e1
  have g2 : exec i (s.setEngine s.port e1) = .next (s.setEngine s.port e2) := by
    rw [exec_eq he1, State.setEngine_cfg, h2, State.setEngine_port, liftEngine_next, State.setEngine_setEngine]
  rw [runInstrs_next g1, runInstrs_next g2]
  rfl

/-- INIT of a supported variant starts the fresh context, whatever the context was (R86). -/
theorem exec_init {s : State} {eng : Engine} (he : s.engines[s.port]? = some eng) {f : Family}
    (hf : f ∈ s.cfg.algSupported) {dlen : BitVec 16} (hl : legalDlen f dlen.toNat = true) :
    exec (.init (familyCode f) dlen) s = .next (s.setEngine s.port
      { eng with
        ctx := freshCtx (paramsOf f dlen.toNat) (familyCode f) dlen Ctx.reset
        resp := eng.resp ++ [0x00000000] }) := by
  have h0 := ne_zero_of_legal hl
  rw [exec_eq he, engineExec, initEngine, registryLookup_supported hf, if_neg h0, if_pos hl]
  dsimp only
  rw [if_neg h0, freshCtx_indep _ _ _ eng.ctx Ctx.reset]
  rfl

/-- FINAL on a live context: the digest, and the context consumed (R88). -/
theorem exec_final {s : State} {eng0 : Engine} (he : s.engines[s.port]? = some eng0) {eng : Engine}
    (hs : eng.ctx.state = .active ∨ eng.ctx.state = .tail) {p : Params}
    (hv : variantOf eng.ctx.alg eng.ctx.dlen = some p) :
    exec .final (s.setEngine s.port eng) = .next (s.setEngine s.port
      { eng with
        ctx := { Ctx.reset with state := .finalized }
        resp := eng.resp ++
          responseWord .ok (BitVec.ofNat 16 (eng.ctx.dlen.toNat / 8)) :: packWords (digest p eng.ctx) }) := by
  rw [exec_setEngine he, engineExec, finalEngine_live hs hv]
  rfl

/-- UPDATE and FINAL on an ACTIVE context whose message stays below 2^64 bits. -/
theorem run_update_final {s : State} {eng0 : Engine} (he : s.engines[s.port]? = some eng0) {eng : Engine}
    (hs : eng.ctx.state = .active) {p : Params} (hv : variantOf eng.ctx.alg eng.ctx.dlen = some p) {b : BitVec 64}
    {pl : Bytes} (hl : pl.length = payloadBytes b)
    (ht : tailBits b = 0 ∨ acceptsPartial s.cfg p.family = true)
    (hN : eng.ctx.msgBits.toNat + b.toNat < 2 ^ 64) :
    runInstrs [.update b pl, .final] (s.setEngine s.port eng) = .next (s.setEngine s.port
      { eng with
        ctx := { Ctx.reset with state := .finalized }
        resp := eng.resp ++ [0x00000000] ++ responseWord .ok (BitVec.ofNat 16 (eng.ctx.dlen.toNat / 8)) ::
          packWords (digest p (updateCtx p b pl eng.ctx)) }) := by
  have hx : exec (.update b pl) (s.setEngine s.port eng) = .next (s.setEngine s.port
      (Engine.respond { eng with ctx := updateCtx p b pl eng.ctx } .ok 0 [])) := by
    rw [exec_setEngine he, engineExec, if_neg (not_not.2 hl),
      updateEngine_accepted hs hv ht (withinLimit_of_lt hv hN)]
    rfl
  obtain ⟨_, _, _, u4, u5, _, _⟩ := updateCtx_absorbed p b pl eng.ctx
  have hst : (updateCtx p b pl eng.ctx).state = .active ∨ (updateCtx p b pl eng.ctx).state = .tail := by
    rw [updateCtx_state hs]
    split
    · exact .inl rfl
    · exact .inr rfl
  have hf := exec_final he (eng := Engine.respond { eng with ctx := updateCtx p b pl eng.ctx } .ok 0 []) hst
    (p := p) (by rw [Engine.respond_ctx]; dsimp only; rw [u4, u5]; exact hv)
  rw [Engine.respond_ctx] at hf
  dsimp only at hf
  rw [u5] at hf
  rw [runInstrs_next hx, runInstrs_next hf]
  rfl

/-- A message in one UPDATE, from any state: INIT, UPDATE, FINAL (30_encoding.md R81, HASH). -/
theorem run_hash {s : State} {eng : Engine} (he : s.engines[s.port]? = some eng) {f : Family}
    (hf : f ∈ s.cfg.algSupported) {dlen : BitVec 16} (hd : legalDlen f dlen.toNat = true) {b : BitVec 64} {pl : Bytes}
    (hl : pl.length = payloadBytes b) (ht : tailBits b = 0 ∨ acceptsPartial s.cfg f = true) :
    runInstrs [.init (familyCode f) dlen, .update b pl, .final] s = .next (s.setEngine s.port
      { eng with
        ctx := { Ctx.reset with state := .finalized }
        resp := eng.resp ++ ([0x00000000, 0x00000000] ++ responseWord .ok (BitVec.ofNat 16 (dlen.toNat / 8)) ::
          packWords (digest (paramsOf f dlen.toNat) (updateCtx (paramsOf f dlen.toNat) b pl
            (freshCtx (paramsOf f dlen.toNat) (familyCode f) dlen Ctx.reset)))) }) := by
  have hv : variantOf (familyCode f) dlen = some (paramsOf f dlen.toNat) := by rw [variantOf_code, if_pos hd]
  rw [runInstrs_next (exec_init he hf hd), run_update_final he rfl hv hl (by rwa [paramsOf_family])
    (by rw [freshCtx_msgBits]; have := b.isLt; change 0 + b.toNat < 2 ^ 64; omega)]
  simp only [List.append_assoc, List.cons_append, List.nil_append, freshCtx_dlen]

/-- The empty message without an UPDATE: INIT, FINAL. -/
theorem run_hash_empty {s : State} {eng : Engine} (he : s.engines[s.port]? = some eng) {f : Family}
    (hf : f ∈ s.cfg.algSupported) {dlen : BitVec 16} (hd : legalDlen f dlen.toNat = true) :
    runInstrs [.init (familyCode f) dlen, .final] s = .next (s.setEngine s.port
      { eng with
        ctx := { Ctx.reset with state := .finalized }
        resp := eng.resp ++ ([0x00000000] ++ responseWord .ok (BitVec.ofNat 16 (dlen.toNat / 8)) ::
          packWords (digest (paramsOf f dlen.toNat)
            (freshCtx (paramsOf f dlen.toNat) (familyCode f) dlen Ctx.reset))) }) := by
  have hv : variantOf (familyCode f) dlen = some (paramsOf f dlen.toNat) := by rw [variantOf_code, if_pos hd]
  rw [runInstrs_next (exec_init he hf hd), runInstrs_next (exec_final he (.inl rfl) hv)]
  simp only [List.append_assoc, List.cons_append, List.nil_append, freshCtx_dlen]
  rfl

/-- UPDATEs of whole bytes, one after another: the bytes absorbed in order, the bits counted, one OK each (R110). -/
theorem run_chunks {s : State} {eng0 : Engine} (he : s.engines[s.port]? = some eng0) {p : Params}
    (rest : List Instr) (chunks : List Bytes) : ∀ (eng : Engine),
    eng.ctx.state = .active → variantOf eng.ctx.alg eng.ctx.dlen = some p →
        eng.ctx.msgBits.toNat + 8 * chunks.flatten.length < 2 ^ 64 →
    runInstrs (chunks.map updateBytes ++ rest) (s.setEngine s.port eng) =
      runInstrs rest (s.setEngine s.port { eng with
        ctx := { absorb p eng.ctx chunks.flatten with
          msgBits := eng.ctx.msgBits + BitVec.ofNat 256 (8 * chunks.flatten.length) }
        resp := eng.resp ++ List.replicate chunks.length 0x00000000 }) := by
  induction chunks with
  | nil =>
    intro eng _ _ _
    have : eng.ctx.msgBits + BitVec.ofNat 256 (8 * ([] : List Bytes).flatten.length) =
        eng.ctx.msgBits := BitVec.add_zero _
    rw [this, List.flatten_nil, absorb_nil, List.length_nil, List.replicate_zero, List.append_nil, List.map_nil,
        List.nil_append]
  | cons b bs ih =>
    intro eng hs hv hN
    rw [List.flatten_cons, List.length_append] at hN
    have hb64 : (BitVec.ofNat 64 (8 * b.length)).toNat = 8 * b.length := by rw [BitVec.toNat_ofNat]; omega
    have ht : tailBits (BitVec.ofNat 64 (8 * b.length)) = 0 := by rw [tailBits, hb64]; omega
    have hl : b.length = payloadBytes (BitVec.ofNat 64 (8 * b.length)) := by rw [payloadBytes, hb64]; omega
    have hw : b.take (wholeBytes (BitVec.ofNat 64 (8 * b.length))) = b := by
      rw [wholeBytes, hb64, Nat.mul_div_cancel_left _ (by decide), List.take_length]
    have hx : exec (updateBytes b) (s.setEngine s.port eng) = .next (s.setEngine s.port (Engine.respond
        { eng with ctx := updateCtx p (BitVec.ofNat 64 (8 * b.length)) b eng.ctx } .ok 0 [])) := by
      rw [exec_setEngine he, updateBytes, engineExec, if_neg (not_not.2 hl), updateEngine_accepted hs hv (.inl ht)
          (withinLimit_of_lt hv (by rw [hb64]; omega))]
      rfl
    have hsw : (BitVec.ofNat 64 (8 * b.length)).setWidth 256 = BitVec.ofNat 256 (8 * b.length) := by
      apply BitVec.eq_of_toNat_eq
      rw [BitVec.toNat_setWidth, hb64, BitVec.toNat_ofNat]
    have hctx : updateCtx p (BitVec.ofNat 64 (8 * b.length)) b eng.ctx =
        { absorb p eng.ctx b with msgBits := eng.ctx.msgBits + BitVec.ofNat 256 (8 * b.length) } := by
      rw [updateCtx_aligned ht, hw, hsw]
    obtain ⟨f1, f2, f3, _⟩ := absorb_frame p eng.ctx b
    have hadd : (eng.ctx.msgBits + BitVec.ofNat 256 (8 * b.length)).toNat = eng.ctx.msgBits.toNat + 8 * b.length := by
      rw [BitVec.toNat_add, BitVec.toNat_ofNat]; omega
    rw [List.map_cons, List.cons_append, runInstrs_next hx, hctx]
    rw [ih (Engine.respond { eng with ctx :=
        { absorb p eng.ctx b with msgBits := eng.ctx.msgBits + BitVec.ofNat 256 (8 * b.length) } } .ok 0 [])
      (f1.trans hs) (by rw [Engine.respond_ctx]; dsimp only; rw [f2, f3]; exact hv)
          (by rw [Engine.respond_ctx]; dsimp only; rw [hadd]; omega)]
    congr 2
    have e1 : absorb p { absorb p eng.ctx b with
          msgBits := eng.ctx.msgBits + BitVec.ofNat 256 (8 * b.length) } bs.flatten =
       { absorb p eng.ctx (b ++ bs.flatten) with msgBits := eng.ctx.msgBits + BitVec.ofNat 256 (8 * b.length) } := by
      rw [absorb_msgBits, absorb_append]
    have e2 : eng.ctx.msgBits + BitVec.ofNat 256 (8 * b.length) + BitVec.ofNat 256 (8 * bs.flatten.length) =
        eng.ctx.msgBits + BitVec.ofNat 256 (8 * (b ++ bs.flatten).length) := by
      rw [BitVec.add_assoc, ← BitVec.ofNat_add, List.length_append, Nat.mul_add]
    have e3 : eng.resp ++ [responseWord .ok 0] ++ List.replicate bs.length 0x00000000 = eng.resp ++ List.replicate
        (bs.length + 1) 0x00000000 := by
      rw [List.append_assoc]; rfl
    rw [Engine.respond_ctx, Engine.respond_resp]
    dsimp only
    rw [e1, respondWords_nil, e3, List.flatten_cons, List.length_cons]
    dsimp only
    rw [e2]
    rfl

/-! ## Host events -/

/-- What a host event does to an engine that takes part in it. -/
def engineEvent (cfg : Config) (ev : HostEvent) (eng : Engine) : Host.Outcome Engine Fault Refusal :=
  match ev with
  | .word _ x =>
    match rxStep eng.rx x with
    | (r, none) => .next { eng with rx := r }
    | (r, some c) =>
      match decodeCommand c with
      | .ok i => engineExec cfg i { eng with rx := r }
      | .error _ => .next (Engine.replyError { eng with rx := r } .illegalCommand)
  | .reset _ => .next eng.applyReset
  | .resetAll => .next eng.applyReset

/-- A step, seen from engine e: its event changes it as `engineEvent` says, and any other event leaves it. -/
theorem step_concerns {s s' : State} {ev : HostEvent} {rest : List HostEvent} (hin : s.input = ev :: rest)
    (h : step s = .next s') (e : Nat) :
    s'.cfg = s.cfg ∧ s'.input = rest ∧
    (concerns e ev = false → s'.engines[e]? = s.engines[e]?) ∧
    (concerns e ev = true → ∀ eng, s.engines[e]? = some eng → ∃ eng', engineEvent s.cfg ev eng = .next eng' ∧
        s'.engines[e]? = some eng') ∧
    (s.engines[e]? = none → s'.engines[e]? = none) := by
  rw [step, hin] at h
  cases ev with
  | word e' x =>
    dsimp only [takeEvent] at h
    rw [acceptWord] at h
    dsimp only at h
    cases he : s.engines[e']? with
    | none => rw [he] at h; cases h
    | some eng0 =>
      rw [he] at h
      dsimp only at h
      have hout : ∃ eng1 q, s' = { s.setEngine e' eng1 with input := rest, port := q } ∧ engineEvent s.cfg
          (.word e' x) eng0 = .next eng1 := by
        split at h
        · next r hr =>
          cases h
          exact ⟨_, s.port, rfl, by rw [engineEvent, hr]⟩
        · next r c hr =>
          have hg : (State.deliver { s with input := rest } e' eng0 r).engines[(State.deliver
              { s with input := rest } e' eng0 r).port]? = some { eng0 with rx := r } := by
            obtain ⟨hlt, -⟩ := List.getElem?_eq_some_iff.1 he
            exact List.getElem?_set_self hlt
          rw [execCommand] at h
          split at h
          · next i hc =>
            rw [exec_eq hg] at h
            cases hx : engineExec (State.deliver { s with input := rest } e' eng0 r).cfg i { eng0 with rx := r } with
            | fault q => rw [hx] at h; cases h
            | refused q => rw [hx] at h; cases h
            | next eng1 =>
              rw [hx] at h
              cases h
              refine ⟨eng1, e', ?_, by rw [engineEvent, hr]; dsimp only; rw [hc]; exact hx⟩
              simp only [State.deliver, State.setEngine, List.set_set]
          · next err hc =>
            rw [execIllegal_eq hg] at h
            cases h
            refine ⟨Engine.replyError { eng0 with rx := r } .illegalCommand, e', ?_,
              by rw [engineEvent, hr]; dsimp only; rw [hc]⟩
            simp only [State.deliver, State.setEngine, List.set_set]
      obtain ⟨eng1, q, rfl, hev⟩ := hout
      refine ⟨rfl, rfl, ?_, ?_, ?_⟩
      · intro hc
        have hne : e' ≠ e := by rintro rfl; simp [concerns] at hc
        exact State.setEngine_getElem_ne s hne eng1
      · intro hc eng heng
        have heq : e' = e := by simpa [concerns] using hc
        subst heq
        rw [he] at heng
        cases heng
        exact ⟨eng1, hev, State.setEngine_getElem_self he eng1⟩
      · intro hn
        have hne : e' ≠ e := by rintro rfl; rw [hn] at he; cases he
        exact (State.setEngine_getElem_ne s hne eng1).trans hn
  | reset e' =>
    dsimp only [takeEvent] at h
    rw [resetEngine] at h
    dsimp only at h
    split at h
    · cases h
    · next eng0 he =>
      cases h
      refine ⟨rfl, rfl, ?_, ?_, ?_⟩
      · intro hc
        have hne : e' ≠ e := by rintro rfl; simp [concerns] at hc
        exact State.setEngine_getElem_ne s hne _
      · intro hc eng heng
        have heq : e' = e := by simpa [concerns] using hc
        subst heq
        rw [he] at heng
        cases heng
        exact ⟨_, rfl, State.setEngine_getElem_self he _⟩
      · intro hn
        have hne : e' ≠ e := by rintro rfl; rw [hn] at he; cases he
        exact (State.setEngine_getElem_ne s hne _).trans hn
  | resetAll =>
    cases h
    refine ⟨rfl, rfl, fun hc => (by cases hc), ?_, ?_⟩
    · intro _ eng heng
      refine ⟨_, rfl, ?_⟩
      change (s.engines.map Engine.applyReset)[e]? = _
      rw [List.getElem?_map, heng]; rfl
    · intro hn
      change (s.engines.map Engine.applyReset)[e]? = _
      rw [List.getElem?_map, hn]; rfl

/-- What a sequence of host events does to an engine that takes part in all of them. -/
def engineEvents (cfg : Config) : List HostEvent → Engine → Host.Outcome Engine Fault Refusal
  | [], eng => .next eng
  | ev :: evs, eng => match engineEvent cfg ev eng with
    | .next eng' => engineEvents cfg evs eng'
    | .fault r => .fault r
    | .refused r => .refused r

/-! ## The invariant -/

/-- Writing an engine that keeps the invariants keeps them. -/
theorem inv_setEngine {s : State} (hi : StateInv s) {e : Nat} {eng : Engine} (hc : CtxInv s.cfg eng.ctx)
    (hr : RxInv eng.rx) (inp : List HostEvent) {q : Nat} (hq : q < s.cfg.nEngines) :
    StateInv { s.setEngine e eng with input := inp, port := q } := by
  refine ⟨?_, hq, ?_, ?_⟩
  · exact (List.length_set).trans hi.engines_length
  · intro x hx
    rcases List.mem_or_eq_of_mem_set hx with hx | rfl
    · exact hi.ctx x hx
    · exact hc
  · intro x hx
    rcases List.mem_or_eq_of_mem_set hx with hx | rfl
    · exact hi.rx x hx
    · exact hr

end Sys2Proof.Machine
end

