-- ==== Sys2Proof/Tests/Slice0.lean ====
section
/-! SUPPORT. Named tests of the model, and for each statement of Obligations.lean with hypotheses a state and operands
that meet all of them. Expected words and digests come from spec/: 30_encoding.md R82, 95_test_vectors.md and the worked
examples of the cores' files. -/

namespace Sys2Proof.Tests

open Sys2Proof Sys2Proof.Machine

/-! ## Small states -/

/-- A live context of the variant (alg, dlen) with k bytes buffered, blocks transformed and t bits of a partial byte,
its chaining state 0. -/
def live (alg : BitVec 8) (dlen : BitVec 16) (B blocks k t : Nat) : Ctx :=
  { Ctx.reset with
    state := if t = 0 then .active else .tail
    alg := alg
    dlen := dlen
    msgBits := BitVec.ofNat 256 (8 * B * blocks + 8 * k + t)
    blockCount := BitVec.ofNat 256 blocks
    bufLen := BitVec.ofNat 9 k
    partialBits := BitVec.ofNat 3 t }

/-- The machine after reset with that context in engine 0. -/
def withCtx (c : Ctx) : State := State.reset.setEngine 0 { Engine.reset with ctx := c }

/-- The engine 0 of `withCtx`. -/
def engineOf (c : Ctx) : Engine := { Engine.reset with ctx := c }

/-- The machine after reset with the given host events pending. -/
def withInput (evs : List HostEvent) : State := { State.reset with input := evs }

/-- The digest that INIT, one UPDATE and FINAL emit, as a big-endian number. -/
def hashOf (alg : BitVec 8) (dlen : BitVec 16) (i : Instr) : Option Nat :=
  (responsesAfter [.init alg dlen, i, .final] State.reset 0).map fun ws =>
    ((unpackWords (ws.drop 3)).take (dlen.toNat / 8)).foldl (fun n b => 256 * n + b.toNat) 0

def abc : Instr := updateBytes [0x61, 0x62, 0x63]

/-- The context of engine 0 after a command that completes. -/
def ctxAfter (i : Instr) (s : State) : Option Ctx :=
  match exec i s with
  | .next s' => (s'.engines[0]?).map Engine.ctx
  | _ => none

/-! ## WellFormed: the one check, refused -/

theorem test_wf_update_short : (Instr.update 24 [0x61, 0x62]).wf = false := by decide

theorem test_wf_update_long : (Instr.update 0 [0x61]).wf = false := by decide

theorem test_exec_refuses_ill_formed_update :
    exec (.update 24 [0x61, 0x62]) State.reset = .refused .payloadLength := by rfl

theorem test_wf_update_partial : (Instr.update 5 [0xA8]).wf = true := by decide

/-! ## Decoding: words written bit by bit from the encodings of R64 to R74 -/

theorem test_decode_init :
    decodeWords [0b00000001_00000001_0000000100000000#32] = .ok (.init 1 256, []) := by decide

theorem test_decode_update :
    decodeWords [0b00000010_000000000000000000000000#32, 24, 0, 0b00000000_01100011_01100010_01100001#32] =
      .ok (.update 24 [0x61, 0x62, 0x63], []) := by decide

theorem test_decode_update_ignores_padding :
    decodeWords [0x02000000, 24, 0, 0xFF636261] = .ok (.update 24 [0x61, 0x62, 0x63], []) := by decide

theorem test_decode_final : decodeWords [0b00000011_000000000000000000000000#32] = .ok (.final, []) := by decide

theorem test_decode_drop : decodeWords [0b00000100_000000000000000000000000#32] = .ok (.drop, []) := by decide

theorem test_decode_qdlen :
    decodeWords [0b00000101_00000010_0000000100001000#32] = .ok (.qdlen 2 264, []) := by decide

theorem test_decode_qblk :
    decodeWords [0b00000110_00000111_0000000000000000#32] = .ok (.qblk 7 0, []) := by decide

theorem test_decode_rejects :
    decodeWords [0x00000000] = .error (.reservedOpcode 0) ∧ decodeWords [0x07000000] = .error (.reservedOpcode 7) ∧
      decodeWords [0xFF000000] = .error (.reservedOpcode 0xFF) ∧
      decodeWords [0x04000100] = .error (.reservedBits 4) ∧ decodeWords [0x03080000] = .error (.reservedBits 3) ∧
      decodeWords [0x02000001, 8, 0, 0x61] = .error (.reservedBits 2) ∧
      decodeWords [0x02000000, 8, 0] = .error .incomplete := by decide

theorem test_decodeTableWord :
    decodeTableWord 32 0x01020100 = some (.init 2 256) ∧ decodeTableWord 32 0x02000000 = some (.update 0 []) ∧
      decodeTableWord 128 (0x02000000 + 2 ^ 32 * 5 + 2 ^ 96 * 0xA8) = some (.update 5 [0xA8]) ∧
      decodeTableWord 32 0x03000000 = some .final ∧ decodeTableWord 32 0x04000000 = some .drop ∧
      decodeTableWord 32 0x05020000 = some (.qdlen 2 0) ∧ decodeTableWord 32 0x06020180 = some (.qblk 2 384) ∧
      decodeTableWord 32 0x03000001 = none := by decide

/-- The next step after placing a word is that command on the engine of the port. -/
theorem test_withFetchWord :
    (match step (State.reset.withFetchWord 32 0x05020000) with
      | .next s => s.engines.map Engine.resp
      | _ => []) = [[0x00400000], []] := by decide

/-! ## One step of each command -/

/-- 3.8: INIT GROESTL, 256 from reset. The IV is `zeros(62) || 01 00` (R131, R135). -/
theorem test_init_groestl :
    ((ctxAfter (.init 2 256) State.reset).map fun c =>
      (c.state, c.alg, c.dlen, c.chain.toList.take 64)) = some (.active, 2, 256, zeros 62 ++ [0x01, 0x00]) := by
  decide +kernel

/-- 3.8: INIT BLAKE, 160 answers BadHashLength and keeps the context. -/
theorem test_init_bad_length :
    exec (.init 1 160) (withCtx (live 2 256 64 0 1 0)) =
      .next ((withCtx (live 2 256 64 0 1 0)).setEngine 0 { engineOf (live 2 256 64 0 1 0) with
        resp := [0x00000002] }) := by rfl

/-- R87, R48: UPDATE 5, AF leaves TAIL with the low bits of the partial byte dropped. -/
theorem test_update_partial :
    ((ctxAfter (.update 5 [0xAF]) (withCtx (live 2 256 64 0 0 0))).map fun c =>
      (c.state, c.msgBits, c.bufLen, c.partialBits, c.buf.toList.take 2)) =
      some (.tail, 5, 0, 5, [0xA8, 0x00]) := by decide +kernel

/-- 3.8: in a BLAKE-256 context with `ctx.msgBits = 2^64 - 8` one more byte passes the limit. -/
theorem test_update_length_limit :
    exec (.update 8 [0x61]) (withCtx (live 1 256 64 (2 ^ 55 - 1) 63 0)) = .fault .lengthLimit := by rfl

/-- R182: FINAL of CRC32 after "123456789", from the register of 95_test_vectors.md section 3.7. -/
theorem test_final_crc32 :
    responsesAfter [.final] (withCtx { live 8 32 1 9 0 0 with chain := Chain.ofBytes [0x34, 0x0B, 0xC6, 0xD9] }) 0 =
      some [0x00040000, 0x2639F4CB] := by decide +kernel

/-- R204: a second FINAL. -/
theorem test_final_twice :
    responsesAfter [.final] (withCtx { Ctx.reset with state := .finalized }) 0 = some [0x00000004] := by decide

theorem test_drop_tail :
    ctxAfter .drop (withCtx (live 2 256 64 3 7 5)) = some Ctx.reset := by decide +kernel

/-- 3.8: QDLEN BLAKE and QDLEN GROESTL, 12. -/
theorem test_qdlen :
    responsesAfter [.qdlen 1 0, .qdlen 2 12] State.reset 0 = some [0x00400000, 0x00000002] := by decide

/-- 3.8: QBLK GROESTL, 264 and QBLK CRC32. -/
theorem test_qblk : responsesAfter [.qblk 2 264, .qblk 8 0] State.reset 0 = some [0x00800000, 0x00010000] := by decide

/-! ## The cores -/

/-- 95_test_vectors.md section 3.7, the step corner cases. -/
theorem test_crc_steps :
    crc32Step 0xFFFFFFFF 0x31 = 0x7C231048 ∧ cksumStep 0 0x01 = 0x04C11DB7 ∧ cksumStep 0 0x80 = 0x690CE0EE ∧
      cksumStep 0 0x00 = 0 := by decide

/-- R144: RMD-320 of "abc". -/
theorem test_digest_rmd320 :
    hashOf 3 320 abc =
      some 0xde4c01b3054f8930a79d09ae738e92301e5a17085beffdc1b8d116713e74f82fa942d64cdbc4682d := by decide +kernel

/-- R176: LSH-256-256 of "abc". -/
theorem test_digest_lsh256 :
    hashOf 6 256 abc = some 0x5fbf365daea5446a7053c52b57404d77a07a5f48a1f7c1963a0898ba1b714741 := by decide +kernel

/-- 95_test_vectors.md section 3.1: BLAKE-512 of the one byte 00. -/
theorem test_digest_blake512 :
    hashOf 1 512 (.update 8 [0x00]) =
      some (0x97961587f6d970faba6d2478045de6d1fabd09b61ae50932054d52bc29d31be4 * 2 ^ 256 +
        0xff9102b9f69e2bbdb83be13d4b9c06091e5fa0b48bd081b634058be0ec49beb3) := by decide +kernel

/-- R135: the final block of Groestl-256 for the 5-bit message 10101. -/
theorem test_groestl_final_block :
    (finalBlocks (paramsOf .groestl 256) { live 2 256 64 0 0 5 with buf := Vector.replicate 256 0xA8 }).map
      FinalBlock.block = [[0xAC] ++ zeros 55 ++ [0, 0, 0, 0, 0, 0, 0, 1]] := by decide +kernel

/-- R126: products in the two fields, from the S-box and the matrices' definitions: `{53} • {CA} = {01}`, and
`x^7 •' x` reduces to the low bits of 0x11D. -/
theorem test_field_products : groestlMul 0x53 0xCA = 0x01 ∧ whirlpoolMul 0x80 0x02 = 0x1D := by decide

/-! ## Witnesses: states and operands that meet the hypotheses of the statements -/

/-- Engine 0 of `withCtx`. -/
theorem engine_withCtx (c : Ctx) : (withCtx c).engines[(withCtx c).port]? = some (engineOf c) := rfl

theorem witness_EncodeThenDecode : (Instr.update 5 [0xA8]).wf = true ∧ (Instr.update 0 []).wf = true := by decide

/-- One record for each clause of R75, at the ends of its range. -/
theorem witness_IllegalCommands :
    State.reset.engines[State.reset.port]? = some Engine.reset ∧
      decodeCommand ⟨0x00000000, 0, []⟩ = .error (.reservedOpcode 0) ∧
      decodeCommand ⟨0x07000000, 0, []⟩ = .error (.reservedOpcode 7) ∧
      decodeCommand ⟨0xFF000000, 0, []⟩ = .error (.reservedOpcode 0xFF) ∧
      decodeCommand ⟨0x02000001, 0, []⟩ = .error (.reservedBits 2) ∧
      decodeCommand ⟨0x03800000, 0, []⟩ = .error (.reservedBits 3) ∧
      decodeCommand ⟨0x04000001, 0, []⟩ = .error (.reservedBits 4) := ⟨rfl, by decide⟩

/-- A word that completes a command, words that complete an illegal record (a reserved opcode at both ends of its ranges,
a FINAL and a DROP with a reserved bit set), and one that completes none. -/
theorem witness_StepRunsTheDecodedInstruction :
    (withInput [.word 1 0x04000000]).engines[1]? = some Engine.reset ∧
      rxStep Engine.reset.rx 0x04000000 = (Rx.reset, some ⟨0x04000000, 0, []⟩) ∧
      decodeCommand ⟨0x04000000, 0, []⟩ = .ok .drop ∧
      (∀ q ∈ [((0x00000000 : Word), DecodeError.reservedOpcode 0), (0x07000000, .reservedOpcode 7),
          (0xFF000000, .reservedOpcode 0xFF), (0x03000001, .reservedBits 3), (0x04800000, .reservedBits 4)],
        rxStep Engine.reset.rx q.1 = (Rx.reset, some ⟨q.1, 0, []⟩) ∧
          decodeCommand ⟨q.1, 0, []⟩ = .error q.2) ∧
      rxStep Engine.reset.rx 0x02000000 = ({ Rx.reset with hdr := 0x02000000, phase := .lenLo }, none) :=
  ⟨rfl, by decide, by decide, by decide, by decide⟩

theorem witness_WireRunsEncodedCommand :
    (Instr.update 24 [0x61, 0x62, 0x63]).wf = true ∧
      (withInput ((encode (.update 24 [0x61, 0x62, 0x63])).map (HostEvent.word 1) ++ [.resetAll])).engines[1]? =
        some Engine.reset ∧
      Engine.reset.rx.phase = .hdr := ⟨by decide, rfl, rfl⟩

theorem witness_WireAndRecordFormsAgree :
    Rx.reset.phase = .hdr ∧
      ∀ c ∈ [Command.mk 0x02000001 5 [0xA8], ⟨0xFF000000, 0, []⟩], c.wf = true := by decide

/-- An illegal UPDATE with a payload word, and one with none. -/
theorem witness_IllegalUpdateConsumesItsPayload :
    (withInput ((0x02000001 :: 8 :: 0 :: [0x03000000]).map (HostEvent.word 0) ++ [])).engines[0]? =
        some Engine.reset ∧
      Engine.reset.rx.phase = .hdr ∧ (0x02000001 : Word).extractLsb' 24 8 = 2 ∧
      (0x02000001 : Word).extractLsb' 0 24 ≠ 0 ∧
      [(0x03000000 : Word)].length = (((8 : Word).toNat + 2 ^ 32 * (0 : Word).toNat + 7) / 8 + 3) / 4 ∧
      ([] : List Word).length = (((0 : Word).toNat + 2 ^ 32 * (0 : Word).toNat + 7) / 8 + 3) / 4 :=
  ⟨rfl, rfl, by decide, by decide, by decide, by decide⟩

/-- An UPDATE cut after its first word, and before its last. -/
theorem witness_IncompleteUpdateWaits :
    (withInput ([0x02000000, 24, 0].map (HostEvent.word 0))).engines[0]? = some Engine.reset ∧
      Engine.reset.rx.phase = .hdr ∧ (Command.mk 0x02000000 24 [0x61, 0x62, 0x63]).wf = true ∧
      opcField (Command.mk 0x02000000 24 [0x61, 0x62, 0x63]).hdr = 2 ∧
      [(0x02000000 : Word)] <+: (Command.mk 0x02000000 24 [0x61, 0x62, 0x63]).words ∧
      [(0x02000000 : Word), 24, 0] <+: (Command.mk 0x02000000 24 [0x61, 0x62, 0x63]).words ∧
      [(0x02000000 : Word), 24, 0] ≠ (Command.mk 0x02000000 24 [0x61, 0x62, 0x63]).words :=
  ⟨rfl, rfl, by decide, by decide, ⟨[24, 0, 0x00636261], by decide⟩, ⟨[0x00636261], by decide⟩, by decide⟩

theorem witness_ResetValues : Engine.reset ∈ (State.resetWith { Config.default with nEngines := 1 }).engines := by
  simp

theorem witness_ResetSignal :
    (withInput [.reset 1]).engines[1]? = some Engine.reset ∧ (withInput [.resetAll]).input = [.resetAll] :=
  ⟨rfl, rfl⟩

theorem witness_ResetAndDrop :
    (withCtx (live 2 256 64 3 7 5)).engines[(withCtx (live 2 256 64 3 7 5)).port]? =
        some (engineOf (live 2 256 64 3 7 5)) ∧
      rxStep Rx.reset 0x04000000 = (Rx.reset, some ⟨0x04000000, 0, []⟩) := ⟨rfl, by decide⟩

/-- Every family, at its largest digest, and Groestl at its smallest. -/
theorem witness_InitStartsFreshContext :
    State.reset.engines[State.reset.port]? = some Engine.reset ∧
      (∀ f ∈ Family.all, f ∈ State.reset.cfg.algSupported ∧
        legalDlen f (BitVec.ofNat 16 (maxDlen f)).toNat = true) ∧
      legalDlen .groestl (8 : BitVec 16).toNat = true := ⟨rfl, by decide, by decide⟩

/-- A code outside the registry, a supported code with length 0, and one with an illegal length. -/
theorem witness_InitErrors :
    State.reset.engines[State.reset.port]? = some Engine.reset ∧
      (∀ f ∈ State.reset.cfg.algSupported, (0x0A : BitVec 8) ≠ familyCode f) ∧
      (∀ f ∈ State.reset.cfg.algSupported, (0x00 : BitVec 8) ≠ familyCode f) ∧
      Family.blake ∈ State.reset.cfg.algSupported ∧ (1 : BitVec 8) = familyCode .blake ∧
      legalDlen .blake (160 : BitVec 16).toNat = false := ⟨rfl, by decide⟩

/-- Each of the four clauses, and both reasons of the last. -/
theorem witness_UpdateErrors :
    ([0x61] : Bytes).length = ((8 : BitVec 64).toNat + 7) / 8 ∧ Ctx.reset.state = .idle ∧
      ({ Ctx.reset with state := .finalized } : Ctx).state = .finalized ∧ (live 2 256 64 0 0 5).state = .tail ∧
      (live 1 256 64 0 0 0).state = .active ∧ variantOf 1 256 = some (paramsOf .blake 256) ∧
      ([0x30] : Bytes).length = ((4 : BitVec 64).toNat + 7) / 8 ∧ (4 : BitVec 64).toNat % 8 ≠ 0 ∧
      (paramsOf .blake 256).family ≠ .groestl ∧ variantOf 2 256 = some (paramsOf .groestl 256) ∧
      ({ Config.default with partialBitFamilies := .none } : Config).partialBitFamilies = .none := by decide

/-- BLAKE-256 one byte below its limit 2^64: 8 bits more are too many; and the state before, where they fit. -/
theorem witness_UpdateLengthLimit :
    (withCtx (live 1 256 64 (2 ^ 55 - 1) 63 0)).engines[(0 : Nat)]? =
        some (engineOf (live 1 256 64 (2 ^ 55 - 1) 63 0)) ∧
      ([0x61] : Bytes).length = ((8 : BitVec 64).toNat + 7) / 8 ∧
      (live 1 256 64 (2 ^ 55 - 1) 63 0).state = .active ∧
      variantOf (live 1 256 64 (2 ^ 55 - 1) 63 0).alg (live 1 256 64 (2 ^ 55 - 1) 63 0).dlen =
        some (paramsOf .blake 256) ∧
      (8 : BitVec 64).toNat % 8 = 0 ∧
      2 ^ 64 ≤ (live 1 256 64 (2 ^ 55 - 1) 63 0).msgBits.toNat + 8 ∧
      (live 1 256 64 (2 ^ 55 - 1) 62 0).msgBits.toNat + 8 < 2 ^ 64 :=
  ⟨rfl, rfl, rfl, rfl, rfl, by decide +kernel, by decide +kernel⟩

/-- Live contexts of Groestl-256: empty, one byte short of a block, and in TAIL after a whole block. -/
theorem live_groestl_empty : LiveCtx Config.default (live 2 256 64 0 0 0) (paramsOf .groestl 256) :=
  ⟨by decide, by decide, by decide, by decide, by decide, by decide⟩

theorem live_groestl_full : LiveCtx Config.default (live 2 256 64 1 63 0) (paramsOf .groestl 256) :=
  ⟨by decide, by decide, by decide, by decide, by decide, by decide⟩

theorem live_groestl_tail : LiveCtx Config.default (live 2 256 64 1 55 5) (paramsOf .groestl 256) :=
  ⟨by decide, by decide, by decide, by decide, by decide, by decide⟩

/-- A live context of every other family, at the threshold of R99 or at the end of its block. -/
theorem live_blake : LiveCtx Config.default (live 1 256 64 1 55 0) (paramsOf .blake 256) :=
  ⟨by decide, by decide, by decide, by decide, by decide, by decide⟩

theorem live_blake_two_blocks : LiveCtx Config.default (live 1 512 128 0 112 0) (paramsOf .blake 512) :=
  ⟨by decide, by decide, by decide, by decide, by decide, by decide⟩

theorem live_rmd320 : LiveCtx Config.default (live 3 320 64 0 56 0) (paramsOf .rmd320 320) :=
  ⟨by decide, by decide, by decide, by decide, by decide, by decide⟩

theorem live_whirlpool : LiveCtx Config.default (live 4 512 64 0 31 0) (paramsOf .whirlpool 512) :=
  ⟨by decide, by decide, by decide, by decide, by decide, by decide⟩

theorem live_jh : LiveCtx Config.default (live 5 384 64 2 1 0) (paramsOf .jh 384) :=
  ⟨by decide, by decide, by decide, by decide, by decide, by decide⟩

theorem live_lsh256 : LiveCtx Config.default (live 6 224 128 0 127 0) (paramsOf .lsh256 224) :=
  ⟨by decide, by decide, by decide, by decide, by decide, by decide⟩

theorem live_lsh512 : LiveCtx Config.default (live 7 512 256 1 255 0) (paramsOf .lsh512 512) :=
  ⟨by decide, by decide, by decide, by decide, by decide, by decide⟩

theorem live_crc32 : LiveCtx Config.default (live 8 32 1 9 0 0) (paramsOf .crc32 32) :=
  ⟨by decide, by decide, by decide, by decide, by decide, by decide⟩

theorem live_cksum : LiveCtx Config.default (live 9 32 1 0 0 0) (paramsOf .cksum 32) :=
  ⟨by decide, by decide, by decide, by decide, by decide, by decide⟩

/-- A whole byte that fills a block, and a partial byte after it. -/
theorem witness_UpdateAbsorbsBlockwise :
    (withCtx (live 2 256 64 1 63 0)).engines[(0 : Nat)]? = some (engineOf (live 2 256 64 1 63 0)) ∧
      ([0x61, 0xE0] : Bytes).length = ((11 : BitVec 64).toNat + 7) / 8 ∧
      (live 2 256 64 1 63 0).state = .active ∧ (live 2 256 64 1 63 0).partialBits = 0 ∧
      LiveCtx Config.default (live 2 256 64 1 63 0) (paramsOf .groestl 256) ∧ (11 : BitVec 64).toNat % 8 ≠ 0 ∧
      acceptsPartial Config.default (paramsOf .groestl 256).family = true ∧
      withinLimit (paramsOf .groestl 256) ((live 2 256 64 1 63 0).msgBits.toNat + 11) = true :=
  ⟨rfl, by decide, by decide, by decide, live_groestl_full, by decide, by decide, by decide⟩

theorem witness_EmptyUpdateChangesNothing :
    (withCtx (live 2 256 64 1 63 0)).engines[(0 : Nat)]? = some (engineOf (live 2 256 64 1 63 0)) ∧
      (live 2 256 64 1 63 0).state = .active ∧
      LiveCtx (withCtx (live 2 256 64 1 63 0)).cfg (live 2 256 64 1 63 0) (paramsOf .groestl 256) :=
  ⟨rfl, by decide, live_groestl_full⟩

theorem witness_UpdateIgnoresLowBits :
    ([0xA8] : Bytes).length = ([0xAF] : Bytes).length ∧ ([0xA8] : Bytes) ≠ [0xAF] ∧
      (∀ i, i < (5 : BitVec 64).toNat / 8 → ([0xA8] : Bytes)[i]? = ([0xAF] : Bytes)[i]?) ∧
      ∀ j < 8, 8 - (5 : BitVec 64).toNat % 8 ≤ j → (0xA8 : Byte).getLsbD j = (0xAF : Byte).getLsbD j :=
  ⟨rfl, by decide, fun i hi => by simp at hi, by decide⟩

/-- ACTIVE and TAIL. -/
theorem witness_FinalEmitsDigest :
    (live 1 256 64 1 55 0).state = .active ∧ (live 2 256 64 1 55 5).state = .tail ∧
      variantOf (live 1 256 64 1 55 0).alg (live 1 256 64 1 55 0).dlen = some (paramsOf .blake 256) ∧
      variantOf (live 2 256 64 1 55 5).alg (live 2 256 64 1 55 5).dlen = some (paramsOf .groestl 256) := by decide

theorem witness_FinalErrors :
    (engineOf Ctx.reset).ctx.state = .idle ∧
      (engineOf { Ctx.reset with state := .finalized }).ctx.state = .finalized := by decide

theorem witness_DigestLength :
    (live 2 8 64 0 0 1).state = .tail ∧
      variantOf (live 2 8 64 0 0 1).alg (live 2 8 64 0 0 1).dlen = some (paramsOf .groestl 8) ∧
      (paramsOf .groestl 8).family ∈ Config.default.algSupported := by decide

theorem witness_FinalBlockCount :
    (∃ c, LiveCtx Config.default c (paramsOf .blake 256) ∧ c.bufLen.toNat = 55) ∧
      (∃ c, LiveCtx Config.default c (paramsOf .blake 512) ∧ c.bufLen.toNat = 112) ∧
      (∃ c, LiveCtx Config.default c (paramsOf .rmd320 320) ∧ c.bufLen.toNat = 56) ∧
      (∃ c, LiveCtx Config.default c (paramsOf .whirlpool 512) ∧ c.bufLen.toNat = 31) ∧
      (∃ c, LiveCtx Config.default c (paramsOf .groestl 256) ∧ c.bufLen.toNat = 55 ∧ c.partialBits = 5) ∧
      (∃ c, LiveCtx Config.default c (paramsOf .jh 384) ∧ c.bufLen.toNat = 1) ∧
      (∃ c, LiveCtx Config.default c (paramsOf .lsh512 512) ∧ c.bufLen.toNat = 255) ∧
      ∃ c, LiveCtx Config.default c (paramsOf .cksum 32) :=
  ⟨⟨_, live_blake, by decide⟩, ⟨_, live_blake_two_blocks, by decide⟩, ⟨_, live_rmd320, by decide⟩,
    ⟨_, live_whirlpool, by decide⟩, ⟨_, live_groestl_tail, by decide, by decide⟩, ⟨_, live_jh, by decide⟩,
    ⟨_, live_lsh512, by decide⟩, ⟨_, live_cksum⟩⟩

theorem witness_MerkleDamgardPadding :
    (∃ c, LiveCtx Config.default c (paramsOf .rmd320 320) ∧ (paramsOf .rmd320 320).family = .rmd320) ∧
      ∃ c, LiveCtx Config.default c (paramsOf .whirlpool 512) ∧ (paramsOf .whirlpool 512).family = .whirlpool :=
  ⟨⟨_, live_rmd320, rfl⟩, ⟨_, live_whirlpool, rfl⟩⟩

/-- A context in TAIL whose partial byte shares the last block with the length field, and one byte more. -/
theorem witness_GroestlLengthField :
    (LiveCtx Config.default (live 2 256 64 1 55 5) (paramsOf .groestl 256) ∧
      (live 2 256 64 1 55 5).bufLen.toNat = 64 - 9 ∧ (live 2 256 64 1 55 5).state = .tail) ∧
      (LiveCtx Config.default (live 2 256 64 1 56 3) (paramsOf .groestl 256) ∧
        (live 2 256 64 1 56 3).bufLen.toNat = 64 - 8) ∧
      (paramsOf .groestl 256).family = .groestl :=
  ⟨⟨live_groestl_tail, by decide, by decide⟩,
    ⟨⟨by decide, by decide, by decide, by decide, by decide, by decide⟩, by decide⟩, rfl⟩

/-- Each of the three clauses at its boundary: k = 0 and k = B - L - 2, k = B - L - 1, k = B - L. -/
theorem witness_BlakeFinalization :
    (∃ c, LiveCtx Config.default c (paramsOf .blake 256) ∧ c.bufLen.toNat = 0) ∧
      (∃ c, LiveCtx Config.default c (paramsOf .blake 256) ∧ c.bufLen.toNat = 64 - 8 - 2) ∧
      (∃ c, LiveCtx Config.default c (paramsOf .blake 256) ∧ c.bufLen.toNat = 64 - 8 - 1) ∧
      (∃ c, LiveCtx Config.default c (paramsOf .blake 512) ∧ c.bufLen.toNat = 128 - 16) ∧
      (paramsOf .blake 256).family = .blake ∧ (paramsOf .blake 512).family = .blake :=
  ⟨⟨live 1 256 64 1 0 0, ⟨by decide, by decide, by decide, by decide, by decide, by decide⟩, by decide⟩,
    ⟨live 1 256 64 1 54 0, ⟨by decide, by decide, by decide, by decide, by decide, by decide⟩, by decide⟩,
    ⟨_, live_blake, by decide⟩, ⟨_, live_blake_two_blocks, by decide⟩, rfl, rfl⟩

theorem witness_JhAndLshPadding :
    (∃ c, LiveCtx Config.default c (paramsOf .jh 384) ∧ (paramsOf .jh 384).family = .jh) ∧
      (∃ c, LiveCtx Config.default c (paramsOf .lsh256 224) ∧ (paramsOf .lsh256 224).family = .lsh256) ∧
      ∃ c, LiveCtx Config.default c (paramsOf .lsh512 512) ∧ (paramsOf .lsh512 512).family = .lsh512 :=
  ⟨⟨_, live_jh, rfl⟩, ⟨_, live_lsh256, rfl⟩, ⟨_, live_lsh512, rfl⟩⟩

/-- A variant of each family, and Groestl and BLAKE on both sides of 256 bits. -/
theorem witness_TransformByFamily :
    variantOf 1 224 = some (paramsOf .blake 224) ∧ variantOf 1 384 = some (paramsOf .blake 384) ∧
      variantOf 2 256 = some (paramsOf .groestl 256) ∧ variantOf 2 264 = some (paramsOf .groestl 264) ∧
      variantOf 3 320 = some (paramsOf .rmd320 320) ∧ variantOf 4 512 = some (paramsOf .whirlpool 512) ∧
      variantOf 5 224 = some (paramsOf .jh 224) ∧ variantOf 6 224 = some (paramsOf .lsh256 224) ∧
      variantOf 7 384 = some (paramsOf .lsh512 384) ∧ variantOf 8 32 = some (paramsOf .crc32 32) ∧
      variantOf 9 32 = some (paramsOf .cksum 32) := by decide

theorem witness_OutputByFamily :
    variantOf 1 256 = some (paramsOf .blake 256) ∧ (256 : BitVec 16).toNat = 256 ∧
      variantOf 2 8 = some (paramsOf .groestl 8) ∧ (8 : BitVec 16).toNat ≤ 256 ∧
      variantOf 2 264 = some (paramsOf .groestl 264) ∧ 256 < (264 : BitVec 16).toNat ∧
      (List.replicate 8 (0 : BitVec 32)).length = 8 ∧ (List.replicate 128 (0 : Byte)).length = 128 := by decide +kernel

/-- Any engine that supports the codes, here one in TAIL that has answered before. -/
theorem witness_known_answers :
    let s := (withCtx (live 2 256 64 1 55 5)).setEngine 0
      { engineOf (live 2 256 64 1 55 5) with resp := [0x00000000] }
    s.engines[s.port]? = some { engineOf (live 2 256 64 1 55 5) with resp := [0x00000000] } ∧
      ∀ f ∈ [Family.blake, .groestl, .rmd320, .whirlpool, .jh, .lsh256, .lsh512, .crc32, .cksum],
        f ∈ s.cfg.algSupported := ⟨rfl, by decide⟩

theorem witness_DropClearsContext :
    State.reset.engines[State.reset.port]? = some Engine.reset ∧ CtxInv State.reset.cfg Engine.reset.ctx ∧
      Engine.reset.ctx.state = .idle := ⟨rfl, ctxInv_reset _ (.inl rfl), rfl⟩

/-- DLEN 0, and a length given. -/
theorem witness_QueriesAnswer :
    State.reset.engines[State.reset.port]? = some Engine.reset ∧ Family.groestl ∈ State.reset.cfg.algSupported ∧
      (2 : BitVec 8) = familyCode .groestl ∧ legalDlen .groestl (maxDlen .groestl) = true ∧
      (264 : BitVec 16) ≠ 0 ∧ legalDlen .groestl (264 : BitVec 16).toNat = true := ⟨rfl, by decide⟩

theorem witness_QueryErrors :
    State.reset.engines[State.reset.port]? = some Engine.reset ∧
      (∀ f ∈ State.reset.cfg.algSupported, (0xFF : BitVec 8) ≠ familyCode f) ∧
      Family.groestl ∈ State.reset.cfg.algSupported ∧ (2 : BitVec 8) = familyCode .groestl ∧
      (12 : BitVec 16) ≠ 0 ∧ legalDlen .groestl (12 : BitVec 16).toNat = false := ⟨rfl, by decide⟩

theorem witness_StorageBounds :
    variantOf 1 256 = some (paramsOf .blake 256) ∧ variantOf 2 8 = some (paramsOf .groestl 8) ∧
      variantOf 7 512 = some (paramsOf .lsh512 512) := by decide

/-- Two machines that differ in their other engine, their input and their port. -/
theorem witness_EnginesShareNothing :
    let s := withCtx (live 2 256 64 1 63 0)
    let t : State := { State.reset with
      engines := [engineOf (live 5 384 64 2 1 0), engineOf (live 2 256 64 1 63 0)]
      port := 1
      input := [.resetAll] }
    s.engines[s.port]? = some (engineOf (live 2 256 64 1 63 0)) ∧
      t.engines[t.port]? = some (engineOf (live 2 256 64 1 63 0)) ∧ s.cfg = t.cfg := ⟨rfl, rfl, rfl⟩

/-- A command that completes, with an error response and with OK. -/
theorem witness_EveryResponse :
    State.reset.engines[State.reset.port]? = some Engine.reset ∧
      exec .final State.reset = .next (State.reset.setEngine 0 { Engine.reset with resp := [0x00000006] }) ∧
      exec (.qdlen 1 0) State.reset = .next (State.reset.setEngine 0 { Engine.reset with resp := [0x00400000] }) :=
  ⟨rfl, rfl, rfl⟩

theorem witness_OnlyUpdateFaults :
    exec (.update 8 [0x61]) (withCtx (live 1 256 64 (2 ^ 55 - 1) 63 0)) = .fault .lengthLimit :=
  test_update_length_limit

/-- The machine after reset meets the invariant, and so it does with a context in TAIL. -/
theorem inv_tail : StateInv (withCtx (live 2 256 64 1 55 5)) := by
  have hc : CtxInv Config.default (live 2 256 64 1 55 5) :=
    ⟨fun h => by revert h; decide, fun _ => ⟨_, live_groestl_tail⟩, by decide, rfl⟩
  have hr : RxInv Rx.reset := ⟨fun h => absurd rfl h, fun h => (by cases h), rfl, Nat.zero_le _⟩
  refine ⟨rfl, by decide, fun e he => ?_, fun e he => ?_⟩ <;>
    · have he' : e ∈ [engineOf (live 2 256 64 1 55 5), Engine.reset] := he
      simp only [List.mem_cons, List.not_mem_nil, or_false] at he'
      rcases he' with rfl | rfl
      · first | exact hc | exact hr
      · first | exact ctxInv_reset _ (.inl rfl) | exact hr

theorem witness_EveryCommandCompletes :
    StateInv (withCtx (live 2 256 64 1 55 5)) ∧ (Instr.update 5 [0xA8]).wf = true := ⟨inv_tail, by decide⟩

/-- One command for each edge of R85. -/
theorem witness_LifecycleEdges :
    (∃ eng', exec (.init 2 256) State.reset = .next (State.reset.setEngine State.reset.port eng')) ∧
      (∃ eng', exec (.update 5 [0xA8]) (withCtx (live 2 256 64 0 0 0)) =
        .next ((withCtx (live 2 256 64 0 0 0)).setEngine (withCtx (live 2 256 64 0 0 0)).port eng')) ∧
      (∃ eng', exec .final (withCtx (live 2 256 64 1 55 5)) =
        .next ((withCtx (live 2 256 64 1 55 5)).setEngine (withCtx (live 2 256 64 1 55 5)).port eng')) ∧
      ∃ eng', exec .drop State.reset = .next (State.reset.setEngine State.reset.port eng') :=
  ⟨⟨_, rfl⟩, ⟨_, rfl⟩, ⟨_, rfl⟩, ⟨_, rfl⟩⟩

/-- The hypotheses of each of its three clauses. -/
theorem witness_Idempotency :
    State.reset.engines[State.reset.port]? = some Engine.reset ∧
      (engineOf (live 2 256 64 0 0 0)).ctx.state = .active ∧
      variantOf (live 2 256 64 0 0 0).alg (live 2 256 64 0 0 0).dlen = some (paramsOf .groestl 256) ∧
      (8 : BitVec 64).toNat % 8 = 0 ∧
      (∃ s', runInstrs [.update 8 [0x61], .update 8 [0x61]] (withCtx (live 2 256 64 0 0 0)) = .next s') ∧
      (∃ s', exec .final (withCtx (live 2 256 64 1 55 5)) = .next s') ∧ (live 2 256 64 1 55 5).state = .tail :=
  ⟨rfl, rfl, by decide, rfl, ⟨_, rfl⟩, ⟨_, rfl⟩, by decide⟩

/-- "a" and an empty chunk, then "bc" and the bits 111. -/
theorem witness_ChunkingIndependence :
    State.reset.engines[State.reset.port]? = some Engine.reset ∧ Family.groestl ∈ State.reset.cfg.algSupported ∧
      (2 : BitVec 8) = familyCode .groestl ∧ legalDlen .groestl (256 : BitVec 16).toNat = true ∧
      ([0x62, 0x63, 0xE0] : Bytes).length = ((19 : BitVec 64).toNat + 7) / 8 ∧
      acceptsPartial State.reset.cfg .groestl = true ∧
      (27 : BitVec 64).toNat = 8 * ([[0x61], []] : List Bytes).flatten.length + (19 : BitVec 64).toNat :=
  ⟨rfl, by decide⟩

/-- Two interleavings of the words of two engines. -/
theorem witness_InterleavingIndependence :
    let s := withInput [.word 0 0x01080020, .word 1 0x04000000, .word 0 0x03000000]
    let t := withInput [.word 1 0x05010000, .word 0 0x01080020, .word 0 0x03000000, .reset 1]
    s.cfg = t.cfg ∧ s.engines[(0 : Nat)]? = t.engines[(0 : Nat)]? ∧
      s.input.filter (concerns 0) = t.input.filter (concerns 0) ∧
      (∃ s', runSteps s.input.length s = .next s') ∧ ∃ t', runSteps t.input.length t = .next t' :=
  ⟨rfl, rfl, by decide, ⟨_, rfl⟩, ⟨_, rfl⟩⟩

theorem witness_InvAfterReset : 1 ≤ Config.default.nEngines := by decide

theorem witness_StepKeepsInv :
    let s : State := { withCtx (live 2 256 64 1 55 5) with input := [.word 0 0x03000000] }
    StateInv s ∧ ∃ s', step s = .next s' :=
  ⟨⟨inv_tail.engines_length, inv_tail.port_lt, inv_tail.ctx, inv_tail.rx⟩, ⟨_, rfl⟩⟩

end Sys2Proof.Tests
end

section
/-! PROOFS. The storage bounds of 00_scope.md. The laws of the registry give the bounds on blocks and digests and the
length of the IV; the two facts about the parameter records that they lack come first. -/

namespace Sys2Proof.Machine

/-- The chaining state of every variant fits SMAX (R14, R35). -/
theorem stateBytes_le (f : Family) (n : Nat) : (paramsOf f n).stateWords * (paramsOf f n).wordBits / 8 ≤ 128 := by
  cases f <;> simp only [paramsOf]
  case blake | groestl => split <;> simp
  all_goals decide

/-- A block has room for the length field and at least one byte more (R95). -/
theorem lengthBytes_lt_blockBytes (f : Family) (n : Nat) : (paramsOf f n).lengthBytes < (paramsOf f n).blockBytes := by
  rw [paramsOf_lengthBytes, paramsOf_blockBytes]
  cases f <;> dsimp only
  case blake | groestl => split <;> decide
  all_goals decide

/-- The chaining storage of a fresh context is the IV, and zeros up to SMAX (R96, log 6). -/
theorem toList_ofBytes_initialValue (f : Family) (n : Nat) :
    (Chain.ofBytes (initialValue (paramsOf f n))).toList = initialValue (paramsOf f n) ++
      List.replicate (128 - (paramsOf f n).stateWords * (paramsOf f n).wordBits / 8) 0 := by
  have hlen := length_initialValue f n
  rw [Chain.toList_ofBytes (hlen.trans_le (stateBytes_le f n)), hlen]

/-- Settles O34: a variant is the parameter record of a family at a legal length, and each bound holds of the record;
the digest bounds need the length to be legal. -/
theorem storageBounds : Obligations.StorageBounds := by
  intro alg dlen p hv
  obtain ⟨hblock, hblock'⟩ := blockBytes_bounds hv
  obtain ⟨hdlen, hmin, hmax, -⟩ := variantOf_dlen hv
  obtain ⟨f, -, -, rfl⟩ := variantOf_eq_some hv
  exact ⟨hblock, hblock', stateBytes_le f _, by omega, by omega, hdlen, lengthBytes_lt_blockBytes f _,
    length_initialValue f _, toList_ofBytes_initialValue f _⟩

end Sys2Proof.Machine
end

section
/-! PROOFS. The state of an engine (10_state.md): its values after reset, the isolation of the engines, and the
invariants of R36 and R37, which every host event keeps. -/

namespace Sys2Proof.Machine

/-! ## After reset (R41) -/

/-- The decoder of R41 meets R37. -/
theorem rxInv_reset : RxInv Rx.reset :=
  ⟨fun h => absurd rfl h, fun h => (by cases h), rfl, Nat.zero_le _⟩

/-- Settles O11: after power-up an engine of the list is `Engine.reset`, and each value is a field of it. -/
theorem resetValues : Obligations.ResetValues := by
  intro cfg
  refine ⟨List.length_replicate, fun eng he => ?_⟩
  obtain rfl : eng = Engine.reset := List.eq_of_mem_replicate he
  have hbuf : ∀ i : Fin 256, Ctx.reset.buf[i] = 0 := fun i => Vector.getElem_replicate i.isLt
  have hchain : ∀ i : Fin 128, Ctx.reset.chain[i] = 0 := fun i => Vector.getElem_replicate i.isLt
  exact ⟨rfl, rfl, rfl, rfl, rfl, rfl, hbuf, rfl, rfl, rfl, hchain, rfl, rfl, rfl, rfl, rfl⟩

/-- Settles O43: every engine is `Engine.reset`, whose context and decoder meet R36 and R37, and the port is 0, an
engine where there is one. -/
theorem invAfterReset : Obligations.InvAfterReset := by
  intro cfg hn
  refine ⟨List.length_replicate, hn, fun eng he => ?_, fun eng he => ?_⟩ <;>
    obtain rfl : eng = Engine.reset := List.eq_of_mem_replicate he
  · exact ctxInv_reset cfg (.inl rfl)
  · exact rxInv_reset

/-! ## Isolation (R24) -/

/-- Settles O35: a command is its outcome at its engine, `engineExec`, which sees the parameters and that engine only;
`liftEngine` puts the same outcome into both machines. -/
theorem enginesShareNothing : Obligations.EnginesShareNothing := by
  intro i s t eng hs ht hcfg
  rw [exec_eq hs, exec_eq ht, ← hcfg]
  cases engineExec s.cfg i eng with
  | next eng' => exact .inl ⟨eng', rfl, rfl⟩
  | fault r => exact .inr (.inl ⟨r, rfl, rfl⟩)
  | refused r => exact .inr (.inr ⟨r, rfl, rfl⟩)

/-! ## One host event at its engine -/

/-- A command leaves the decoder of its engine. -/
theorem engineExec_rx {cfg : Config} {i : Instr} {e e' : Engine} (h : engineExec cfg i e = .next e') :
    e'.rx = e.rx := by
  rcases engineExec_next_cases h with ⟨st, _, rfl⟩ | ⟨alg, dlen, p, _, _, _, rfl⟩ |
    ⟨b, pl, p, _, _, _, _, _, _, rfl⟩ | ⟨p, _, _, _, rfl⟩ | ⟨_, rfl⟩ | ⟨alg, dlen, v, _, rfl⟩ <;> rfl

/-- A host event keeps the invariants of R36 and R37 at an engine that takes part in it. -/
theorem engineEvent_inv {cfg : Config} {ev : HostEvent} {eng eng' : Engine} (hc : CtxInv cfg eng.ctx)
    (hr : RxInv eng.rx) (h : engineEvent cfg ev eng = .next eng') : CtxInv cfg eng'.ctx ∧ RxInv eng'.rx := by
  cases ev with
  | word e x =>
    have hr' := rxStep_inv hr x
    rw [engineEvent] at h
    split at h
    · next r hx =>
      rw [hx] at hr'
      cases h
      exact ⟨hc, hr'⟩
    · next r c hx =>
      rw [hx] at hr'
      split at h
      · exact ⟨engineExec_inv (e := { eng with rx := r }) hc h, by rw [engineExec_rx h]; exact hr'⟩
      · cases h
        exact ⟨hc, hr'⟩
  | reset e | resetAll =>
    cases h
    exact ⟨ctxInv_reset cfg (.inl rfl), rxInv_reset⟩

theorem liftEngine_eq_next_iff {s s' : State} {e : Nat} {o : Host.Outcome Engine Fault Refusal} :
    liftEngine s e o = .next s' ↔ ∃ eng, o = .next eng ∧ s' = s.setEngine e eng := by
  cases o <;> simp [eq_comm]

/-- The engine's outcome overwrites what the delivery of its record wrote; of the delivery the port remains. -/
theorem liftEngine_deliver (s : State) (e : Nat) (eng : Engine) (r : Rx) (o : Host.Outcome Engine Fault Refusal) :
    liftEngine (s.deliver e eng r) e o = liftEngine { s with port := e } e o := by
  cases o <;> simp [State.deliver, State.setEngine]

/-- A word on an existing engine's port is its outcome at that engine. The port becomes the engine's when the word
completes a record. -/
theorem acceptWord_eq {s : State} {e : Nat} {eng : Engine} (he : s.engines[e]? = some eng) (x : Word) :
    ∃ q, (q = s.port ∨ q = e) ∧
      acceptWord e x s = liftEngine { s with port := q } e (engineEvent s.cfg (.word e x) eng) := by
  rw [acceptWord, he, engineEvent]
  dsimp only
  rcases rxStep eng.rx x with ⟨r, _ | c⟩
  · exact ⟨s.port, .inl rfl, rfl⟩
  · refine ⟨e, .inr rfl, ?_⟩
    have hg : (s.deliver e eng r).engines[(s.deliver e eng r).port]? = some { eng with rx := r } :=
      State.setEngine_getElem_self he _
    dsimp only
    rw [← liftEngine_deliver s e eng r, execCommand]
    cases decodeCommand c with
    | ok i => exact exec_eq hg i
    | error err => exact execIllegal_eq hg

/-- All that a host event which is taken can have done: one engine changed as `engineEvent` says, the port left or made
that engine's, or every engine reset. -/
theorem takeEvent_next_cases {ev : HostEvent} {s s' : State} (h : takeEvent ev s = .next s') :
    (∃ e eng eng' q, s.engines[e]? = some eng ∧ engineEvent s.cfg ev eng = .next eng' ∧ (q = s.port ∨ q = e) ∧
      s' = { s with port := q }.setEngine e eng') ∨
    s' = resetAllEngines s := by
  cases ev with
  | word e x =>
    rw [takeEvent] at h
    cases he : s.engines[e]? with
    | none => rw [acceptWord, he] at h; cases h
    | some eng =>
      obtain ⟨q, hq, hw⟩ := acceptWord_eq he x
      obtain ⟨eng', hev, rfl⟩ := liftEngine_eq_next_iff.1 (hw.symm.trans h)
      exact .inl ⟨e, eng, eng', q, he, hev, hq, rfl⟩
  | reset e =>
    rw [takeEvent, resetEngine] at h
    cases he : s.engines[e]? with
    | none => rw [he] at h; cases h
    | some eng =>
      rw [he] at h
      cases h
      exact .inl ⟨e, eng, eng.applyReset, s.port, he, rfl, .inl rfl, rfl⟩
  | resetAll => cases h; exact .inr rfl

/-! ## The invariants of the machine (R36, R37) -/

/-- The reset signal on all engines brings each to values that meet the invariants. -/
theorem inv_resetAllEngines {s : State} (hi : StateInv s) : StateInv (resetAllEngines s) := by
  refine ⟨List.length_map _ |>.trans hi.engines_length, hi.port_lt, fun e he => ?_, fun e he => ?_⟩ <;>
    obtain ⟨eng, _, rfl⟩ := List.mem_map.1 he
  · exact ctxInv_reset s.cfg (.inl rfl)
  · exact rxInv_reset

/-- A host event that is taken keeps the invariants. -/
theorem inv_takeEvent {ev : HostEvent} {s s' : State} (hi : StateInv s) (h : takeEvent ev s = .next s') :
    StateInv s' := by
  rcases takeEvent_next_cases h with ⟨e, eng, eng', q, he, hev, hq, rfl⟩ | rfl
  · have hmem : eng ∈ s.engines := List.mem_of_getElem? he
    obtain ⟨hc, hr⟩ := engineEvent_inv (hi.ctx eng hmem) (hi.rx eng hmem) hev
    have hlt : e < s.cfg.nEngines := hi.engines_length ▸ (List.getElem?_eq_some_iff.1 he).1
    have hport : q < s.cfg.nEngines := by
      rcases hq with rfl | rfl
      · exact hi.port_lt
      · exact hlt
    exact inv_setEngine hi hc hr s.input hport
  · exact inv_resetAllEngines hi

/-- Settles O44: with no event pending nothing changes, and the oldest event keeps the invariants, which do not speak of
the events that wait. -/
theorem stepKeepsInv : Obligations.StepKeepsInv := by
  intro s s' hi h
  rw [step] at h
  cases hin : s.input with
  | nil => rw [hin] at h; cases h; exact hi
  | cons ev rest =>
    rw [hin] at h
    have hi' : StateInv { s with input := rest } := ⟨hi.engines_length, hi.port_lt, hi.ctx, hi.rx⟩
    exact inv_takeEvent hi' h

end Sys2Proof.Machine
end

section
/-! PROOFS. Memory and ordering (20_memory.md): the engines under any interleaving of the host's events (R56), the
payload bits an UPDATE reads (R48), and the commands that may be issued twice (R54). -/

namespace Sys2Proof.Machine

/-! ## Interleaving (R56) -/

/-- A run of n + 1 steps is a step and a run of n steps after it. -/
theorem runSteps_succ_next {n : Nat} {s s' : State} (h : runSteps (n + 1) s = .next s') :
    ∃ s1, step s = .next s1 ∧ runSteps n s1 = .next s' := by
  rw [runSteps_succ] at h
  cases hs : step s with
  | next s1 => rw [hs] at h; exact ⟨s1, rfl, h⟩
  | fault r => rw [hs] at h; cases h
  | refused r => rw [hs] at h; cases h

theorem engineEvents_cons {cfg : Config} {ev : HostEvent} {eng eng' : Engine}
    (h : engineEvent cfg ev eng = .next eng') (evs : List HostEvent) :
    engineEvents cfg (ev :: evs) eng = engineEvents cfg evs eng' := by
  rw [engineEvents, h]

/-- A run that takes all pending events makes no engine. -/
theorem runSteps_engine_none {e : Nat} {s s' : State} (h : runSteps s.input.length s = .next s')
    (he : s.engines[e]? = none) : s'.engines[e]? = none := by
  generalize hin : s.input = evs at h
  induction evs generalizing s with
  | nil => cases h; exact he
  | cons ev rest ih =>
    obtain ⟨s1, hstep, hrun⟩ := runSteps_succ_next h
    obtain ⟨-, hrest, -, -, hnone⟩ := step_concerns hin hstep e
    exact ih (hnone he) hrest hrun

/-- A run that takes all pending events leaves engine e as the events that concern it do, one after another. -/
theorem runSteps_engine_some {e : Nat} {s s' : State} {eng : Engine} (h : runSteps s.input.length s = .next s')
    (he : s.engines[e]? = some eng) :
    ∃ eng', engineEvents s.cfg (s.input.filter (concerns e)) eng = .next eng' ∧ s'.engines[e]? = some eng' := by
  generalize hin : s.input = evs at h ⊢
  induction evs generalizing s eng with
  | nil => cases h; exact ⟨eng, rfl, he⟩
  | cons ev rest ih =>
    obtain ⟨s1, hstep, hrun⟩ := runSteps_succ_next h
    obtain ⟨hcfg, hrest, hother, hown, -⟩ := step_concerns hin hstep e
    cases hc : concerns e ev with
    | false =>
      rw [List.filter_cons_of_neg (by simp [hc]), ← hcfg]
      exact ih ((hother hc).trans he) hrest hrun
    | true =>
      obtain ⟨eng1, hev, he1⟩ := hown hc eng he
      rw [List.filter_cons_of_pos hc, engineEvents_cons hev, ← hcfg]
      exact ih he1 hrest hrun

/-- Settles O42: engine e at the end of a run is a function of the parameters, of engine e at its start and of the
events that concern e, and the two runs agree on these. -/
theorem interleavingIndependence : Obligations.InterleavingIndependence := by
  intro s t s' t' e hcfg heng hev hs ht
  cases he : s.engines[e]? with
  | none => rw [runSteps_engine_none hs he, runSteps_engine_none ht (heng ▸ he)]
  | some eng =>
    obtain ⟨a, hsa, ha⟩ := runSteps_engine_some hs he
    obtain ⟨b, htb, hb⟩ := runSteps_engine_some ht (heng ▸ he)
    rw [← hcfg, ← hev, hsa] at htb
    rw [ha, hb, Host.Outcome.next.inj htb]

/-! ## The bits an UPDATE reads (R48, R67) -/

/-- The mask keeps the t most significant bits of a byte (R48). -/
theorem getLsbD_tailMask {t j : Nat} (hj : j < 8) : (tailMask t).getLsbD j = decide (8 - t ≤ j) := by
  have hones : (0xFF : Byte) = BitVec.allOnes 8 := rfl
  have hsub : j - (8 - t) < 8 := by omega
  rw [tailMask, hones, BitVec.getLsbD_shiftLeft, BitVec.getLsbD_allOnes, decide_eq_true hj,
    decide_eq_true hsub, Bool.true_and, Bool.and_true, ← decide_not]
  simp only [Nat.not_lt]

/-- Two bytes that agree on the t most significant bits agree under the mask. -/
theorem and_tailMask_congr {t : Nat} {a b : Byte} (h : ∀ j, 8 - t ≤ j → j < 8 → a.getLsbD j = b.getLsbD j) :
    a &&& tailMask t = b &&& tailMask t := by
  refine BitVec.eq_of_getLsbD_eq fun j hj => ?_
  rw [BitVec.getLsbD_and, BitVec.getLsbD_and, getLsbD_tailMask hj]
  by_cases hk : 8 - t ≤ j
  · rw [h j hk hj]
  · rw [decide_eq_false hk, Bool.and_false, Bool.and_false]

/-- The stored partial byte reads no more than the valid bits of the byte after the whole ones (R48, R87). -/
theorem partialByte_congr {b : BitVec 64} {pl pl' : Bytes} (hlen : pl.length = pl'.length)
    (h : ∀ x x' : Byte, pl[wholeBytes b]? = some x → pl'[wholeBytes b]? = some x' →
      ∀ j, 8 - tailBits b ≤ j → j < 8 → x.getLsbD j = x'.getLsbD j) :
    partialByte b pl = partialByte b pl' := by
  refine and_tailMask_congr ?_
  rw [payloadByte, payloadByte, List.getD_eq_getElem?_getD, List.getD_eq_getElem?_getD]
  by_cases hi : wholeBytes b < pl.length
  · have hi' : wholeBytes b < pl'.length := hlen ▸ hi
    rw [List.getElem?_eq_getElem hi, List.getElem?_eq_getElem hi']
    exact h _ _ (List.getElem?_eq_getElem hi) (List.getElem?_eq_getElem hi')
  · rw [List.getElem?_eq_none (by omega), List.getElem?_eq_none (by omega)]
    exact fun _ _ _ => rfl

theorem take_congr_getElem? {α : Type} {xs ys : List α} {n : Nat} (h : ∀ i, i < n → xs[i]? = ys[i]?) :
    xs.take n = ys.take n := by
  refine List.ext_getElem? fun i => ?_
  rw [List.getElem?_take, List.getElem?_take]
  split
  · next hi => exact h i hi
  · rfl

/-- An UPDATE reads its payload through its length, its whole bytes and its partial byte (R87). -/
theorem exec_update_congr {b : BitVec 64} {pl pl' : Bytes} (hlen : pl.length = pl'.length)
    (hwhole : pl.take (wholeBytes b) = pl'.take (wholeBytes b)) (hpartial : partialByte b pl = partialByte b pl')
    (s : State) : exec (.update b pl) s = exec (.update b pl') s := by
  have hctx : ∀ p c, updateCtx p b pl c = updateCtx p b pl' c := fun p c => by
    rw [updateCtx, updateCtx, hwhole, hpartial]
  have hengine : updateEngine s.cfg b pl = updateEngine s.cfg b pl' := by
    funext eng
    simp only [updateEngine, updateActive, hctx]
  rw [exec, exec, execUpdate, execUpdate, hlen, hengine]

/-- Settles O20: the two payloads have the same whole bytes and, under the mask, the same partial byte. -/
theorem updateIgnoresLowBits : Obligations.UpdateIgnoresLowBits := by
  intro s b pl pl' hlen hwhole hpartial
  exact exec_update_congr hlen (take_congr_getElem? hwhole) (partialByte_congr hlen hpartial) s

/-! ## Commands issued twice (R54) -/

/-- The command completes in every engine with one and the same word, and what it does to the context, done twice, is
what it does once. -/
def IdempotentAt (cfg : Config) (i : Instr) : Prop :=
  ∃ (g : Ctx → Ctx) (w : Word), (∀ c, g (g c) = g c) ∧
    ∀ e : Engine, engineExec cfg i e = .next { e with ctx := g e.ctx, resp := e.resp ++ [w] }

theorem idempotentAt_init (cfg : Config) (alg : BitVec 8) (dlen : BitVec 16) : IdempotentAt cfg (.init alg dlen) := by
  unfold IdempotentAt
  simp only [engineExec, initEngine]
  cases registryLookup cfg alg dlen with
  | error st => exact ⟨id, responseWord st 0, fun _ => rfl, fun _ => rfl⟩
  | ok p =>
    by_cases h0 : dlen = 0
    · simp only [if_pos h0]
      exact ⟨id, responseWord .badHashLength 0, fun _ => rfl, fun _ => rfl⟩
    · simp only [if_neg h0]
      exact ⟨freshCtx p alg dlen, responseWord .ok 0, fun c => freshCtx_indep p alg dlen _ c, fun _ => rfl⟩

theorem idempotentAt_drop (cfg : Config) : IdempotentAt cfg .drop :=
  ⟨fun _ => Ctx.reset, responseWord .ok 0, fun _ => rfl, fun _ => rfl⟩

/-- A query leaves the context, and its answer is the registry's (R90, R91). -/
theorem queryEngine_eq (cfg : Config) (alg : BitVec 8) (dlen : BitVec 16) (value : Params → Nat) :
    ∃ w, ∀ e : Engine, queryEngine cfg alg dlen value e = { e with resp := e.resp ++ [w] } := by
  simp only [queryEngine]
  cases registryLookup cfg alg dlen with
  | error st => exact ⟨responseWord st 0, fun _ => rfl⟩
  | ok p => exact ⟨responseWord .ok (BitVec.ofNat 16 (value p)), fun _ => rfl⟩

theorem idempotentAt_qdlen (cfg : Config) (alg : BitVec 8) (dlen : BitVec 16) :
    IdempotentAt cfg (.qdlen alg dlen) := by
  obtain ⟨w, hw⟩ := queryEngine_eq cfg alg dlen fun p => p.dlen / 8
  exact ⟨id, w, fun _ => rfl, fun e => congrArg Host.Outcome.next (hw e)⟩

theorem idempotentAt_qblk (cfg : Config) (alg : BitVec 8) (dlen : BitVec 16) :
    IdempotentAt cfg (.qblk alg dlen) := by
  obtain ⟨w, hw⟩ := queryEngine_eq cfg alg dlen fun p => p.blockBytes
  exact ⟨id, w, fun _ => rfl, fun e => congrArg Host.Outcome.next (hw e)⟩

/-- Issued twice, an idempotent command leaves the context of once, and gives its response twice. -/
theorem IdempotentAt.run_twice {s : State} {i : Instr} (h : IdempotentAt s.cfg i) {eng : Engine}
    (he : s.engines[s.port]? = some eng) :
    ∃ (c : Ctx) (w : Word),
      exec i s = .next (s.setEngine s.port { eng with ctx := c, resp := eng.resp ++ [w] }) ∧
      runInstrs [i, i] s = .next (s.setEngine s.port { eng with ctx := c, resp := eng.resp ++ [w] ++ [w] }) := by
  obtain ⟨g, w, hg, hi⟩ := h
  have hagain := hi { eng with ctx := g eng.ctx, resp := eng.resp ++ [w] }
  dsimp only at hagain
  rw [hg] at hagain
  exact ⟨g eng.ctx, w, runInstrs_idem he (hi eng) hagain⟩

/-- A command that completes, at its engine. -/
theorem exec_next {i : Instr} {s s' : State} {eng : Engine} (he : s.engines[s.port]? = some eng)
    (h : exec i s = .next s') : ∃ eng', engineExec s.cfg i eng = .next eng' ∧ s' = s.setEngine s.port eng' :=
  liftEngine_eq_next_iff.1 ((exec_eq he i).symm.trans h)

/-- An UPDATE of whole bytes that completes in ACTIVE absorbs its payload, counts its bits and answers OK (R87). -/
theorem engineExec_update_aligned {cfg : Config} {e e' : Engine} {p : Params} {b : BitVec 64} {pl : Bytes}
    (hs : e.ctx.state = .active) (hv : variantOf e.ctx.alg e.ctx.dlen = some p) (ht : tailBits b = 0)
    (h : engineExec cfg (.update b pl) e = .next e') :
    e' = { e with
      ctx := { absorb p e.ctx pl with msgBits := e.ctx.msgBits + b.setWidth 256 }
      resp := e.resp ++ [0x00000000] } := by
  rw [engineExec] at h
  split at h
  · cases h
  · next hl =>
    have hwhole : pl.length = wholeBytes b := by
      rw [tailBits] at ht
      rw [not_not.1 hl, payloadBytes, wholeBytes]
      omega
    rw [updateEngine_active hs hv, if_neg fun hp => hp.1 ht] at h
    split at h
    · cases h
    · cases h
      rw [updateCtx_aligned ht, ← hwhole, List.take_length]
      rfl

/-- Two such UPDATEs absorb the two payloads as one byte string (R54, R110). -/
theorem engineExec_update_twice {cfg : Config} {e e1 e2 : Engine} {p : Params} {b : BitVec 64} {pl : Bytes}
    (hs : e.ctx.state = .active) (hv : variantOf e.ctx.alg e.ctx.dlen = some p) (ht : tailBits b = 0)
    (h1 : engineExec cfg (.update b pl) e = .next e1) (h2 : engineExec cfg (.update b pl) e1 = .next e2) :
    e2 = { e with
      ctx := { absorb p e.ctx (pl ++ pl) with msgBits := e.ctx.msgBits + b.setWidth 256 + b.setWidth 256 }
      resp := e.resp ++ [0x00000000] ++ [0x00000000] } := by
  obtain ⟨hstate, halg, hdlen, -, -, -⟩ := absorb_frame p e.ctx pl
  cases engineExec_update_aligned hs hv ht h1
  have hv1 : variantOf (absorb p e.ctx pl).alg (absorb p e.ctx pl).dlen = some p := by rw [halg, hdlen, hv]
  rw [engineExec_update_aligned (hstate.trans hs) hv1 ht h2, absorb_msgBits, absorb_append]

theorem finalEngine_eq_finalLive {e : Engine} (hs : e.ctx.state = .active ∨ e.ctx.state = .tail) :
    finalEngine e = finalLive e := by
  rcases hs with hs | hs <;> rw [finalEngine, hs]

/-- A FINAL that completes in ACTIVE or TAIL consumes the context (R88). -/
theorem engineExec_final_state {cfg : Config} {e e' : Engine} (hs : e.ctx.state = .active ∨ e.ctx.state = .tail)
    (h : engineExec cfg .final e = .next e') : e'.ctx.state = .finalized := by
  rw [engineExec, finalEngine_eq_finalLive hs, finalLive] at h
  split at h
  · cases h
  · cases h; rfl

/-- FINAL on a finalized context (R88). -/
theorem engineExec_final_finalized {e : Engine} (h : e.ctx.state = .finalized) (cfg : Config) :
    engineExec cfg .final e = .next { e with resp := e.resp ++ [0x00000004] } := by
  rw [engineExec, finalEngine, h]
  rfl

/-- Settles O40: INIT, DROP and the queries are idempotent at their engine; the second UPDATE starts from the context
the first one left, still ACTIVE and of the same variant; the second FINAL meets the context the first one consumed. -/
theorem idempotency : Obligations.Idempotency := by
  refine ⟨fun i s eng he hi => ?_, fun s s' eng p b pl he hs hv ht h => ?_, fun s s' eng he h hs => ?_⟩
  · have hidem : IdempotentAt s.cfg i := by
      rcases hi with ⟨alg, dlen, rfl⟩ | rfl | ⟨alg, dlen, rfl⟩ | ⟨alg, dlen, rfl⟩
      · exact idempotentAt_init s.cfg alg dlen
      · exact idempotentAt_drop s.cfg
      · exact idempotentAt_qdlen s.cfg alg dlen
      · exact idempotentAt_qblk s.cfg alg dlen
    exact hidem.run_twice he
  · obtain ⟨s1, h1, h2⟩ := runInstrs_two h
    obtain ⟨e1, hx1, rfl⟩ := exec_next he h1
    obtain ⟨e2, hx2, rfl⟩ := exec_next (State.setEngine_getElem_self he e1) h2
    refine ⟨_, ?_, rfl⟩
    rw [State.setEngine_cfg] at hx2
    rw [State.setEngine_port, State.setEngine_setEngine, engineExec_update_twice hs hv ht hx1 hx2]
  · obtain ⟨e1, hx1, rfl⟩ := exec_next he h
    have he1 : (s.setEngine s.port e1).engines[(s.setEngine s.port e1).port]? = some e1 :=
      State.setEngine_getElem_self he e1
    refine ⟨e1, he1, ?_⟩
    rw [exec_eq he1, engineExec_final_finalized (engineExec_final_state hs hx1)]
    rfl

end Sys2Proof.Machine
end

section
/-! PROOFS. The encoding of commands (30_encoding.md): which words are which command (R64 to R68, R74), which records
are illegal (R75), and the wire, on which a record is sent word by word (R69, R70). -/

namespace Sys2Proof.Machine

/-! ## Decoding and encoding (R66, R68, R74) -/

/-- Settles O1: the words of the command are framed as its record, and the record decodes to the command. -/
theorem encodeThenDecode : Obligations.EncodeThenDecode := fun i rest h =>
  decodeWords_eq_ok.2 ⟨i.toCommand, frame_words i.toCommand rest (i.toCommand_wf h), decodeCommand_toCommand i⟩

/-- INIT, QDLEN and QBLK are decoded from their three fields side by side, and from nothing else. -/
theorem decodeWords_single_fields {i : Instr} {o alg : BitVec 8} {dlen : BitVec 16}
    (hi : i.toCommand = ⟨commandWord o alg dlen, 0, []⟩) (ho : o ≠ 2) (xs rest : List Word) :
    decodeWords xs = .ok (i, rest) ↔ xs = (o ++ alg ++ dlen : BitVec 32) :: rest := by
  rw [← commandWord_eq_append]
  exact decodeWords_single i _ hi (by rwa [opcField_commandWord]) xs rest

/-- Settles O2: each of the five is one word, the command word of its fields. -/
theorem oneWordCommandsDecode : Obligations.OneWordCommandsDecode := fun xs rest _ _ =>
  ⟨decodeWords_single_fields rfl (by decide) xs rest, decodeWords_single_fields rfl (by decide) xs rest,
    decodeWords_single_fields rfl (by decide) xs rest, decodeWords_single .final _ rfl (by decide) xs rest,
    decodeWords_single .drop _ rfl (by decide) xs rest⟩

theorem bitlenOf_eq_iff {lo hi : Word} {b : BitVec 64} :
    bitlenOf lo hi = b ↔ lo = b.extractLsb' 0 32 ∧ hi = b.extractLsb' 32 32 := by
  constructor
  · rintro rfl
    constructor <;> apply BitVec.eq_of_toNat_eq <;>
      simp only [bitlenOf, BitVec.extractLsb'_toNat, BitVec.toNat_ofNat, Nat.shiftRight_eq_div_pow] <;> omega
  · rintro ⟨rfl, rfl⟩
    exact bitlenOf_lo_hi b

/-- The payload that the wire reads from as many words as the bit length implies, byte by byte (R49, R66, R67). -/
theorem eq_take_unpackWords_iff {b : BitVec 64} {ps : List Word} (hl : ps.length = payloadWords b)
    (payload : Bytes) :
    payload = (unpackWords ps).take (payloadBytes b) ↔
      payload.length = payloadBytes b ∧
        ∀ (i : Nat) (x : Byte), payload[i]? = some x → x = (ps.getD (i / 4) 0).extractLsb' (8 * (i % 4)) 8 := by
  have hlen : ((unpackWords ps).take (payloadBytes b)).length = payloadBytes b := by
    rw [List.length_take, length_unpackWords, hl, payloadWords]
    omega
  have hbyte : ∀ i, i < payloadBytes b → ((unpackWords ps).take (payloadBytes b))[i]? =
      some ((ps.getD (i / 4) 0).extractLsb' (8 * (i % 4)) 8) := by
    intro i hi
    have hword : i / 4 < ps.length := by
      rw [hl, payloadWords]
      omega
    rw [List.getElem?_take_of_lt hi, getElem_unpackWords, List.getD_eq_getElem?_getD, List.getElem?_eq_getElem hword]
    rfl
  constructor
  · rintro rfl
    refine ⟨hlen, fun i x hx => ?_⟩
    have hi : i < payloadBytes b := hlen ▸ (List.getElem?_eq_some_iff.1 hx).1
    exact Option.some.inj (hx.symm.trans (hbyte i hi))
  · rintro ⟨hpl, h⟩
    refine List.ext_getElem? fun i => ?_
    by_cases hi : i < payloadBytes b
    · have hx := List.getElem?_eq_getElem (hpl.symm ▸ hi : i < payload.length)
      rw [hbyte i hi, hx, h i _ hx]
    · rw [List.getElem?_eq_none (by omega), List.getElem?_eq_none (by omega)]

/-- An UPDATE is decoded exactly from words that are framed as its record. -/
theorem decodeWords_update_iff {xs rest : List Word} {b : BitVec 64} {payload : Bytes} :
    decodeWords xs = .ok (.update b payload, rest) ↔ frame xs = .ok (⟨0x02000000#32, b, payload⟩, rest) := by
  rw [decodeWords_eq_ok]
  constructor
  · rintro ⟨⟨hdr, b', payload'⟩, hf, hd⟩
    obtain ⟨hhdr, hops⟩ := decodeCommand_ok hd
    obtain ⟨rfl, rfl⟩ := hops b payload rfl
    obtain rfl : hdr = 0x02000000#32 := hhdr
    exact hf
  · exact fun hf => ⟨_, hf, decodeCommand_toCommand (.update b payload)⟩

/-- An UPDATE's record is framed exactly from its header, the length words of its bit length and its payload words. -/
theorem frame_update_iff {hdr : Word} (ho : opcField hdr = 2) {xs rest : List Word} {b : BitVec 64}
    {payload : Bytes} :
    frame xs = .ok (⟨hdr, b, payload⟩, rest) ↔
      ∃ ps : List Word, ps.length = payloadWords b ∧
        xs = hdr :: b.extractLsb' 0 32 :: b.extractLsb' 32 32 :: (ps ++ rest) ∧
        payload = (unpackWords ps).take (payloadBytes b) := by
  constructor
  · intro hf
    obtain ⟨lo, hi, ps, rfl, hb, hl, hp⟩ := frame_ok_update hf ho
    obtain ⟨rfl, rfl⟩ := bitlenOf_eq_iff.1 hb.symm
    exact ⟨ps, hl, rfl, hp⟩
  · rintro ⟨ps, hl, rfl, rfl⟩
    have hb : bitlenOf (b.extractLsb' 0 32) (b.extractLsb' 32 32) = b := bitlenOf_lo_hi b
    have hn : ¬(ps ++ rest).length < payloadWords b := by
      rw [List.length_append]
      omega
    rw [frame_update ho, hb, if_neg hn, ← hl, List.take_left, List.drop_left]

/-- Settles O3: the framing fixes every word but the padding of the last, and the payload's bytes are those of its
words. -/
theorem updateDecodes : Obligations.UpdateDecodes := by
  intro xs rest b payload
  have hwords : payload.length = payloadBytes b → (payload.length + 3) / 4 = payloadWords b := fun h => by
    rw [h, payloadWords]
  rw [decodeWords_update_iff, frame_update_iff (by decide)]
  constructor
  · rintro ⟨ps, hl, hxs, hp⟩
    obtain ⟨hlen, hbytes⟩ := (eq_take_unpackWords_iff hl payload).1 hp
    exact ⟨hlen, ps, hl.trans (hwords hlen).symm, hxs, hbytes⟩
  · rintro ⟨hlen, ps, hl, hxs, hbytes⟩
    have hl' : ps.length = payloadWords b := hl.trans (hwords hlen)
    exact ⟨ps, hl', hxs, (eq_take_unpackWords_iff hl' payload).2 ⟨hlen, hbytes⟩⟩

/-! ## Illegal records (R75) -/

/-- A record is illegal exactly when its opcode is reserved, or is UPDATE's, FINAL's or DROP's with a reserved bit
set (R75). -/
theorem decodeCommand_error_iff {c : Command} :
    (∃ err, decodeCommand c = .error err) ↔
      (opcField c.hdr = 0 ∨ 7 ≤ (opcField c.hdr).toNat ∨
        ((opcField c.hdr = 2 ∨ opcField c.hdr = 3 ∨ opcField c.hdr = 4) ∧ reservedField c.hdr ≠ 0)) := by
  dsimp only [decodeCommand]
  split_ifs with h1 h2 hz h3 hz h4 hz h5 h6
  · exact iff_of_false (by simp) (by simp [h1])
  · exact iff_of_true ⟨_, rfl⟩ (.inr (.inr ⟨.inl h2, hz⟩))
  · exact iff_of_false (by simp) (by simp [h2, not_not.1 hz])
  · exact iff_of_true ⟨_, rfl⟩ (.inr (.inr ⟨.inr (.inl h3), hz⟩))
  · exact iff_of_false (by simp) (by simp [h3, not_not.1 hz])
  · exact iff_of_true ⟨_, rfl⟩ (.inr (.inr ⟨.inr (.inr h4), hz⟩))
  · exact iff_of_false (by simp) (by simp [h4, not_not.1 hz])
  · exact iff_of_false (by simp) (by simp [h5])
  · exact iff_of_false (by simp) (by simp [h6])
  · have hreserved : opcField c.hdr = 0 ∨ 7 ≤ (opcField c.hdr).toNat := by bv_omega
    exact iff_of_true ⟨_, rfl⟩ (hreserved.imp_right .inl)

/-- A record that decodes is executed as its command. -/
theorem execCommand_ok {c : Command} {i : Instr} (h : decodeCommand c = .ok i) (s : State) :
    execCommand c s = exec i s := by
  rw [execCommand, h]

/-- An illegal record is answered IllegalCommand by the engine of the port, and nothing else changes. -/
theorem execCommand_error {c : Command} (h : ∃ err, decodeCommand c = .error err) {s : State} {eng : Engine}
    (he : s.engines[s.port]? = some eng) :
    execCommand c s = .next (s.setEngine s.port { eng with resp := eng.resp ++ [0x00000007] }) := by
  obtain ⟨err, h⟩ := h
  rw [execCommand, h]
  exact execIllegal_eq he

/-- Settles O5: the decoder rejects the records of R75 and no other, and the machine answers what it rejects. -/
theorem illegalCommands : Obligations.IllegalCommands := fun _ =>
  ⟨decodeCommand_error_iff, fun _ _ _ hd he => execCommand_error ⟨_, hd⟩ he⟩

/-! ## The wire (R69, R70) -/

/-- An illegal record that engine e's decoder has just completed: the decoder moved on, and the answer. -/
theorem execCommand_error_deliver {c : Command} (h : ∃ err, decodeCommand c = .error err) {s : State} {e : Nat}
    {eng : Engine} (he : s.engines[e]? = some eng) (r : Rx) :
    execCommand c (s.deliver e eng r) =
      .next { s with
        engines := s.engines.set e { eng with rx := r, resp := eng.resp ++ [0x00000007] }
        port := e } := by
  have hg : (s.deliver e eng r).engines[(s.deliver e eng r).port]? = some { eng with rx := r } :=
    State.setEngine_getElem_self he _
  rw [execCommand_error h hg]
  simp only [State.setEngine, State.deliver, List.set_set]

/-- Settles O7: the last word completes the command's record, no earlier word completes one, and the record is
executed as the command. -/
theorem wireRunsEncodedCommand : Obligations.WireRunsEncodedCommand := by
  intro s e eng i rest hwf he hphase hin
  obtain ⟨ys, x, r0, r, hwords, hys, hx, hr⟩ := rxRun_words hphase (i.toCommand_wf hwf)
  refine ⟨r, hr, ?_⟩
  rw [encode, hwords] at hin ⊢
  rw [run_words_some he hin hys hx, execCommand_ok (decodeCommand_toCommand i)]
  rfl

/-- The words of well-formed records, one record after another, deliver those records and nothing else. -/
theorem rxRun_flatMap_words {cs : List Command} (hcs : ∀ c ∈ cs, c.wf = true) {r : Rx} (h : r.phase = .hdr) :
    ∃ r', r'.phase = .hdr ∧ rxRun r (cs.flatMap Command.words) = (r', cs) := by
  induction cs generalizing r with
  | nil => exact ⟨r, h, rfl⟩
  | cons c cs ih =>
    obtain ⟨hc, hcs⟩ := List.forall_mem_cons.1 hcs
    obtain ⟨r1, h1, hrun1⟩ := rxRun_words_run h hc
    obtain ⟨r2, h2, hrun2⟩ := ih hcs h1
    refine ⟨r2, h2, ?_⟩
    rw [List.flatMap_cons, rxRun_append, hrun1, hrun2]
    rfl

/-- A decoder at a command boundary, or with an UPDATE pending, delivers well-formed records only. -/
theorem rxRun_wf {r : Rx} (hr : r.phase ≠ .hdr → opcField r.hdr = 2) (xs : List Word) :
    ∀ c ∈ (rxRun r xs).2, c.wf = true := by
  induction xs generalizing r with
  | nil => exact fun c hc => absurd hc List.not_mem_nil
  | cons x xs ih =>
    intro c hc
    rw [rxRun_cons, List.mem_append, Option.mem_toList] at hc
    rcases hc with hc | hc
    · exact (rxStep_some hr (Prod.ext rfl hc)).1
    · exact ih (rxStep_pending hr x) c hc

/-- Settles O8: record after record in one direction, word after word in the other. -/
theorem wireAndRecordFormsAgree : Obligations.WireAndRecordFormsAgree := fun _ h =>
  ⟨fun _ hcs => rxRun_flatMap_words hcs h, rxRun_wf fun hne => absurd h hne⟩

/-- Settles O9: UPDATE's framing does not look at the reserved bits, so the last payload word completes the record,
which is illegal. -/
theorem illegalUpdateConsumesItsPayload : Obligations.IllegalUpdateConsumesItsPayload := by
  intro s e eng hdr lo hi ps rest he hphase hopc hres hl hin
  have hb : (bitlenOf lo hi).toNat = lo.toNat + 2 ^ 32 * hi.toNat := by
    rw [bitlenOf, BitVec.toNat_ofNat]
    omega
  obtain ⟨ys, x, r0, r, hwords, hys, hx, hr⟩ := rxRun_update hphase hopc lo hi ps
    (by rw [hl, payloadWords, payloadBytes, hb])
  refine ⟨r, hr, ?_⟩
  have hn : 3 + ps.length = (ys ++ [x]).length := by
    rw [← hwords]
    simp only [List.length_cons]
    omega
  rw [hn, run_words_some he (hwords ▸ hin) hys hx]
  refine execCommand_error_deliver (s := { s with input := rest }) ?_ he r
  exact decodeCommand_error_iff.2 (.inr (.inr ⟨.inl hopc, hres⟩))

/-- Settles O6: the decoder's answer to the word, none, a command's record or an illegal one, decides the step. -/
theorem stepRunsTheDecodedInstruction : Obligations.StepRunsTheDecodedInstruction := by
  intro s e x rest eng r he hin
  refine ⟨fun c i hx hd => ?_, fun c err hx hd => ?_, fun hx => step_word_none he hin hx, rfl⟩
  · rw [step_word_some he hin hx, execCommand_ok hd]
    rfl
  · rw [step_word_some he hin hx]
    exact execCommand_error_deliver (s := { s with input := rest }) ⟨err, hd⟩ he r

end Sys2Proof.Machine
end

section
/-! PROOFS. Responses (30_encoding.md R77 to R82, 60_exceptions.md R183 to R185): what any command answers, the answers
of the two queries (40_commands.md R90, R91), the registry they read (41_registry.md), and the worked encodings. -/

namespace Sys2Proof.Machine

/-! ## Every response (R77, R84, R183 to R185) -/

/-- A command that completes responds once. An error response leaves the context, and FINAL alone sends data. -/
theorem engineExec_respond {cfg : Config} {i : Instr} {e e' : Engine} (h : engineExec cfg i e = .next e') :
    ∃ (c : Ctx) (st : Status) (v : BitVec 16) (d : Bytes), e' = { e with ctx := c }.respond st v d ∧
      st ≠ .allocationFailure ∧ st ≠ .illegalCommand ∧ (st ≠ .ok → v = 0 ∧ d = [] ∧ c = e.ctx) ∧
      (d ≠ [] → i = .final) := by
  rcases engineExec_next_cases h with ⟨st, hst, rfl⟩ | ⟨alg, dlen, p, _, _, _, rfl⟩ |
    ⟨b, pl, p, _, _, _, _, _, _, rfl⟩ | ⟨p, hi, _, _, rfl⟩ | ⟨_, rfl⟩ | ⟨alg, dlen, v, _, rfl⟩
  case inl =>
    have hne : st ≠ .allocationFailure ∧ st ≠ .illegalCommand := by
      constructor <;> rintro rfl <;> simp at hst
    exact ⟨e.ctx, st, 0, [], rfl, hne.1, hne.2, fun _ => ⟨rfl, rfl, rfl⟩, fun hd => absurd rfl hd⟩
  case inr.inr.inr.inl => exact ⟨_, .ok, _, _, rfl, nofun, nofun, fun ho => absurd rfl ho, fun _ => hi⟩
  all_goals
    exact ⟨_, .ok, _, [], rfl, nofun, nofun, fun ho => absurd rfl ho, fun hd => absurd rfl hd⟩

/-- The codes of the statuses that a command can answer (R183, R185). -/
theorem statusCode_mem {st : Status} (ha : st ≠ .allocationFailure) (hi : st ≠ .illegalCommand) :
    statusCode st ∈ [0#8, 1#8, 2#8, 3#8, 4#8, 6#8] := by
  cases st with
  | allocationFailure => exact absurd rfl ha
  | illegalCommand => exact absurd rfl hi
  | ok | unsupportedAlgorithm | badHashLength | nonByteAlignedMidStream | alreadyFinalized | noContext => decide

/-- Settles O36: the response word's fields are the status and the value of the one response. -/
theorem everyResponse : Obligations.EveryResponse := by
  intro i s s' eng he h
  obtain ⟨eng', hx, rfl⟩ := exec_next he h
  obtain ⟨c, st, v, d, rfl, ha, hi, herr, hdata⟩ := engineExec_respond hx
  refine ⟨_, responseWord st v, packWords d, rfl, rfl, rfl, ?_⟩
  rw [responseWord_status, responseWord_reserved, responseWord_value]
  refine ⟨statusCode_mem ha hi, rfl, fun hne => ?_, fun hd => hdata fun h0 => hd (packWords_eq_nil.2 h0)⟩
  obtain ⟨rfl, rfl, rfl⟩ := herr fun h0 => hne (by rw [h0]; rfl)
  exact ⟨rfl, rfl, rfl⟩

/-! ## The queries (R73, R90, R91, R94) -/

/-- A query of a variant answers OK with its value, 16 bits up, and writes nothing else. -/
theorem queryEngine_ok {cfg : Config} {alg : BitVec 8} {dlen : BitVec 16} {p : Params}
    (h : registryLookup cfg alg dlen = .ok p) (value : Params → Nat) (e : Engine) :
    queryEngine cfg alg dlen value e =
      { e with resp := e.resp ++ [BitVec.ofNat 32 (2 ^ 16 * value p)] } := by
  rw [queryEngine, h, ← responseWord_ok]
  rfl

/-- A query that fails answers the lookup's status and writes nothing else. -/
theorem queryEngine_error {cfg : Config} {alg : BitVec 8} {dlen : BitVec 16} {st : Status}
    (h : registryLookup cfg alg dlen = .error st) (value : Params → Nat) (e : Engine) :
    queryEngine cfg alg dlen value e = { e with resp := e.resp ++ [responseWord st 0] } := by
  rw [queryEngine, h]
  rfl

/-- Settles O31: the lookup of a supported code at a legal length gives the variant's record, whose digest length and
block size the queries answer. -/
theorem queriesAnswer : Obligations.QueriesAnswer := by
  rintro s eng _ dlen f _ he hf rfl rfl hlegal
  have hp := registryLookup_supported hf dlen
  rw [if_pos hlegal] at hp
  rw [exec_eq he, exec_eq he, engineExec, engineExec, queryEngine_ok hp, queryEngine_ok hp, paramsOf_dlen]
  exact ⟨rfl, rfl⟩

/-- Either query, when its lookup fails. -/
theorem exec_query_error {s : State} {eng : Engine} (he : s.engines[s.port]? = some eng) {alg : BitVec 8}
    {dlen : BitVec 16} {i : Instr} (hi : i = .qdlen alg dlen ∨ i = .qblk alg dlen) {st : Status}
    (h : registryLookup s.cfg alg dlen = .error st) :
    exec i s = .next (s.setEngine s.port { eng with resp := eng.resp ++ [responseWord st 0] }) := by
  rw [exec_eq he]
  rcases hi with rfl | rfl <;> rw [engineExec, queryEngine_error h] <;> rfl

/-- Settles O32: the lookup fails with the one status or the other. -/
theorem queryErrors : Obligations.QueryErrors := by
  intro s eng alg dlen i he hi
  refine ⟨fun hunsupported => exec_query_error he hi (registryLookup_unsupported hunsupported dlen), ?_⟩
  rintro f hf rfl hdlen hillegal
  refine exec_query_error he hi (st := .badHashLength) ?_
  rw [registryLookup_supported hf, if_neg hdlen, if_neg (by rw [hillegal]; decide)]

/-! ## The registry (R71, R93, R95) -/

theorem familyOf_eq_some_iff {alg : BitVec 8} {f : Family} : familyOf alg = some f ↔ alg = familyCode f :=
  ⟨familyOf_eq_some, fun h => h ▸ familyOf_familyCode f⟩

/-- `Max(f)` is the largest legal length (R73, R93). -/
theorem le_maxDlen {f : Family} {n : Nat} (h : legalDlen f n = true) : n ≤ maxDlen f := by
  have hcases := legalDlen_cases h
  cases f <;> dsimp only [maxDlen] at hcases ⊢ <;> omega

/-- The numeric columns of R95. -/
theorem paramsOf_columns (f : Family) (n : Nat) :
    ((paramsOf f n).blockBytes, (paramsOf f n).wordBits, (paramsOf f n).stateWords, (paramsOf f n).lengthBytes) =
      match f with
      | .blake => if n ≤ 256 then (64, 32, 8, 8) else (128, 64, 8, 16)
      | .groestl => if n ≤ 256 then (64, 64, 8, 8) else (128, 64, 16, 8)
      | .rmd320 => (64, 32, 10, 8)
      | .whirlpool => (64, 64, 8, 32)
      | .jh => (64, 64, 16, 16)
      | .lsh256 => (128, 32, 16, 0)
      | .lsh512 => (256, 64, 16, 0)
      | .crc32 => (1, 32, 1, 0)
      | .cksum => (1, 32, 1, 0) := by
  cases f with
  | blake | groestl => dsimp only [paramsOf]; split <;> rfl
  | rmd320 | whirlpool | jh | lsh256 | lsh512 | crc32 | cksum => rfl

/-- Settles O33: the tables of the model, row by row. -/
theorem registryTables : Obligations.RegistryTables := by
  refine ⟨by decide, fun _ _ => familyOf_eq_some_iff, fun f hf n => ?_, fun n => ?_, fun n => ?_, fun n => ?_,
    fun n => ?_, fun f hf n => ?_, fun f _ => ⟨legalDlen_maxDlen f, fun _ => le_maxDlen⟩,
    fun f _ n _ => ⟨paramsOf_family f n, paramsOf_dlen f n, paramsOf_columns f n⟩⟩
  · fin_cases hf <;> simp [legalDlen, or_assoc]
  · simp only [legalDlen, Bool.and_eq_true, beq_iff_eq, decide_eq_true_eq, and_assoc, Nat.dvd_iff_mod_eq_zero]
  · exact beq_iff_eq
  · exact beq_iff_eq
  · simp [legalDlen]
  · fin_cases hf <;> exact beq_iff_eq

/-! ## The worked encodings (R82) -/

/-- Settles O4: the fixed words are computed; a 32-byte digest is 8 data words, and the queries answer as
`queriesAnswer` says. -/
theorem workedEncodings : Obligations.WorkedEncodings := by
  refine ⟨by decide, by decide, rfl, fun d hd => ?_, fun s eng he hf => ?_, fun s eng he hf => ?_, rfl, rfl, rfl⟩
  · exact ⟨packWords d, by rw [length_packWords, hd], rfl⟩
  · exact (queriesAnswer s eng 2 0 .groestl 512 he hf rfl rfl rfl).1
  · exact (queriesAnswer s eng 7 0 .lsh512 512 he hf rfl rfl rfl).2

end Sys2Proof.Machine
end

section
/-! PROOFS. The commands (40_commands.md): what INIT, UPDATE, FINAL and DROP do to the engine of the port and how each
fails (R84 to R89), the lifecycle (R85), and that every well-formed command completes (R191). -/

namespace Sys2Proof.Machine

/-! ## INIT (R86) -/

/-- Settles O14: `exec_init` gives the fresh context, and each value is a field of it. -/
theorem initStartsFreshContext : Obligations.InitStartsFreshContext := by
  rintro s eng _ dlen f he hf rfl hl
  exact ⟨_, exec_init he hf hl, rfl, rfl, rfl, rfl, rfl, rfl, rfl, rfl, rfl,
    fun i => Vector.getElem_replicate i.isLt⟩

/-- INIT answers the status with which its lookup fails. -/
theorem initEngine_error {cfg : Config} {alg : BitVec 8} {dlen : BitVec 16} {st : Status}
    (h : registryLookup cfg alg dlen = .error st) (e : Engine) : initEngine cfg alg dlen e = e.replyError st := by
  rw [initEngine, h]

/-- Length 0 names the largest digest to the lookup, and no digest to INIT (R86). -/
theorem initEngine_zero {cfg : Config} {f : Family} (hf : f ∈ cfg.algSupported) (e : Engine) :
    initEngine cfg (familyCode f) 0 e = e.replyError .badHashLength := by
  rw [initEngine, registryLookup_supported hf, if_pos rfl, if_pos (legalDlen_maxDlen f)]
  exact if_pos rfl

/-- INIT of a supported code at length 0 or at an illegal length. -/
theorem initEngine_badLength {cfg : Config} {f : Family} (hf : f ∈ cfg.algSupported) {dlen : BitVec 16}
    (h : dlen = 0 ∨ legalDlen f dlen.toNat = false) (e : Engine) :
    initEngine cfg (familyCode f) dlen e = e.replyError .badHashLength := by
  by_cases h0 : dlen = 0
  · rw [h0, initEngine_zero hf]
  · have hillegal : ¬legalDlen f dlen.toNat = true := by simp [h.resolve_left h0]
    exact initEngine_error (by rw [registryLookup_supported hf, if_neg h0, if_neg hillegal]) e

/-- Settles O15: either the lookup fails with the status, or INIT itself rejects length 0. -/
theorem initErrors : Obligations.InitErrors := by
  intro s eng alg dlen he
  constructor
  · intro hunsupported
    rw [exec_eq he, engineExec, initEngine_error (registryLookup_unsupported hunsupported dlen)]
    rfl
  · rintro f hf rfl hbad
    rw [exec_eq he, engineExec, initEngine_badLength hf hbad]
    rfl

/-! ## UPDATE: its errors and its length limit (R87, R98) -/

theorem acceptsPartial_eq_false {cfg : Config} {f : Family} (h : f ≠ .groestl ∨ cfg.partialBitFamilies = .none) :
    acceptsPartial cfg f = false := by
  by_contra hne
  obtain ⟨hf, hc⟩ := acceptsPartial_groestl (Bool.eq_true_of_not_eq_false hne)
  rcases h with h | h
  · exact h hf
  · rw [hc] at h; cases h

/-- Settles O16: the lifecycle answers before the operands are read, and in ACTIVE the partial byte is checked first. -/
theorem updateErrors : Obligations.UpdateErrors := by
  intro s eng b pl he hl
  rw [exec_update he hl]
  refine ⟨fun hs => ?_, fun hs => ?_, fun hs => ?_, fun p hs hv ht hf => ?_⟩
  · rw [updateEngine_idle hs]; rfl
  · rw [updateEngine_finalized hs]; rfl
  · rw [updateEngine_tail hs]; rfl
  · rw [updateEngine_active hs hv, if_pos ⟨ht, acceptsPartial_eq_false hf⟩]; rfl

/-- An UPDATE in ACTIVE whose bit count the family accepts: the length limit alone decides. -/
theorem exec_update_active {s : State} {eng : Engine} (he : s.engines[s.port]? = some eng)
    (hs : eng.ctx.state = .active) {p : Params} (hv : variantOf eng.ctx.alg eng.ctx.dlen = some p) {b : BitVec 64}
    {pl : Bytes} (hl : pl.length = payloadBytes b) (ht : tailBits b ≠ 0 → acceptsPartial s.cfg p.family = true) :
    exec (.update b pl) s =
      if withinLimit p (eng.ctx.msgBits.toNat + b.toNat) = true then
        .next (s.setEngine s.port
          { eng with ctx := updateCtx p b pl eng.ctx, resp := eng.resp ++ [0x00000000] })
      else .fault .lengthLimit := by
  have haccept : ¬(tailBits b ≠ 0 ∧ acceptsPartial s.cfg p.family = false) := fun ⟨h0, h1⟩ => by
    rw [ht h0] at h1; cases h1
  rw [exec_update he hl, updateEngine_active hs hv, if_neg haccept]
  cases withinLimit p (eng.ctx.msgBits.toNat + b.toNat) <;> rfl

/-- The least message length past the limit of a variant, in bits (R98). -/
def lengthLimit (p : Params) : Nat :=
  match p.family with
  | .blake => if p.dlen ≤ 256 then 2 ^ 64 else 2 ^ 128
  | .groestl => (if p.dlen ≤ 256 then 512 else 1024) * (2 ^ 64 - 1) - 64
  | .rmd320 => 2 ^ 64
  | .whirlpool => 2 ^ 256
  | .jh => 2 ^ 128
  | .lsh256 => 2 ^ 128
  | .lsh512 => 2 ^ 128
  | .crc32 => 2 ^ 64
  | .cksum => 2 ^ 64

/-- The limit of every variant is a bound on the length; Groestl's, on a number of blocks, is one on the length too. -/
theorem withinLimit_iff {alg : BitVec 8} {dlen : BitVec 16} {p : Params} (h : variantOf alg dlen = some p) (n : Nat) :
    withinLimit p n = true ↔ n < lengthLimit p := by
  obtain ⟨f, -, -, rfl⟩ := variantOf_eq_some h
  rw [withinLimit, lengthLimit, paramsOf_family, paramsOf_dlen]
  cases f with
  | groestl =>
    rw [decide_eq_true_iff, paramsOf_blockBytes]
    dsimp only
    split <;> omega
  | blake | rmd320 | whirlpool | jh | lsh256 | lsh512 | crc32 | cksum => exact decide_eq_true_iff

/-- Settles O17: the outcome is decided by `withinLimit`, which holds of exactly the lengths below the limit. -/
theorem updateLengthLimit : Obligations.UpdateLengthLimit := by
  intro s eng p b pl limit he hl hs hv ht hlimit
  obtain rfl : limit = lengthLimit p := hlimit
  have hlim := withinLimit_iff hv
  rw [exec_update_active he hs hv hl ht]
  by_cases hn : eng.ctx.msgBits.toNat + b.toNat < lengthLimit p
  · rw [if_pos ((hlim _).2 hn)]
    exact ⟨iff_of_false nofun (Nat.not_le.2 hn), iff_of_true ⟨_, rfl⟩ hn, hlim⟩
  · rw [if_neg (mt (hlim _).1 hn)]
    exact ⟨iff_of_true rfl (Nat.not_lt.1 hn), iff_of_false nofun hn, hlim⟩

/-! ## UPDATE: its effect (R87, R100 to R102) -/

/-- The stored partial byte follows the buffered bytes (R87). -/
theorem updateCtx_partial_getElem {p : Params} {b : BitVec 64} {pl : Bytes} {c : Ctx} (ht : tailBits b ≠ 0)
    (hlt : (updateCtx p b pl c).bufLen.toNat < 256) :
    (updateCtx p b pl c).buf.toList[(updateCtx p b pl c).bufLen.toNat]? = some (partialByte b pl) := by
  rw [updateCtx_partial ht] at hlt ⊢
  dsimp only at hlt ⊢
  rw [Vector.toList_setIfInBounds, List.getElem?_set_self (by rw [Vector.length_toList]; exact hlt)]

/-- Settles O18: `absorb_blockwise` for the bytes absorbed, `LiveCtx.update_counters` for the bit count, which does not
wrap, and the partial byte after the buffered ones. -/
theorem updateAbsorbsBlockwise : Obligations.UpdateAbsorbsBlockwise := by
  intro s eng p b pl he hl hs hp0 hlive ht hw
  obtain ⟨hB, hB'⟩ := blockBytes_bounds hlive.variant
  obtain ⟨hroom, hlen, -, hbufLen, hbits⟩ := hlive.update_counters hl hw
  obtain ⟨uchain, ucount, ulen, ualg, udlen, unullt, -⟩ := updateCtx_absorbed p b pl eng.ctx
  have hpartial := updateCtx_partialBits (p := p) (b := b) (pl := pl) hp0
  have hstate := updateCtx_state (p := p) (b := b) (pl := pl) hs
  have hm : (buffered eng.ctx ++ pl.take (wholeBytes b)).length = eng.ctx.bufLen.toNat + wholeBytes b := by
    rw [List.length_append, hlive.length_buffered, hlen]
  obtain ⟨hblocks, hrestLen, hrest⟩ := absorb_blockwise hB hB' (pl.take (wholeBytes b)) eng.ctx hlive.bufLen_lt
    (by rw [hm]; exact hroom)
  refine ⟨updateCtx p b pl eng.ctx, buffered eng.ctx ++ pl.take (wholeBytes b), ?_, rfl, ?_, ?_, ?_, hbits, ualg,
    udlen, unullt, fun h0 => ?_, fun h0 => ?_⟩
  · rw [exec_update_active he hs hlive.variant hl ht, if_pos hw]
  · rw [uchain, ucount]; exact hblocks
  · rw [ulen]; exact hrestLen
  · exact (updateCtx_buffered p b pl eng.ctx).trans hrest
  · exact ⟨hstate.trans (if_pos h0), BitVec.eq_of_toNat_eq (hpartial.trans h0)⟩
  · have hlt : (updateCtx p b pl eng.ctx).bufLen.toNat < 256 := by
      rw [hbufLen]
      exact (Nat.mod_lt _ hB).trans_le hB'
    exact ⟨hstate.trans (if_neg h0), hpartial, updateCtx_partial_getElem h0 hlt⟩

/-- The empty UPDATE absorbs no byte and counts no bit. -/
theorem updateCtx_empty (p : Params) (c : Ctx) : updateCtx p 0 [] c = c := by
  have hbits : c.msgBits + (0 : BitVec 64).setWidth 256 = c.msgBits := BitVec.add_zero _
  rw [updateCtx_aligned rfl, hbits]
  rfl

/-- Settles O19: the message stays as long as it is, within its limit. -/
theorem emptyUpdateChangesNothing : Obligations.EmptyUpdateChangesNothing := by
  intro s eng p he hs hlive
  have hw : withinLimit p (eng.ctx.msgBits.toNat + (0 : BitVec 64).toNat) = true := hlive.within
  rw [exec_update_active he hs hlive.variant rfl (fun h => absurd rfl h), if_pos hw, updateCtx_empty]

/-! ## FINAL and DROP (R88, R89) -/

/-- Settles O21: the zeroised context in FINALIZED, and the digest of the context before it. -/
theorem finalEmitsDigest : Obligations.FinalEmitsDigest := by
  intro s eng p he hs hv
  refine ⟨{ Ctx.reset with state := .finalized }, ?_, rfl, rfl, rfl, rfl, rfl, rfl, rfl, rfl,
    fun i => Vector.getElem_replicate i.isLt, fun i => Vector.getElem_replicate i.isLt⟩
  rw [exec_eq he, engineExec, finalEngine_live hs hv, ← responseWord_ok]
  rfl

theorem finalEngine_idle {e : Engine} (h : e.ctx.state = .idle) : finalEngine e = .next (e.replyError .noContext) := by
  rw [finalEngine, h]

theorem finalEngine_finalized {e : Engine} (h : e.ctx.state = .finalized) :
    finalEngine e = .next (e.replyError .alreadyFinalized) := by
  rw [finalEngine, h]

/-- Settles O22: the two states in which there is no context to finalize. -/
theorem finalErrors : Obligations.FinalErrors := by
  intro s eng he
  rw [exec_eq he, engineExec]
  refine ⟨fun hs => ?_, fun hs => ?_⟩
  · rw [finalEngine_idle hs]; rfl
  · rw [finalEngine_finalized hs]; rfl

/-- The context of an idle engine is the reset context (R36). -/
theorem CtxInv.eq_reset {cfg : Config} {c : Ctx} (h : CtxInv cfg c) (hs : c.state = .idle) : c = Ctx.reset := by
  rw [h.cleared (.inl hs), hs]
  rfl

/-- Settles O30: DROP zeroises whatever context there is; under R36 the idle context is zeroised already. -/
theorem dropClearsContext : Obligations.DropClearsContext := by
  intro s eng he
  have hdrop : exec .drop s = .next (s.setEngine s.port
      { eng with ctx := Ctx.reset, resp := eng.resp ++ [0x00000000] }) := by
    rw [exec_eq he]; rfl
  refine ⟨hdrop, fun hinv hs => ?_⟩
  rw [hdrop, ← hinv.eq_reset hs]

/-! ## Every command (R85, R191) -/

/-- Under the invariants a well-formed command is not refused: a live context has a variant. -/
theorem engineExec_not_refused {cfg : Config} {i : Instr} {e : Engine} (hinv : CtxInv cfg e.ctx) (hwf : i.wf = true)
    (r : Refusal) : engineExec cfg i e ≠ .refused r := by
  intro h
  rcases engineExec_refused h with hill | ⟨hs, hnone⟩
  · rw [hwf] at hill; cases hill
  · obtain ⟨p, hlive⟩ := hinv.live hs
    rw [hlive.variant] at hnone
    cases hnone

/-- Settles O38: the engine of the port exists, its outcome is no refusal, and a fault is an UPDATE past its limit. -/
theorem everyCommandCompletes : Obligations.EveryCommandCompletes := by
  intro i s hinv hwf
  have hport : s.port < s.engines.length := hinv.engines_length ▸ hinv.port_lt
  obtain ⟨eng, he⟩ : ∃ eng, s.engines[s.port]? = some eng := ⟨_, List.getElem?_eq_getElem hport⟩
  rw [exec_eq he]
  cases hx : engineExec s.cfg i eng with
  | next eng' => exact .inl ⟨_, rfl⟩
  | refused r => exact absurd hx (engineExec_not_refused (hinv.ctx eng (List.mem_of_getElem? he)) hwf r)
  | fault r =>
    cases r
    obtain ⟨b, pl, p, hi, hs, hv, -, hw⟩ := engineExec_fault hx
    exact .inr ⟨rfl, b, pl, eng, p, hi, he, hs, hv, hw⟩

/-- Settles O39: `engineExec_next_cases` lists what a command can do to the context; each effect is one edge. -/
theorem lifecycleEdges : Obligations.LifecycleEdges := by
  intro i s eng eng' he h
  obtain ⟨eng1, hx, hset⟩ := exec_next he h
  obtain rfl : eng' = eng1 := (State.setEngine_inj he).1 hset
  rcases engineExec_next_cases hx with ⟨st, -, rfl⟩ | ⟨alg, dlen, p, hi, -, -, rfl⟩ |
    ⟨b, pl, p, hi, -, hs, -, -, -, rfl⟩ | ⟨p, hi, hs, -, rfl⟩ | ⟨hi, rfl⟩ | ⟨alg, dlen, v, -, rfl⟩
  · exact .inl rfl
  · exact .inr (.inl ⟨⟨alg, dlen, hi⟩, rfl⟩)
  · exact .inr (.inr (.inl ⟨⟨b, pl, hi, updateCtx_state hs⟩, hs⟩))
  · exact .inr (.inr (.inr (.inl ⟨hi, hs, rfl⟩)))
  · exact .inr (.inr (.inr (.inr ⟨hi, rfl⟩)))
  · exact .inl rfl

end Sys2Proof.Machine
end

section
/-! PROOFS. Known answers: published digests of the cores, as INIT, UPDATE and FINAL emit them. The runs are those of
`run_hash` and `run_hash_empty`, whatever the state; what is computed is the response of FINAL, one lemma a variant. -/

namespace Sys2Proof.Machine

/-- What FINAL answers after INIT and one UPDATE: the response word and the digest (R79, R81, R88). -/
def hashResponse (f : Family) (dlen : BitVec 16) (b : BitVec 64) (pl : Bytes) : List Word :=
  responseWord .ok (BitVec.ofNat 16 (dlen.toNat / 8)) :: packWords (digest (paramsOf f dlen.toNat)
    (updateCtx (paramsOf f dlen.toNat) b pl (freshCtx (paramsOf f dlen.toNat) (familyCode f) dlen Ctx.reset)))

/-- What FINAL answers after INIT alone. -/
def emptyHashResponse (f : Family) (dlen : BitVec 16) : List Word :=
  responseWord .ok (BitVec.ofNat 16 (dlen.toNat / 8)) :: packWords (digest (paramsOf f dlen.toNat)
    (freshCtx (paramsOf f dlen.toNat) (familyCode f) dlen Ctx.reset))

/-- A message of whole bytes in one UPDATE, on any engine that supports the family, in any state. -/
theorem run_hash_of_response {s : State} {eng : Engine} (he : s.engines[s.port]? = some eng) {f : Family}
    (hf : f ∈ s.cfg.algSupported) {dlen : BitVec 16} (hd : legalDlen f dlen.toNat = true) {b : BitVec 64} {pl : Bytes}
    (hl : pl.length = payloadBytes b) (ht : tailBits b = 0) {ws : List Word} (hws : hashResponse f dlen b pl = ws) :
    runInstrs [.init (familyCode f) dlen, .update b pl, .final] s = .next (s.setEngine s.port
      { eng with
        ctx := { Ctx.reset with state := .finalized }
        resp := eng.resp ++ 0 :: 0 :: ws }) :=
  hws ▸ run_hash he hf hd hl (.inl ht)

/-- The empty message, on any engine that supports the family, in any state. -/
theorem run_hash_empty_of_response {s : State} {eng : Engine} (he : s.engines[s.port]? = some eng) {f : Family}
    (hf : f ∈ s.cfg.algSupported) {dlen : BitVec 16} (hd : legalDlen f dlen.toNat = true) {ws : List Word}
    (hws : emptyHashResponse f dlen = ws) :
    runInstrs [.init (familyCode f) dlen, .final] s = .next (s.setEngine s.port
      { eng with
        ctx := { Ctx.reset with state := .finalized }
        resp := eng.resp ++ 0 :: ws }) :=
  hws ▸ run_hash_empty he hf hd

/-- R124: BLAKE-256 of the byte 00. -/
theorem hashResponse_blake256 :
    hashResponse .blake 256 8 [0x00] = [0x00200000, 0xefd4e80c, 0x8dcdd74d, 0xd9dedf62, 0xa7b0edd4, 0x416aae74,
      0xda749a92, 0x8f9e1023, 0x879c1311] := by decide +kernel

/-- 95_test_vectors.md section 3.1: BLAKE-512 of the byte 00. -/
theorem hashResponse_blake512 :
    hashResponse .blake 512 8 [0x00] = [0x00400000, 0x87159697, 0xfa70d9f6, 0x78246dba, 0xd1e65d04, 0xb609bdfa,
      0x3209e51a, 0xbc524d05, 0xe41bd329, 0xb90291ff, 0xbd2b9ef6, 0x3de13bb8, 0x09069c4b, 0xb4a05f1e, 0xb681d08b,
      0xe08b0534, 0xb3be49ec] := by decide +kernel

/-- Settles O51: `run_hash` on the two variants, with their responses computed. -/
theorem blakeKnownAnswer : Obligations.BlakeKnownAnswer := fun _ _ he hf =>
  ⟨run_hash_of_response he hf (dlen := 256) (by decide) (by decide) (by decide) hashResponse_blake256,
    run_hash_of_response he hf (dlen := 512) (by decide) (by decide) (by decide) hashResponse_blake512⟩

/-- The one block of the empty message: the terminator, zeros, the number of blocks (R133). -/
def groestlEmptyBlock : Bytes := [0x80] ++ zeros 55 ++ encBE 1 8

/-- The chaining state of Groestl-256 after that block, as big-endian numbers of a column each. -/
def groestlEmptyState : Bytes :=
  bytesBE ([0x4a5be45c998b52fc, 0x53bee13a7d934897, 0xa708aa40a08d9ec9, 0xe8e3db4ae0104c2a,
    0x6eb05f5efd6dfa45, 0xab8ffea1501831f2, 0x9e0765a0eebdf286, 0x0d35f0c19a889019] : List (BitVec 64))

theorem groestlPerm_P_emptyBlock :
    groestlPerm false 8 (xorWords (groestlIV 256) groestlEmptyBlock) =
      bytesBE ([0xf7ec8dd949e170d8, 0x019b55c098a8ae48, 0x70fd9f3507060873, 0x3af2077394969d19,
        0x12dc0b05b20a6e5e, 0x2c386e436bea66a3, 0xf3d431192e11aa54, 0x054cef33046b5e14] : List (BitVec 64)) := by
  decide +kernel

theorem groestlPerm_Q_emptyBlock :
    groestlPerm true 8 groestlEmptyBlock =
      bytesBE ([0xbdb76985d06a2224, 0x5225b4fae53be6df, 0xd7f53575a78b96ba, 0xd211dc397486d133,
        0x7c6c545b4f67941b, 0x87b790e23bf25751, 0x6dd354b9c0ac58d2, 0x08791ff29ee3cf0d] : List (BitVec 64)) := by
  decide +kernel

theorem groestlF_emptyBlock : groestlF 8 (groestlIV 256) groestlEmptyBlock = groestlEmptyState := by
  rw [groestlF, groestlPerm_P_emptyBlock, groestlPerm_Q_emptyBlock]
  decide +kernel

/-- R135: the digest is the last 32 bytes of Ω. -/
theorem lastBytes_groestlOmega_emptyState :
    lastBytes 32 (groestlOmega 8 groestlEmptyState) =
      bytesBE ([0x1a52d11d550039be, 0x16107f9c58db9ebc, 0xc417f16f736adb25, 0x02567119f0083467] :
        List (BitVec 64)) := by
  decide +kernel

/-- A Groestl-256 context whose final block is one has the digest of that block's chaining state (R105, R108, R130). -/
theorem digest_groestl256_one_block {c : Ctx} {h m : Bytes} (hlen : h.length = 64) (hc : c.chain = Chain.ofBytes h)
    (hm : finalBlocks (paramsOf .groestl 256) c = [plainBlock m]) (hF : (groestlF 8 h m).length = 64) :
    digest (paramsOf .groestl 256) c = lastBytes 32 (groestlOmega 8 (groestlF 8 h m)) := by
  have hchain : (finalizeCtx (paramsOf .groestl 256) c).chain = Chain.ofBytes (groestlF 8 (c.chain.bytes 64) m) := by
    rw [finalizeCtx_chain, hm]
    rfl
  rw [hc, Chain.bytes_ofBytes hlen (by decide)] at hchain
  have hdigest : digest (paramsOf .groestl 256) c =
      lastBytes 32 (groestlOmega 8 ((finalizeCtx (paramsOf .groestl 256) c).chain.bytes 64)) := rfl
  rw [hdigest, hchain, Chain.bytes_ofBytes hF (by decide)]

/-- R135: Groestl-256 of the empty message. -/
theorem emptyHashResponse_groestl256 :
    emptyHashResponse .groestl 256 = [0x00200000, 0x1dd1521a, 0xbe390055, 0x9c7f1016, 0xbc9edb58, 0x6ff117c4,
      0x25db6a73, 0x19715602, 0x673408f0] := by
  have hm : finalBlocks (paramsOf .groestl 256) (freshCtx (paramsOf .groestl 256) 2 256 Ctx.reset) =
      [plainBlock groestlEmptyBlock] := by decide +kernel
  have hdigest := digest_groestl256_one_block (h := groestlIV 256) (length_groestlIV 256) rfl hm
    (by rw [groestlF_emptyBlock]; decide +kernel)
  rw [groestlF_emptyBlock, lastBytes_groestlOmega_emptyState] at hdigest
  have hresponse : emptyHashResponse .groestl 256 = responseWord .ok 32 ::
      packWords (digest (paramsOf .groestl 256) (freshCtx (paramsOf .groestl 256) 2 256 Ctx.reset)) := rfl
  rw [hresponse, hdigest]
  decide +kernel

/-- Settles O55: `run_hash_empty`, with the response computed. -/
theorem groestlKnownAnswer : Obligations.GroestlKnownAnswer := fun _ _ he hf =>
  run_hash_empty_of_response he hf (dlen := 256) (by decide) emptyHashResponse_groestl256

/-- R144: RMD-320 of "abc". -/
theorem hashResponse_rmd320 :
    hashResponse .rmd320 320 24 [0x61, 0x62, 0x63] = [0x00280000, 0xb3014cde, 0x30894f05, 0xae099da7, 0x30928e73,
      0x08175a1e, 0xc1fdef5b, 0x7116d1b8, 0x2ff8743e, 0x4cd642a9, 0x2d68c4db] := by decide +kernel

/-- Settles O56: `run_hash`, with the response computed. -/
theorem rmdKnownAnswer : Obligations.RmdKnownAnswer := fun _ _ he hf =>
  run_hash_of_response he hf (dlen := 320) (by decide) (by decide) (by decide) hashResponse_rmd320

/-- R155: Whirlpool of the empty message. -/
theorem emptyHashResponse_whirlpool :
    emptyHashResponse .whirlpool 512 = [0x00400000, 0xd761fa19, 0x66a42255, 0x9ce3449b, 0x26172e1d, 0x212330c5,
      0xf807d430, 0x96e0fe9a, 0xa7f79749, 0x69be833e, 0xeb8f288b, 0xe0e388cf, 0x57074f3c, 0xe56489ea, 0x37d9639b,
      0xcc38b108, 0xb36ea642] := by decide +kernel

/-- Settles O57: `run_hash_empty`, with the response computed. -/
theorem whirlpoolKnownAnswer : Obligations.WhirlpoolKnownAnswer := fun _ _ he hf =>
  run_hash_empty_of_response he hf (dlen := 512) (by decide) emptyHashResponse_whirlpool

/-- R167: JH-256 of the empty message. -/
theorem emptyHashResponse_jh256 :
    emptyHashResponse .jh 256 = [0x00200000, 0x1946e646, 0xa9b08bc1, 0x18875e2a, 0xf8ee475a, 0xb847a73c, 0x41e1c8fc,
      0x7e352129, 0x34f46d32] := by decide +kernel

/-- Settles O58: `run_hash_empty`, with the response computed. -/
theorem jhKnownAnswer : Obligations.JhKnownAnswer := fun _ _ he hf =>
  run_hash_empty_of_response he hf (dlen := 256) (by decide) emptyHashResponse_jh256

/-- R176: LSH-256-256 of "abc". -/
theorem hashResponse_lsh256 :
    hashResponse .lsh256 256 24 [0x61, 0x62, 0x63] = [0x00200000, 0x5d36bf5f, 0x6a44a5ae, 0x2bc55370, 0x774d4057,
      0x485f7aa0, 0x96c1f7a1, 0xba98083a, 0x4147711b] := by decide +kernel

/-- R176: LSH-512-512 of "abc". -/
theorem hashResponse_lsh512 :
    hashResponse .lsh512 512 24 [0x61, 0x62, 0x63] = [0x00400000, 0xfe3cd9a3, 0xac1adc60, 0xbed43bdd, 0x5398a6f0,
      0xc796a381, 0xd19f9dd4, 0x97567977, 0x085253c3, 0x2472c5b5, 0x8410f2be, 0xe98320d4, 0xebd84b5a, 0x8169e833,
      0x1c03652b, 0xa1198842, 0x6d59cee7] := by decide +kernel

/-- Settles O59: `run_hash` on the two variants, with their responses computed. -/
theorem lshKnownAnswer : Obligations.LshKnownAnswer := fun _ _ he hf hf' =>
  ⟨run_hash_of_response he hf (dlen := 256) (by decide) (by decide) (by decide) hashResponse_lsh256,
    run_hash_of_response he hf' (dlen := 512) (by decide) (by decide) (by decide) hashResponse_lsh512⟩

end Sys2Proof.Machine
end

section
/-! PROOFS. The registry's own claims (41_registry.md): how many blocks FINAL transforms (R99), and the initial values
(R96). The count and the block lengths are shown of the padding rules that Laws/Final.lean does not measure (BLAKE,
Groestl, JH, LSH), then of every family, then the thresholds are read off the parameter records. -/

namespace Sys2Proof.Machine

/-! ## Final blocks: their number and their lengths (R99, R105) -/

theorem blakeFinalBlocks_count {B L : Nat} {m : Bytes} (hL : L < B) (n N : Nat) :
    (blakeFinalBlocks B L n N m).length = if m.length ≤ B - L - 1 then 1 else 2 := by
  by_cases h : m.length ≤ B - L - 1
  · obtain ⟨x, -, hx⟩ := blakeFinalBlocks_one (n := n) (N := N) hL h
    rw [hx, if_pos h, List.length_singleton]
  · rw [blakeFinalBlocks_two hL (Nat.not_le.1 h), if_neg h]
    rfl

theorem blakeFinalBlocks_block_length {B L : Nat} {m : Bytes} (hL : L < B) (hm : m.length < B) (n N : Nat) :
    ∀ b ∈ blakeFinalBlocks B L n N m, b.1.length = B := by
  by_cases h : m.length ≤ B - L - 1
  · obtain ⟨x, hlen, hx⟩ := blakeFinalBlocks_one (n := n) (N := N) hL h
    rw [hx, List.forall_mem_singleton, List.length_append, hlen, length_encBE]
    omega
  · rw [blakeFinalBlocks_two hL (Nat.not_le.1 h), List.forall_mem_cons, List.forall_mem_singleton]
    simp only [List.length_append, List.length_singleton, length_zeros, length_encBE]
    omega

theorem groestlFinalBlocks_count (B count : Nat) (x : Bytes) :
    (groestlFinalBlocks B count x).length = if x.length ≤ B - 8 then 1 else 2 := by
  by_cases h : x.length ≤ B - 8
  · rw [groestlFinalBlocks_one h, if_pos h, List.length_singleton]
  · rw [groestlFinalBlocks_two (Nat.not_le.1 h), if_neg h]
    rfl

theorem groestlFinalBlocks_block_length {B : Nat} {x : Bytes} (hB : 8 < B) (hx : x.length ≤ B) (count : Nat) :
    ∀ b ∈ groestlFinalBlocks B count x, b.length = B := by
  by_cases h : x.length ≤ B - 8
  · rw [groestlFinalBlocks_one h, List.forall_mem_singleton]
    simp only [List.length_append, length_zeros, length_encBE]
    omega
  · rw [groestlFinalBlocks_two (Nat.not_le.1 h), List.forall_mem_cons, List.forall_mem_singleton]
    simp only [List.length_append, length_zeros, length_encBE]
    omega

theorem jhFinalBlocks_empty {m : Bytes} (h : m.length = 0) (N : Nat) :
    jhFinalBlocks N m = [[0x80] ++ zeros 47 ++ encBE N 16] := if_pos h

theorem jhFinalBlocks_nonempty {m : Bytes} (h : m.length ≠ 0) (N : Nat) :
    jhFinalBlocks N m = [m ++ [0x80] ++ zeros (63 - m.length), zeros 48 ++ encBE N 16] := if_neg h

theorem jhFinalBlocks_count (N : Nat) (m : Bytes) :
    (jhFinalBlocks N m).length = if m.length = 0 then 1 else 2 := by
  by_cases h : m.length = 0
  · rw [jhFinalBlocks_empty h, if_pos h, List.length_singleton]
  · rw [jhFinalBlocks_nonempty h, if_neg h]
    rfl

theorem jhFinalBlocks_block_length {m : Bytes} (hm : m.length < 64) (N : Nat) :
    ∀ b ∈ jhFinalBlocks N m, b.length = 64 := by
  by_cases h : m.length = 0
  · rw [jhFinalBlocks_empty h, List.forall_mem_singleton]
    simp only [List.length_append, List.length_singleton, length_zeros, length_encBE]
  · rw [jhFinalBlocks_nonempty h, List.forall_mem_cons, List.forall_mem_singleton]
    simp only [List.length_append, List.length_singleton, length_zeros, length_encBE, and_true]
    omega

theorem length_lshFinalBlock {B : Nat} {m : Bytes} (hm : m.length < B) : (lshFinalBlock B m).length = B := by
  rw [lshFinalBlock]
  simp only [List.length_append, List.length_singleton, length_zeros]
  omega

theorem LiveCtx.lengthBytes_lt {cfg : Config} {c : Ctx} {p : Params} (h : LiveCtx cfg c p) :
    p.lengthBytes < p.blockBytes := by
  rw [h.params.2]
  exact lengthBytes_lt_blockBytes _ _

theorem LiveCtx.lengthBytes_groestl {cfg : Config} {c : Ctx} {p : Params} (h : LiveCtx cfg c p)
    (hf : p.family = .groestl) : p.lengthBytes = 8 := by
  rw [h.params.2, hf, paramsOf_lengthBytes]

theorem LiveCtx.blockBytes_jh {cfg : Config} {c : Ctx} {p : Params} (h : LiveCtx cfg c p)
    (hf : p.family = .jh) : p.blockBytes = 64 := by
  rw [h.params.2, hf, paramsOf_blockBytes]

theorem LiveCtx.length_buffered_lt {cfg : Config} {c : Ctx} {p : Params} (h : LiveCtx cfg c p) :
    (buffered c).length < p.blockBytes := h.length_buffered.trans_lt h.bufLen_lt

/-- Each final block is one block long, in every family (R105). -/
theorem finalBlocks_block_length {cfg : Config} {c : Ctx} {p : Params} (h : LiveCtx cfg c p) :
    ∀ b ∈ finalBlocks p c, b.block.length = p.blockBytes := by
  have hm := h.length_buffered_lt
  have hL := h.lengthBytes_lt
  cases hf : p.family
  case blake =>
    rw [finalBlocks_blake hf, List.forall_mem_map]
    exact blakeFinalBlocks_block_length hL hm _ _
  case groestl =>
    rw [finalBlocks_groestl hf, List.forall_mem_map]
    exact groestlFinalBlocks_block_length (h.lengthBytes_groestl hf ▸ hL)
      ((length_groestlTerminated _ _ _).trans_le hm) _
  case rmd320 =>
    rw [finalBlocks_rmd320 hf, List.forall_mem_map]
    exact mdPad_block_length hm hL.le fun v => length_encLE v _
  case whirlpool =>
    rw [finalBlocks_whirlpool hf, List.forall_mem_map]
    exact mdPad_block_length hm hL.le fun v => length_encBE v _
  case jh =>
    rw [h.blockBytes_jh hf] at hm ⊢
    rw [finalBlocks_jh hf, List.forall_mem_map]
    exact jhFinalBlocks_block_length hm _
  case lsh256 =>
    rw [finalBlocks_lsh (.inl hf), List.forall_mem_singleton]
    exact length_lshFinalBlock hm
  case lsh512 =>
    rw [finalBlocks_lsh (.inr hf), List.forall_mem_singleton]
    exact length_lshFinalBlock hm
  case crc32 =>
    rw [finalBlocks_crc (.inl hf)]
    exact List.forall_mem_nil _
  case cksum =>
    rw [finalBlocks_crc (.inr hf)]
    exact List.forall_mem_nil _

/-- The number of final blocks of each family, from k bytes buffered, with the block B and the length field L of the
variant: two where a block has no room for the k bytes, the terminator and the length. JH takes two as soon as a byte
is buffered, LSH always one, the CRCs none. -/
def paddedBlockCount (f : Family) (B L k : Nat) : Nat :=
  match f with
  | .blake | .groestl | .rmd320 | .whirlpool => if k + 1 + L ≤ B then 1 else 2
  | .jh => if k = 0 then 1 else 2
  | .lsh256 | .lsh512 => 1
  | .crc32 | .cksum => 0

theorem length_finalBlocks {cfg : Config} {c : Ctx} {p : Params} (h : LiveCtx cfg c p) :
    (finalBlocks p c).length = paddedBlockCount p.family p.blockBytes p.lengthBytes c.bufLen.toNat := by
  have hL := h.lengthBytes_lt
  rw [← h.length_buffered]
  cases hf : p.family
  case blake =>
    rw [finalBlocks_blake hf, List.length_map, blakeFinalBlocks_count hL]
    exact if_congr (by omega) rfl rfl
  case groestl =>
    rw [finalBlocks_groestl hf, List.length_map, groestlFinalBlocks_count, length_groestlTerminated,
      h.lengthBytes_groestl hf]
    exact if_congr (by omega) rfl rfl
  case rmd320 => rw [finalBlocks_rmd320 hf, List.length_map, mdPad_count]; rfl
  case whirlpool => rw [finalBlocks_whirlpool hf, List.length_map, mdPad_count]; rfl
  case jh => rw [finalBlocks_jh hf, List.length_map, jhFinalBlocks_count]; rfl
  case lsh256 => rw [finalBlocks_lsh (.inl hf)]; rfl
  case lsh512 => rw [finalBlocks_lsh (.inr hf)]; rfl
  case crc32 => rw [finalBlocks_crc (.inl hf)]; rfl
  case cksum => rw [finalBlocks_crc (.inr hf)]; rfl

/-- Settles O24: the lengths and the count are those of `finalBlocks_block_length` and `length_finalBlocks`; with the
block and length field of the family's parameter record, the count has the thresholds of R99. -/
theorem finalBlockCount : Obligations.FinalBlockCount := by
  intro cfg c p h
  refine ⟨finalBlocks_block_length h, ?_, finalizeCtx_blockCount p c, finalizeCtx_nullt p c⟩
  obtain ⟨-, hp⟩ := h.params
  have hB := (congrArg Params.blockBytes hp).trans (paramsOf_blockBytes _ _)
  have hL := (congrArg Params.lengthBytes hp).trans (paramsOf_lengthBytes _ _)
  rw [length_finalBlocks h, hB, hL]
  cases p.family <;> dsimp only [paddedBlockCount]
  case blake | groestl => split <;> exact if_congr (by omega) rfl rfl
  case rmd320 | whirlpool => exact if_congr (by omega) rfl rfl

/-! ## Initial values (R96) -/

/-- Groestl's IV: zeros, and n in its last 8 bytes (R131). -/
theorem initialValue_groestl (n : Nat) :
    initialValue (paramsOf .groestl n) = List.replicate (if n ≤ 256 then 56 else 120) 0 ++ encBE n 8 := by
  rw [initialValue, paramsOf_family, paramsOf_dlen]
  dsimp only
  rw [groestlIV, groestlColumns]
  by_cases h : n ≤ 256
  · rw [if_pos h, if_pos h]; rfl
  · rw [if_neg h, if_neg h]; rfl

/-! R164: each row of the table is F8 of a zero block, computed in a lemma of its own to bound the kernel's memory. -/

theorem jhIV_224 : jhIV 224 = jhF8 (jhBeforeIV 224) (zeros 64) := by decide +kernel

theorem jhIV_256 : jhIV 256 = jhF8 (jhBeforeIV 256) (zeros 64) := by decide +kernel

theorem jhIV_384 : jhIV 384 = jhF8 (jhBeforeIV 384) (zeros 64) := by decide +kernel

theorem jhIV_512 : jhIV 512 = jhF8 (jhBeforeIV 512) (zeros 64) := by decide +kernel

theorem jhIV_eq_jhF8 : ∀ n ∈ [224, 256, 384, 512], jhIV n = jhF8 (jhBeforeIV n) (zeros 64) := by
  simp only [List.forall_mem_cons]
  exact ⟨jhIV_224, jhIV_256, jhIV_384, jhIV_512, List.forall_mem_nil _⟩

/-- The table of R173 for LSH-256 holds the compression of a zero block from w, n, 0, ..., 0. -/
theorem lshIV32_eq_lshCF : ∀ n ∈ [224, 256], lshIV32 n = lshCF lsh32 (lshBeforeIV 32 n) (zeros 128) := by
  decide +kernel

/-- The table of R173 for LSH-512. -/
theorem lshIV64_eq_lshCF :
    ∀ n ∈ [224, 256, 384, 512], lshIV64 n = lshCF lsh64 (lshBeforeIV 64 n) (zeros 256) := by decide +kernel

/-- Settles O54: the tables stand in the registry as the spec prints them; Groestl's form is for every length, and the
derived forms of JH and LSH are computed once a variant. -/
theorem initialValues : Obligations.InitialValues := by
  refine ⟨rfl, rfl, rfl, rfl, fun n _ => initialValue_groestl n, rfl, rfl, rfl, rfl, rfl, rfl, fun n hn => ?_,
    fun n hn => ?_, fun n hn => ?_, rfl, rfl⟩
  · rw [initialValue, paramsOf_family, paramsOf_dlen]
    exact jhIV_eq_jhF8 n hn
  · rw [initialValue, paramsOf_family, paramsOf_dlen]
    exact congrArg bytesLE (lshIV32_eq_lshCF n hn)
  · rw [initialValue, paramsOf_family, paramsOf_dlen]
    exact congrArg bytesLE (lshIV64_eq_lshCF n hn)

end Sys2Proof.Machine
end

section
/-! PROOFS. The shared pipeline (42_pipeline.md): the length of the digest (R112), Merkle-Damgård padding (R107), any
cut of a message into chunks (R110), the core a block goes through (R104) and the bytes the output selects (R108). -/

namespace Sys2Proof.Machine

/-! ## The digest's length (R112) -/

/-- The digest's length in bytes fits the 16 bits of VALUE (R79). -/
theorem toNat_digestValue (dlen : BitVec 16) : (BitVec.ofNat 16 (dlen.toNat / 8)).toNat = dlen.toNat / 8 := by
  rw [BitVec.toNat_ofNat]
  exact Nat.mod_eq_of_lt (by have := dlen.isLt; omega)

/-- Settles O23: the digest is that of `finalEmitsDigest`, its length that of the variant, and QDLEN answers the same
length by `queriesAnswer`. -/
theorem digestLength : Obligations.DigestLength := by
  intro s eng p he hs hv hsupported
  obtain ⟨c, hfinal, -⟩ := finalEmitsDigest s eng p he hs hv
  obtain ⟨f, halg, hlegal, rfl⟩ := variantOf_eq_some hv
  rw [paramsOf_family] at hsupported
  have hquery := (queriesAnswer s eng _ _ f _ he hsupported halg (if_neg (ne_zero_of_legal hlegal)).symm hlegal).1
  rw [← responseWord_ok] at hfinal hquery
  have hlen := length_digest hv eng.ctx
  refine ⟨_, c, _, hlen, (toNat_digestValue _).trans hlen.symm, ?_, hfinal, hquery⟩
  obtain ⟨hdlen, -, -, hbytes⟩ := variantOf_dlen hv
  rw [length_packWords, hlen]
  omega

/-! ## Merkle-Damgård padding (R107) -/

/-- The final blocks of a live context whose family pads by `mdPad`, end to end: the length field holds the whole bit
count, which is below `2^(8L)`. -/
theorem LiveCtx.mdPad_blocks {cfg : Config} {c : Ctx} {p : Params} (h : LiveCtx cfg c p) {enc : Nat → Nat → Bytes}
    (hblocks : finalBlocks p c = (mdPad p.blockBytes p.lengthBytes c.msgBits.toNat enc (buffered c)).map plainBlock)
    (hN : c.msgBits.toNat < 2 ^ (8 * p.lengthBytes)) :
    ∃ z, z < p.blockBytes ∧ (c.bufLen.toNat + 1 + z + p.lengthBytes) % p.blockBytes = 0 ∧
      ((finalBlocks p c).map FinalBlock.block).flatten =
        buffered c ++ [0x80] ++ zeros z ++ enc c.msgBits.toNat p.lengthBytes := by
  rw [hblocks, map_plain_block, ← h.length_buffered]
  exact mdPad_flatten h.length_buffered_lt h.lengthBytes_lt hN

/-- Settles O25: the length limit of RMD-320 keeps the bit count below 2^64, and the bit counter is Whirlpool's length
field wide. -/
theorem merkleDamgardPadding : Obligations.MerkleDamgardPadding := by
  intro cfg c p h hf
  obtain ⟨-, hp⟩ := h.params
  have hL := (congrArg Params.lengthBytes hp).trans (paramsOf_lengthBytes _ _)
  rcases hf with hf | hf
  · have hL8 : p.lengthBytes = 8 := by rw [hL, hf]
    have hN : c.msgBits.toNat < 2 ^ 64 := by
      have := (withinLimit_iff h.variant _).1 h.within
      rwa [lengthLimit, hf] at this
    obtain ⟨z, hz, hmod, hflat⟩ := h.mdPad_blocks (finalBlocks_rmd320 hf c) (by rw [hL8]; exact hN)
    refine ⟨z, hz, hmod, ?_⟩
    rw [hflat, hL8, if_pos hf]
    rfl
  · have hL32 : p.lengthBytes = 32 := by rw [hL, hf]
    obtain ⟨z, hz, hmod, hflat⟩ :=
      h.mdPad_blocks (finalBlocks_whirlpool hf c) (by rw [hL32]; exact c.msgBits.isLt)
    refine ⟨z, hz, hmod, ?_⟩
    rw [hflat, hL32, if_neg (by rw [hf]; decide)]
    rfl

/-! ## Chunking (R110) -/

/-- INIT, UPDATEs of whole bytes, an UPDATE and FINAL: one OK for INIT and each UPDATE, and the digest that one UPDATE
of the whole message gives. -/
theorem run_chunked_hash {s : State} {eng : Engine} (he : s.engines[s.port]? = some eng) {f : Family}
    (hf : f ∈ s.cfg.algSupported) {dlen : BitVec 16} (hd : legalDlen f dlen.toNat = true) {p : Params}
    (hp : p = paramsOf f dlen.toNat) {b : BitVec 64} {pl : Bytes} (hl : pl.length = payloadBytes b)
    (ht : tailBits b = 0 ∨ acceptsPartial s.cfg f = true) (chunks : List Bytes) {total : BitVec 64}
    (htotal : total.toNat = 8 * chunks.flatten.length + b.toNat) :
    runInstrs (.init (familyCode f) dlen :: chunks.map updateBytes ++ [.update b pl, .final]) s =
      .next (s.setEngine s.port { eng with
        ctx := { Ctx.reset with state := .finalized }
        resp := eng.resp ++ List.replicate (chunks.length + 2) 0x00000000 ++
          responseWord .ok (BitVec.ofNat 16 (dlen.toNat / 8)) ::
            packWords (digest p (updateCtx p total (chunks.flatten ++ pl)
              (freshCtx p (familyCode f) dlen Ctx.reset))) }) := by
  subst hp
  have hv : variantOf (familyCode f) dlen = some (paramsOf f dlen.toNat) := by rw [variantOf_code, if_pos hd]
  have hN : 8 * chunks.flatten.length + b.toNat < 2 ^ 64 := htotal ▸ total.isLt
  obtain ⟨hstate, halg, hdlen, -⟩ := absorb_frame (paramsOf f dlen.toNat)
    (freshCtx (paramsOf f dlen.toNat) (familyCode f) dlen Ctx.reset) chunks.flatten
  have hbits : (0 + BitVec.ofNat 256 (8 * chunks.flatten.length)).toNat = 8 * chunks.flatten.length := by
    simp only [BitVec.ofNat_eq_ofNat, BitVec.zero_add, BitVec.toNat_ofNat]
    omega
  have hresp : eng.resp ++ [0x00000000] ++ List.replicate chunks.length 0x00000000 ++ [0x00000000] =
      eng.resp ++ List.replicate (chunks.length + 2) (0x00000000 : Word) := by
    rw [List.replicate_succ', List.replicate_succ, List.append_assoc, List.append_assoc]
    rfl
  rw [List.cons_append, runInstrs_next (exec_init he hf hd), run_chunks he _ chunks _ rfl hv
      (by change 0 + _ < _; omega),
    run_update_final he hstate (by dsimp only; rw [halg, hdlen]; exact hv) hl (by rwa [paramsOf_family])
      (by dsimp only; rw [freshCtx_msgBits, hbits]; exact hN),
    updateCtx_chunk _ _ _ _ _ _ htotal]
  dsimp only
  rw [hresp, hdlen]
  rfl

/-- Settles O41: one UPDATE of the whole message is the cut into no chunk before the last UPDATE, so both runs are
`run_chunked_hash`. -/
theorem chunkingIndependence : Obligations.ChunkingIndependence := by
  rintro s eng _ dlen f chunks b total pl he hf rfl hd hl ht htotal
  have hv : variantOf (familyCode f) dlen = some (paramsOf f dlen.toNat) := by rw [variantOf_code, if_pos hd]
  have ht' : tailBits b = 0 ∨ acceptsPartial s.cfg f = true := or_iff_not_imp_left.2 ht
  have htail : tailBits total = tailBits b := by rw [tailBits, tailBits, htotal]; omega
  have hwhole : (chunks.flatten ++ pl).length = payloadBytes total := by
    rw [List.length_append, hl, payloadBytes, htotal]
    omega
  exact ⟨_, _, length_digest hv _, (toNat_digestValue dlen).trans (length_digest hv _).symm,
    run_chunked_hash he hf hd rfl hl ht' chunks htotal,
    run_chunked_hash he hf hd rfl hwhole (htail ▸ ht') [] (Nat.zero_add _).symm⟩

/-! ## Words in the chaining storage (log 6) -/

/-- Big-endian words stored in the chaining state are read back. -/
theorem Chain.wordsBE_ofBytes {w n k : Nat} (hw : 8 ∣ w) {h : List (BitVec w)} (hn : h.length = n)
    (hk : n * (w / 8) = k) (hk' : k ≤ 128) : wordsBE w ((Chain.ofBytes (bytesBE h)).bytes k) n = h := by
  rw [Chain.bytes_ofBytes (by rw [length_bytesBE, hn, hk]) hk', wordsBE_bytesBE hw hn]

/-- Little-endian words stored in the chaining state are read back. -/
theorem Chain.wordsLE_ofBytes {w n k : Nat} (hw : 8 ∣ w) {h : List (BitVec w)} (hn : h.length = n)
    (hk : n * (w / 8) = k) (hk' : k ≤ 128) : wordsLE w ((Chain.ofBytes (bytesLE h)).bytes k) n = h := by
  rw [Chain.bytes_ofBytes (by rw [length_bytesLE, hn, hk]) hk', wordsLE_bytesLE hw hn]

/-- The CRC register stored in the chaining state is read back. -/
theorem Chain.loadBE_ofBytes (crc : BitVec 32) :
    loadBE 32 ((Chain.ofBytes (encBE crc.toNat 4)).bytes 4) 0 = crc := by
  rw [Chain.bytes_ofBytes (length_encBE _ _) (by decide)]
  exact loadBE_encBE (by decide) crc

/-! ## The core of a block (R104) -/

/-- Settles O52: in each family's arm of `compress`, the words or bytes stored are read back. -/
theorem transformByFamily : Obligations.TransformByFamily := by
  intro alg dlen p block t nullt _
  refine ⟨fun hf hn h hh => ?blake32, fun hf hn h hh => ?blake64, fun hf H hH => ?groestl, fun hf h hh => ?rmd320,
    fun hf H hH => ?whirlpool, fun hf H hH => ?jh, fun hf cv hcv => ?lsh256, fun hf cv hcv => ?lsh512,
    fun hf crc x hx => ?crc32, fun hf crc x hx => ?cksum⟩ <;> rw [compress, hf] <;> dsimp only
  case blake32 => rw [if_pos hn, Chain.wordsBE_ofBytes (by decide) hh rfl (by decide)]
  case blake64 => rw [if_neg (Nat.not_le.2 hn), Chain.wordsBE_ofBytes (by decide) hh rfl (by decide)]
  case groestl =>
    have hlen : H.length = 8 * groestlColumns p.dlen := by rw [hH, groestlColumns]; split <;> rfl
    have hcols : 8 * groestlColumns p.dlen ≤ 128 := by rw [groestlColumns]; split <;> decide
    rw [Chain.bytes_ofBytes hlen hcols, groestlColumns]
  case rmd320 => rw [Chain.wordsLE_ofBytes (by decide) hh rfl (by decide)]
  case whirlpool | jh => rw [Chain.bytes_ofBytes hH (by decide)]
  case lsh256 | lsh512 => rw [Chain.wordsLE_ofBytes (by decide) hcv rfl (by decide)]
  case crc32 | cksum => rw [Chain.loadBE_ofBytes, hx, List.getD_cons_zero]

/-! ## The output (R108) -/

/-- The bytes of LSH's folded state: word l is `CV[l] ⊕ CV[l + 8]` (R175). -/
theorem bytesLE_lshFold {w : Nat} (cv : List (BitVec w)) :
    bytesLE (lshFold cv) =
      (List.range 8).flatMap fun l => encLE (cv.getD l 0 ^^^ cv.getD (l + 8) 0).toNat (w / 8) := by
  rw [bytesLE, lshFold, List.flatMap_map]
  rfl

/-- The final exclusive or of the CRCs is the complement (R179, R181). -/
theorem xor_ones_eq_not (x : BitVec 32) : x ^^^ 0xFFFFFFFF = ~~~x := BitVec.xor_allOnes

/-- Settles O53: the digest is the output after the final blocks by definition; in each family's arm of `outputBytes`
the stored state is read back, and CKSUM's byte count is fed digit by digit. -/
theorem outputByFamily : Obligations.OutputByFamily := by
  rintro alg dlen p c _ hv rfl
  obtain ⟨hdlen, -⟩ := variantOf_dlen hv
  rw [← hdlen]
  refine ⟨⟨rfl, finalizeCtx_msgBits p c, finalizeCtx_chain p c⟩, fun hf hn h hh => ?blake32,
    fun hf hn h hh => ?blake64, fun hf hn H hH => ?groestl8, fun hf hn H hH => ?groestl16, fun hf h hh => ?rmd320,
    fun hf H hH => ?whirlpool, fun hf H hH => ?jh, fun hf cv hcv => ?lsh256, fun hf cv hcv => ?lsh512,
    fun hf crc => ?crc32, fun hf crc => ?cksum⟩ <;> rw [outputBytes, hf] <;> dsimp only
  case blake32 => rw [if_pos hn, Chain.wordsBE_ofBytes (by decide) hh rfl (by decide), bytesBE]
  case blake64 => rw [if_neg (Nat.not_le.2 hn), Chain.wordsBE_ofBytes (by decide) hh rfl (by decide), bytesBE]
  case groestl8 =>
    rw [groestlColumns, if_pos hn, Chain.bytes_ofBytes hH (by decide), lastBytes, length_groestlOmega hH, groestlOmega]
  case groestl16 =>
    rw [groestlColumns, if_neg (Nat.not_le.2 hn), Chain.bytes_ofBytes hH (by decide), lastBytes,
      length_groestlOmega hH, groestlOmega]
  case rmd320 => rw [Chain.wordsLE_ofBytes (by decide) hh rfl (by decide), bytesLE]
  case whirlpool => exact Chain.bytes_ofBytes hH (by decide)
  case jh => rw [Chain.bytes_ofBytes hH (by decide), lastBytes, hH]
  case lsh256 | lsh512 => rw [Chain.wordsLE_ofBytes (by decide) hcv rfl (by decide), bytesLE_lshFold]
  case crc32 => rw [Chain.loadBE_ofBytes, xor_ones_eq_not]
  case cksum =>
    have hcount : c.msgBits.toNat / 8 < 256 ^ 32 := by have := c.msgBits.isLt; omega
    rw [Chain.loadBE_ofBytes, cksumCount_eq_digits 32 _ hcount, xor_ones_eq_not]

end Sys2Proof.Machine
end

section
/-! PROOFS. BLAKE (43_blake.md): the final blocks with their counters and nullt arguments (R122), and what nullt does to
the core (R120). -/

namespace Sys2Proof.Machine

/-! ## The final blocks (R122) -/

/-- BLAKE's block and length field (R95). -/
theorem LiveCtx.blake_sizes {cfg : Config} {c : Ctx} {p : Params} (h : LiveCtx cfg c p) (hf : p.family = .blake) :
    (p.blockBytes, p.lengthBytes) = if p.dlen ≤ 256 then (64, 8) else (128, 16) := by
  obtain ⟨-, hp⟩ := h.params
  rw [(congrArg Params.blockBytes hp).trans (paramsOf_blockBytes _ _),
    (congrArg Params.lengthBytes hp).trans (paramsOf_lengthBytes _ _), hf]
  dsimp only
  split <;> rfl

/-- A block of BLAKE has room for message bytes beside the terminator and the length field. -/
theorem LiveCtx.blake_room_pos {cfg : Config} {c : Ctx} {p : Params} (h : LiveCtx cfg c p) (hf : p.family = .blake) :
    0 < p.blockBytes - p.lengthBytes - 1 := by
  have hsizes := h.blake_sizes hf
  split at hsizes <;> obtain ⟨hB, hL⟩ := Prod.mk.inj hsizes <;> omega

/-- Settles O27: with the sizes of the parameter record, the three cases are those of `blakeFinalBlocks`; where the
terminator shares its byte with pb, the block holds message bytes. -/
theorem blakeFinalization : Obligations.BlakeFinalization := by
  rintro cfg c p B L _ _ _ _ h hf hBL rfl rfl rfl rfl
  obtain ⟨rfl, rfl⟩ := Prod.mk.inj (hBL.trans (h.blake_sizes hf).symm)
  have hlen := h.length_buffered
  have hroom := h.blake_room_pos hf
  rw [finalBlocks_blake hf]
  refine ⟨fun hk => ?room, fun hk => ?tight, fun hk => ?two, finalizeCtx_nullt p c⟩
  case room =>
    rw [blakeFinalBlocks_room (hlen.trans_lt hk), hlen]
    by_cases h0 : c.bufLen.toNat = 0
    · rw [if_pos h0, if_pos h0, decide_eq_true h0]
      rfl
    · rw [if_neg h0, if_neg h0, decide_eq_false h0]
      rfl
  case tight =>
    rw [blakeFinalBlocks_tight (hlen.trans hk), if_neg (by omega)]
    rfl
  case two =>
    rw [blakeFinalBlocks_two h.lengthBytes_lt (hk.trans_eq hlen.symm), hlen]
    rfl

/-! ## The nullt argument (R120) -/

/-- The words of counter 0 leave the constants they are XORed with as they are. -/
theorem blakeStart_nullt {w : Nat} (k : BlakeCore w) (h : List (BitVec w)) (t : Nat) :
    blakeStart k h t true = blakeStart k h 0 false := by
  rw [blakeStart, blakeStart, if_pos rfl, if_neg Bool.false_ne_true]
  simp only [Nat.zero_mod, Nat.zero_div, BitVec.zero_xor]

/-- The counter and nullt enter the core in its working vector only. -/
theorem blakeCompress_nullt {w : Nat} (k : BlakeCore w) (h : List (BitVec w)) (block : Bytes) (t : Nat) :
    blakeCompress k h block t true = blakeCompress k h block 0 false := by
  rw [blakeCompress, blakeCompress, blakeStart_nullt k h t]

/-- Settles O28: `blakeCompress_nullt` holds of a core of any word width. -/
theorem blakeNulltIsCounterZero : Obligations.BlakeNulltIsCounterZero := fun h32 h64 block t =>
  ⟨blakeCompress_nullt blake32 h32 block t, blakeCompress_nullt blake64 h64 block t⟩

end Sys2Proof.Machine
end

section
/-! PROOFS. Groestl (44_groestl.md): the final blocks with the partial byte, the terminator bit and the length field
(R133), and the construction of the S-box (R127). -/

namespace Sys2Proof.Machine

/-! ## The final blocks (R133) -/

/-- Groestl's block (R95). -/
theorem LiveCtx.groestl_blockBytes {cfg : Config} {c : Ctx} {p : Params} (h : LiveCtx cfg c p)
    (hf : p.family = .groestl) : p.blockBytes = if p.dlen ≤ 256 then 64 else 128 := by
  obtain ⟨-, hp⟩ := h.params
  rw [(congrArg Params.blockBytes hp).trans (paramsOf_blockBytes _ _), hf]

/-- The message of q blocks, k bytes and t bits, with its terminator bit and 64 bits of length, in blocks of B bytes:
the q blocks, and one more or two, as for whole bytes, since t + 1 bits fit the byte of the terminator. -/
theorem ceil_paddedBits_div_blockBits {B k t : Nat} (hB : 8 < B) (hk : k < B) (ht : t < 8) (q : Nat) :
    (8 * B * q + 8 * k + t + 65 + (8 * B - 1)) / (8 * B) = q + if k + 1 + 8 ≤ B then 1 else 2 := by
  have hsplit : 8 * B * q + 8 * k + t + 65 + (8 * B - 1) = 8 * B * q + (8 * k + t + 64 + 8 * B) := by omega
  rw [hsplit, Nat.mul_add_div (by omega)]
  congr 1
  split
  · exact Nat.div_eq_of_lt_le (by omega) (by omega)
  · exact Nat.div_eq_of_lt_le (by omega) (by omega)

/-- The number of blocks of the padded message is that of the blocks transformed and the final ones (R98, R133). -/
theorem LiveCtx.groestl_total {cfg : Config} {c : Ctx} {p : Params} (h : LiveCtx cfg c p) (hf : p.family = .groestl) :
    (c.msgBits.toNat + 65 + (8 * p.blockBytes - 1)) / (8 * p.blockBytes) =
      c.blockCount.toNat + (finalBlocks p c).length := by
  have hB : 8 < p.blockBytes := h.lengthBytes_groestl hf ▸ h.lengthBytes_lt
  rw [length_finalBlocks h, hf, h.lengthBytes_groestl hf, h.msgBits_eq]
  exact ceil_paddedBits_div_blockBits hB h.bufLen_lt c.partialBits.isLt _

/-- The length limit keeps the block counter from wrapping (R98). -/
theorem LiveCtx.groestl_finalized_blockCount {cfg : Config} {c : Ctx} {p : Params} (h : LiveCtx cfg c p)
    (hf : p.family = .groestl) :
    (finalizeCtx p c).blockCount.toNat = c.blockCount.toNat + (finalBlocks p c).length := by
  have hlimit := h.within
  rw [withinLimit, hf] at hlimit
  have htotal := of_decide_eq_true hlimit
  rw [h.groestl_total hf] at htotal
  rw [finalizeCtx_blockCount, BitVec.toNat_add, BitVec.toNat_ofNat, Nat.add_mod_mod]
  exact Nat.mod_eq_of_lt (by omega)

/-- Groestl's final blocks, from k bytes buffered (R133). -/
theorem LiveCtx.groestl_blocks {cfg : Config} {c : Ctx} {p : Params} (h : LiveCtx cfg c p) (hf : p.family = .groestl)
    {x : Byte} (hx : x = groestlLastByte c.partialBits.toNat (c.buf.toList.getD c.bufLen.toNat 0)) :
    (finalBlocks p c).map FinalBlock.block =
      if c.bufLen.toNat ≤ p.blockBytes - 9 then
        [buffered c ++ [x] ++ zeros (p.blockBytes - 9 - c.bufLen.toNat) ++
          encBE (c.blockCount.toNat + (finalBlocks p c).length) 8]
      else
        [buffered c ++ [x] ++ zeros (p.blockBytes - 1 - c.bufLen.toNat),
          zeros (p.blockBytes - 8) ++ encBE (c.blockCount.toNat + (finalBlocks p c).length) 8] := by
  have hB : 8 < p.blockBytes := h.lengthBytes_groestl hf ▸ h.lengthBytes_lt
  have hlen : (buffered c ++ [x]).length = c.bufLen.toNat + 1 := by
    rw [List.length_append, h.length_buffered, List.length_singleton]
  rw [finalBlocks_groestl hf, map_plain_block, List.length_map, groestlTerminated_eq, ← hx]
  by_cases hk : c.bufLen.toNat ≤ p.blockBytes - 9
  · have hzeros : p.blockBytes - 8 - (c.bufLen.toNat + 1) = p.blockBytes - 9 - c.bufLen.toNat := by omega
    rw [groestlFinalBlocks_one (by omega), if_pos hk, hlen, hzeros, List.length_singleton]
  · have hzeros : p.blockBytes - (c.bufLen.toNat + 1) = p.blockBytes - 1 - c.bufLen.toNat := by omega
    rw [groestlFinalBlocks_two (by omega), if_neg hk, hlen, hzeros]
    rfl

/-- Settles O26: the byte is `groestlLastByte`, and the length field and the block counter hold the number of blocks
by `LiveCtx.groestl_total`. -/
theorem groestlLengthField : Obligations.GroestlLengthField := by
  rintro cfg c p B _ _ _ h hf hB rfl rfl rfl
  obtain rfl : B = p.blockBytes := hB.trans (h.groestl_blockBytes hf).symm
  rw [h.groestl_total hf]
  exact ⟨_, fun j hj => groestlLastByte_bits c.partialBits.isLt _ hj, h.groestl_blocks hf rfl,
    h.groestl_finalized_blockCount hf⟩

/-! ## The S-box (R127) -/

/-- The affine map of the S-box. -/
def groestlAffine (y : Byte) : Byte :=
  y ^^^ y.rotateLeft 1 ^^^ y.rotateLeft 2 ^^^ y.rotateLeft 3 ^^^ y.rotateLeft 4 ^^^ 0x63

/-- Its inverse. -/
def groestlAffineInv (s : Byte) : Byte := s.rotateLeft 1 ^^^ s.rotateLeft 3 ^^^ s.rotateLeft 6 ^^^ 0x05

theorem groestlAffine_groestlAffineInv : ∀ s : Byte, groestlAffine (groestlAffineInv s) = s := by decide +kernel

/-- The table, without the affine map, is inversion in the field, with 0 for the inverse of 0. -/
theorem groestlAffineInv_groestlS : ∀ x : Byte,
    if x = 0 then groestlAffineInv (groestlS x) = 0 else groestlMul x (groestlAffineInv (groestlS x)) = 1 := by
  decide +kernel

/-- Settles O45: the inverse is what the inverse affine map makes of the table's entry. -/
theorem groestlSBoxFormula : Obligations.GroestlSBoxFormula := fun x =>
  ⟨groestlAffineInv (groestlS x), groestlAffineInv_groestlS x, (groestlAffine_groestlAffineInv (groestlS x)).symm⟩

end Sys2Proof.Machine
end

section
/-! PROOFS. Whirlpool (46_whirlpool.md): the S-box table is what the mini-boxes make of each byte (R147). -/

namespace Sys2Proof.Machine

/-- The S-box table of a function on bytes, in the layout of R147: row u[7:4], column u[3:0]. -/
def boxRows (f : Byte → Byte) : List (List Byte) :=
  (List.range 16).map fun i => (List.range 16).map fun j => f (BitVec.ofNat 8 (16 * i + j))

/-- Reading the table of `f` gives `f`: a byte is its row and its column. -/
theorem boxAt_boxRows (f : Byte → Byte) (u : Byte) : boxAt (boxRows f) u = f u := by
  have hrow : u.toNat / 16 < 16 := Nat.div_lt_of_lt_mul u.isLt
  have hcol : u.toNat % 16 < 16 := Nat.mod_lt _ (by decide)
  have hbyte : BitVec.ofNat 8 (16 * (u.toNat / 16) + u.toNat % 16) = u := by
    rw [Nat.div_add_mod, BitVec.ofNat_toNat, BitVec.setWidth_eq]
  simp [boxAt, boxRows, hrow, hcol, hbyte]

/-- R147's table, entry by entry, is that of the construction. -/
theorem whirlpoolSRows_eq_boxRows : whirlpoolSRows = boxRows whirlpoolSFromBoxes := rfl

/-- Settles O46: the printed table is the one the mini-boxes fill, and reading that gives the construction. -/
theorem whirlpoolSBoxFormula : Obligations.WhirlpoolSBoxFormula := by
  intro u
  rw [whirlpoolS, whirlpoolSRows_eq_boxRows, boxAt_boxRows]

end Sys2Proof.Machine
end

section
/-! PROOFS. JH (47_jh.md) and the one block LSH pads (48_lsh.md R174): the padded message of JH (R165), and the
recurrence of its round constants (R161). -/

namespace Sys2Proof.Machine

/-! ## Padding (R165, R174) -/

/-- Only Groestl keeps a partial byte (R97). -/
theorem LiveCtx.partialBits_eq_zero {cfg : Config} {c : Ctx} {p : Params} (h : LiveCtx cfg c p)
    (hf : p.family ≠ .groestl) : c.partialBits = 0 :=
  by_contra fun hne => hf (acceptsPartial_groestl (h.tailAccepted hne)).1

/-- The bits of a JH message past its last whole block are those of the buffered bytes. -/
theorem LiveCtx.msgBits_mod_jh {cfg : Config} {c : Ctx} {p : Params} (h : LiveCtx cfg c p) (hf : p.family = .jh) :
    c.msgBits.toNat % 512 = 8 * c.bufLen.toNat := by
  have hlt := h.bufLen_lt
  have hbits := h.msgBits_eq
  have hpartial : c.partialBits.toNat = 0 := congrArg BitVec.toNat (h.partialBits_eq_zero (by rw [hf]; decide))
  rw [h.blockBytes_jh hf] at hlt hbits
  omega

/-- The number of zero bytes between JH's terminator and its length field, from k bytes buffered: those of the one
block, or those of the first block and the 48 of the second. -/
def jhZeroBytes (k : Nat) : Nat := if k = 0 then 47 else 63 - k + 48

/-- The zero bits are the seven of the terminator's byte and the zero bytes. -/
theorem jhZeroBytes_bits {k : Nat} (hk : k < 64) : 7 + 8 * jhZeroBytes k = 383 + (512 - 8 * k) % 512 := by
  rw [jhZeroBytes]
  split <;> omega

/-- JH's final blocks, end to end. -/
theorem jhFinalBlocks_flatten (N : Nat) (m : Bytes) :
    (jhFinalBlocks N m).flatten = m ++ [0x80] ++ zeros (jhZeroBytes m.length) ++ encBE N 16 := by
  by_cases h : m.length = 0
  · rw [jhFinalBlocks_empty h, List.flatten_singleton, jhZeroBytes, if_pos h, List.eq_nil_of_length_eq_zero h,
      List.nil_append]
  · rw [jhFinalBlocks_nonempty h, List.flatten_cons, List.flatten_singleton, jhZeroBytes, if_neg h, ← zeros_append]
    simp only [List.append_assoc]

/-- Settles O29: JH's blocks end to end by `jhFinalBlocks_flatten`, their zeros counted from the buffered bytes, which
are the message bits modulo 512; LSH's block is `lshFinalBlock` of the buffered bytes. -/
theorem jhAndLshPadding : Obligations.JhAndLshPadding := by
  intro cfg c p h
  refine ⟨fun hf => ⟨jhZeroBytes c.bufLen.toNat, ?_, ?_⟩, fun hf => ?_⟩
  · rw [h.msgBits_mod_jh hf]
    exact jhZeroBytes_bits (h.blockBytes_jh hf ▸ h.bufLen_lt)
  · rw [finalBlocks_jh hf, map_plain_block, jhFinalBlocks_flatten, h.length_buffered]
    rfl
  · rw [finalBlocks_lsh hf, List.map_singleton, plainBlock, lshFinalBlock, h.length_buffered]
    rfl

/-! ## The round constants (R161) -/

/-- The constant that follows c, as elements: `R_6(c, 0)`. -/
def jhNextElements (c : BitVec 256) : List (BitVec 4) := jhRound 6 (jhElements c) (List.replicate 64 false)

/-- Along the table of R161, each constant is the one that follows the constant before it. -/
theorem jhConstants_isChain : jhConstants.IsChain fun c c' => jhElements c' = jhNextElements c := by decide +kernel

/-- Settles O48: the table is a chain of the recurrence, read at each index. -/
theorem jhConstantsRecurrence : Obligations.JhConstantsRecurrence := by
  refine ⟨rfl, rfl, fun r hr => ?_⟩
  have hlt : r + 1 < jhConstants.length := Nat.succ_lt_succ hr
  rw [List.getD_eq_getElem _ _ hlt, List.getD_eq_getElem _ _ (Nat.lt_of_succ_lt hlt)]
  exact List.isChain_iff_getElem.1 jhConstants_isChain r hlt

end Sys2Proof.Machine
end

section
/-! PROOFS. LSH's step constants (48_lsh.md R169) and the CRC-32 engines (49_crc32.md): the two CRC steps are one step
read from opposite ends (R178, R180), and the check values of R182. -/

namespace Sys2Proof.Machine

/-! ## The step constants (R169) -/

/-- The row that follows a row of step constants, word by word. -/
def lshNextRow {w : Nat} (row : List (BitVec w)) : List (BitVec w) := row.map fun x => x + x.rotateLeft 8

/-- Along the table of LSH-256, each row is the one that follows the row before it. -/
theorem lsh32_sc_isChain : lsh32.sc.IsChain fun row row' => row' = lshNextRow row := by decide +kernel

/-- Along the table of LSH-512 likewise. -/
theorem lsh64_sc_isChain : lsh64.sc.IsChain fun row row' => row' = lshNextRow row := by decide +kernel

/-- A chain read at one index and the next, with whatever default. -/
theorem getD_succ_of_isChain {α : Type} {R : α → α → Prop} {l : List α} (h : l.IsChain R) {j : Nat}
    (hj : j + 1 < l.length) (d : α) : R (l.getD j d) (l.getD (j + 1) d) := by
  rw [List.getD_eq_getElem _ _ hj, List.getD_eq_getElem _ _ (Nat.lt_of_succ_lt hj)]
  exact List.isChain_iff_getElem.1 h j hj

/-- Settles O47: each table is a chain of the recurrence, read at each index. -/
theorem lshConstantsRecurrence : Obligations.LshConstantsRecurrence :=
  ⟨rfl, rfl, rfl, rfl, fun _ hj => getD_succ_of_isChain lsh32_sc_isChain (Nat.succ_lt_succ hj) [],
    fun _ hj => getD_succ_of_isChain lsh64_sc_isChain (Nat.succ_lt_succ hj) []⟩

/-! ## The two CRC steps (R178, R180) -/

theorem reverse_xor {w : Nat} (x y : BitVec w) : (x ^^^ y).reverse = x.reverse ^^^ y.reverse := by
  ext i hi
  simp [BitVec.getElem_reverse]

/-- A shift left, seen from the other end, is a shift right. -/
theorem reverse_shiftLeft {w : Nat} (x : BitVec w) (n : Nat) : (x <<< n).reverse = x.reverse >>> n := by
  ext i hi
  simp [BitVec.getElem_reverse, BitVec.getLsbD_reverse, Nat.add_comm]

/-- A byte at the top of the register, seen from the other end, is the reversed byte at the bottom. -/
theorem reverse_byte_shiftLeft (x : Byte) : (x.setWidth 32 <<< 24).reverse = x.reverse.setWidth 32 := by
  ext i hi
  rw [BitVec.getElem_reverse, BitVec.getMsbD_shiftLeft, BitVec.getElem_setWidth, BitVec.getLsbD_reverse]
  simp [BitVec.getMsbD_setWidth]

/-- 0xEDB88320 is 0x04C11DB7 from the other end. -/
theorem crc32Poly_eq_reverse : (0xEDB88320 : Word) = (0x04C11DB7 : Word).reverse := by decide +kernel

/-- One bit: the bit shifted out at one end is the one shifted out at the other. -/
theorem crc32Bit_reverse (crc : BitVec 32) : crc32Bit crc.reverse = (cksumBit crc).reverse := by
  have hout : crc.reverse.getLsbD 0 = crc.getLsbD 31 := BitVec.getLsbD_reverse
  rw [crc32Bit, cksumBit, hout]
  split
  · rw [reverse_xor, reverse_shiftLeft, ← crc32Poly_eq_reverse]
  · rw [reverse_shiftLeft]

/-- Settles O49: the byte goes into mirrored places, and each of the eight bits keeps the mirror image. -/
theorem crcStepsAreReflections : Obligations.CrcStepsAreReflections := by
  refine ⟨crc32Poly_eq_reverse, fun crc x => ?_⟩
  rw [crc32Step, cksumStep, ← reverse_byte_shiftLeft, ← reverse_xor]
  exact List.foldl_hom BitVec.reverse fun c _ => crc32Bit_reverse c

/-! ## Check values (R182) -/

/-- The nine bytes "123456789". -/
def crcCheckBytes : Bytes := [0x31, 0x32, 0x33, 0x34, 0x35, 0x36, 0x37, 0x38, 0x39]

theorem hashResponse_crc32 : hashResponse .crc32 32 72 crcCheckBytes = [0x00040000, 0x2639F4CB] := by decide +kernel

theorem hashResponse_cksum :
    hashResponse .cksum 32 72 crcCheckBytes = [0x00040000, packWord 0x37 0x7A 0x60 0x11] := by decide +kernel

theorem emptyHashResponse_crc32 : emptyHashResponse .crc32 32 = [0x00040000, 0x00000000] := by decide +kernel

theorem emptyHashResponse_cksum : emptyHashResponse .cksum 32 = [0x00040000, 0xFFFFFFFF] := by decide +kernel

/-- A byte count below 256 is fed as one byte (R181). -/
theorem cksumCount_of_lt {n : Nat} (h0 : n ≠ 0) (h : n < 256) (crc : BitVec 32) :
    cksumCount 32 n crc = cksumStep crc (BitVec.ofNat 8 n) := by
  rw [cksumCount_eq_digits 32 n (h.trans (by decide)), Nat.digits_of_lt 256 n h0 h]
  rfl

/-- Settles O50: `run_hash` and `run_hash_empty` on the two codes, with the responses computed. -/
theorem crcCheckValues : Obligations.CrcCheckValues := by
  refine ⟨?_, by decide, rfl, cksumCount_of_lt (by decide) (by decide)⟩
  rintro s eng _ he hcrc hcksum rfl
  exact ⟨run_hash_of_response he hcrc (dlen := 32) (by decide) (by decide) (by decide) hashResponse_crc32,
    run_hash_of_response he hcksum (dlen := 32) (by decide) (by decide) (by decide) hashResponse_cksum,
    run_hash_empty_of_response he hcrc (dlen := 32) (by decide) emptyHashResponse_crc32,
    run_hash_empty_of_response he hcksum (dlen := 32) (by decide) emptyHashResponse_cksum⟩

end Sys2Proof.Machine
end

section
/-! PROOFS. Exceptions (60_exceptions.md) and the reset signal (70_reset_and_hazards.md): the one model fault (R186), an
UPDATE that waits for its words (R206), and reset beside DROP (R199, R200). -/

namespace Sys2Proof.Machine

/-! ## The model fault (R186, R187) -/

/-- Settles O37: there is one fault; the engine of the port exists, and what faults there is an UPDATE past its limit. -/
theorem onlyUpdateFaults : Obligations.OnlyUpdateFaults := by
  rintro i s ⟨⟩ h
  cases he : s.engines[s.port]? with
  | none =>
    obtain ⟨r, hr⟩ := exec_none he i
    rw [hr] at h; cases h
  | some eng =>
    rw [exec_eq he] at h
    cases hx : engineExec s.cfg i eng with
    | next eng' => rw [hx] at h; cases h
    | refused r => rw [hx] at h; cases h
    | fault r =>
      obtain ⟨b, pl, p, hi, hs, hv, ht, hw⟩ := engineExec_fault hx
      exact ⟨b, pl, eng, p, hi, rfl, rfl, hs, hv, hw, ht⟩

/-! ## An UPDATE cut short (R206) -/

/-- The first words of a well-formed UPDATE, short of its last, complete no record and leave it pending. -/
theorem rxRun_words_short {r : Rx} (h : r.phase = .hdr) {c : Command} (hc : c.wf = true) (ho : opcField c.hdr = 2)
    {xs : List Word} (h0 : xs ≠ []) (hx : xs <+: c.words) (hne : xs ≠ c.words) :
    (rxRun r xs).2 = [] ∧ (rxRun r xs).1.phase ≠ .hdr := by
  rw [Command.words_update ho] at hx hne
  have hl : (packWords c.payload).length = payloadWords (bitlenOf (loWord c.bitlen) (hiWord c.bitlen)) := by
    rw [length_packWords, (Command.wf_update ho).1 hc, bitlenOf_lo_hi, payloadWords]
  exact rxRun_update_short h ho hl h0 hx hne

/-- Settles O10: the words there are move the decoder alone, and then no event is pending. -/
theorem incompleteUpdateWaits : Obligations.IncompleteUpdateWaits := by
  intro s e eng c xs he hphase hwf ho h0 hx hne hin
  obtain ⟨hnone, hpending⟩ := rxRun_words_short hphase hwf ho h0 hx hne
  refine ⟨(rxRun eng.rx xs).1, hpending, fun n => ?_⟩
  rw [run_add (run_words_none e [] xs s eng he (by rw [hin, List.append_nil]) hnone), run_idle rfl]
  rfl

/-! ## Reset (R199, R200) -/

theorem resetEngine_eq {s : State} {e : Nat} {eng : Engine} (he : s.engines[e]? = some eng) :
    resetEngine e s = .next (s.setEngine e eng.applyReset) := by
  rw [resetEngine, he]

/-- A word that completes a record, whatever the decoder held, leaves it at a command boundary. -/
theorem rxStep_some_phase {r r' : Rx} {x : Word} {c : Command} (h : rxStep r x = (r', some c)) : r'.phase = .hdr := by
  cases hp : r.phase with
  | hdr => exact (rxStep_some (fun hne => absurd hp hne) h).2
  | lenLo => rw [rxStep_lenLo hp] at h; cases h
  | lenHi =>
    by_cases hx : bitlenOf r.lo x = 0
    · rw [rxStep_lenHi_zero hp hx] at h; cases h; rfl
    · rw [rxStep_lenHi hp hx] at h; cases h
  | payload =>
    by_cases hx : payloadBytes r.bitlen ≤ r.data.length + 4
    · rw [rxStep_payload_done hp hx] at h; cases h; rfl
    · rw [rxStep_payload_more hp (Nat.not_le.1 hx)] at h; cases h

/-- Settles O13: DROP's engine and the reset engine, field by field. -/
theorem resetAndDrop : Obligations.ResetAndDrop := by
  intro s eng he
  refine ⟨⟨dropEngine eng, eng.applyReset, ?_, resetEngine_eq he, rfl, rfl, rfl, rfl, rfl, rfl, rfl⟩,
    fun _ _ _ _ => rxStep_some_phase⟩
  rw [exec_eq he, engineExec, liftEngine_next]

/-- Settles O12: the event resets its engine, or each engine of the list, to the context and decoder of R41. -/
theorem resetSignal : Obligations.ResetSignal := by
  refine fun s rest => ⟨fun e eng he hin => ?_, fun hin => ?_, rfl, rfl, fun _ => rfl⟩
  · rw [step, hin]
    exact resetEngine_eq he
  · rw [step, hin]
    rfl

end Sys2Proof.Machine
end
